-- ==== Sys2Proof/Word.lean ====
section
/-! DEFINITION. The two word types of the block: the byte and the 16-bit command word (00 R6, 30 R90). -/

namespace Sys2Proof

/-- A byte: 8 bits, bit 0 the least significant (R6). -/
abbrev Byte := BitVec 8

/-- A command word `cmd[15:0]` (R90). -/
abbrev CmdWord := BitVec 16

end Sys2Proof
end

