-- ==== Sys2Proof/Syntax.lean ====
section
/-! DEFINITION. The operations of the block, one constructor per row of spec/opcode_table.json, in its order. -/

namespace Sys2Proof

/-- One operation. A bare `Bool` operand is the bit `arg[0]`, a `Byte` operand is the whole `arg` (30 R90). -/
inductive Instr where
  -- SYS (45 R270 to R275, R280)
  | init
  | release
  | setToi (b : Bool)
  | setTep (b : Bool)
  | callevRing
  | callevAnswer
  | callevHangup
  | setT38 (b : Bool)
  | t38Tick (n : Byte)
  -- RESTART (40 R120 to R136)
  | restartFlush
  | restartSilenceTx
  | restartSilenceRx
  | restartCed
  | restartCng
  | restartNocng
  | restartV21Tx
  | restartV17Tx
  | restartV27terTx
  | restartV29Tx
  | restartV21Rx
  | restartV17Rx
  | restartV27terRx
  | restartV29Rx
  -- CLASS1 (41 R160 to R167)
  | frs (v : Byte)
  | fts (v : Byte)
  | frh (v : Byte)
  | fth (v : Byte)
  | frm (v : Byte)
  | ftm (v : Byte)
  -- DTE (42 R180)
  | dte (b : Byte)
  -- GETBIT, PUTBIT (43 R210 to R217)
  | getBit
  | putBit (bit : Bool)
  | putBitCarrierDown
  | putBitCarrierUp
  | putBitTrainingInProgress
  | putBitTrainingSucceeded
  | putBitTrainingFailed
  | putBitOther (v : Byte)
  -- HDLCRX (44 R240 to R246)
  | hdlcRx (ok : Bool)
  | hdlcEvFramingOk
  | hdlcEvCarrierDown
  | hdlcEvCarrierUp
  | hdlcEvOther (v : Byte)
  -- HDLCTX (43 R218)
  | hdlcTxu
  -- LINE (45 R276, R278)
  | rxs (quiet : Bool)
  | txs (n : Byte)
  -- QUEUE (44 R247 to R249)
  | qWrite
  | qRead
  | qFlush
  deriving DecidableEq, Repr

end Sys2Proof
end

