-- ==== Sys2Proof/WellFormed.lean ====
section
/-! DEFINITION. Which terms of `Instr` stand for a command word. Only the two catch-all rows carry a check:
PUTBIT.OTHER and HDLCEV.OTHER match when no row above them does (opcode_table.json, 43 R217, 44 R246). -/

namespace Sys2Proof

/-- The values of a PUTBIT word that a row above PUTBIT.OTHER takes: the data bits 0 and 1 and the events −1
to −5 (30 R98). -/
def putBitNamed (v : Byte) : Bool :=
  v == 0x00 || v == 0x01 || v == 0xFF || v == 0xFE || v == 0xFD || v == 0xFC || v == 0xFB

/-- The values of an HDLCEV word that a row above HDLCEV.OTHER takes: FRAMING_OK, CARRIER_DOWN and CARRIER_UP
(30 R98). -/
def hdlcEvNamed (v : Byte) : Bool :=
  v == 0xFA || v == 0xFF || v == 0xFE

/-- An operation is well-formed when its operands are ones its row of the table can carry. -/
def Instr.wellFormed : Instr → Bool
  | .putBitOther v => !putBitNamed v
  | .hdlcEvOther v => !hdlcEvNamed v
  | .init | .release | .setToi _ | .setTep _ | .callevRing | .callevAnswer | .callevHangup
  | .setT38 _ | .t38Tick _
  | .restartFlush | .restartSilenceTx | .restartSilenceRx | .restartCed | .restartCng | .restartNocng
  | .restartV21Tx | .restartV17Tx | .restartV27terTx | .restartV29Tx
  | .restartV21Rx | .restartV17Rx | .restartV27terRx | .restartV29Rx
  | .frs _ | .fts _ | .frh _ | .fth _ | .frm _ | .ftm _
  | .dte _ | .getBit | .putBit _ | .putBitCarrierDown | .putBitCarrierUp | .putBitTrainingInProgress
  | .putBitTrainingSucceeded | .putBitTrainingFailed
  | .hdlcRx _ | .hdlcEvFramingOk | .hdlcEvCarrierDown | .hdlcEvCarrierUp
  | .hdlcTxu | .rxs _ | .txs _ | .qWrite | .qRead | .qFlush => true

end Sys2Proof
end

