-- ==== Sys2Proof/Decode.lean ====
section
/-! DEFINITION. The decoder of command words, total, rejecting by name, and after it the encoder (30 R90 to
R93, R98, R102, R104). -/

namespace Sys2Proof

/-- Why a word spells no operation (30 R102). -/
inductive DecodeError where
  /-- `cls` is 0xA to 0xF. -/
  | reservedClass
  /-- `sub` is not assigned in this class. -/
  | reservedSub
  /-- `arg` holds a value the operation does not take. -/
  | reservedArg
  deriving DecidableEq, Repr

/-- The field `cls`, bits 15:12 (R90). -/
def fieldCls (w : CmdWord) : BitVec 4 := w.extractLsb' 12 4

/-- The field `sub`, bits 11:8 (R90). -/
def fieldSub (w : CmdWord) : BitVec 4 := w.extractLsb' 8 4

/-- The field `arg`, bits 7:0 (R90). -/
def fieldArg (w : CmdWord) : Byte := w.extractLsb' 0 8

/-- The word with the three given fields (R90). -/
def packWord (cls sub : BitVec 4) (arg : Byte) : CmdWord := cls ++ sub ++ arg

/-- An operation that takes no operand: `arg` must be 0 (R102). -/
def decodeNoArg (arg : Byte) (i : Instr) : Except DecodeError Instr :=
  if arg = 0 then .ok i else .error .reservedArg

/-- An operation that takes the bit `arg[0]`: `arg[7:1]` must be 0 (R102). -/
def decodeFlag (arg : Byte) (i : Bool → Instr) : Except DecodeError Instr :=
  if arg = 0 then .ok (i false) else if arg = 1 then .ok (i true) else .error .reservedArg

/-- Class 0x0, SYS (R91, R104; the events of CALLEV by 45 R274). -/
def decodeSys (sub : BitVec 4) (arg : Byte) : Except DecodeError Instr :=
  match sub.toNat with
  | 0 => decodeNoArg arg .init
  | 1 => decodeNoArg arg .release
  | 2 => decodeFlag arg .setToi
  | 3 => decodeFlag arg .setTep
  | 4 =>
    if arg = 0 then .ok .callevRing
    else if arg = 1 then .ok .callevAnswer
    else if arg = 2 then .ok .callevHangup
    else .error .reservedArg
  | 5 => decodeFlag arg .setT38
  | 6 => .ok (.t38Tick arg)
  | _ => .error .reservedSub

/-- Class 0x1, RESTART: the mode code of R92 in `sub` (40 R120, R136). -/
def decodeRestart (sub : BitVec 4) (arg : Byte) : Except DecodeError Instr :=
  match sub.toNat with
  | 0 => decodeNoArg arg .restartFlush
  | 1 => decodeNoArg arg .restartSilenceTx
  | 2 => decodeNoArg arg .restartSilenceRx
  | 3 => decodeNoArg arg .restartCed
  | 4 => decodeNoArg arg .restartCng
  | 5 => decodeNoArg arg .restartNocng
  | 6 => decodeNoArg arg .restartV21Tx
  | 7 => decodeNoArg arg .restartV17Tx
  | 8 => decodeNoArg arg .restartV27terTx
  | 9 => decodeNoArg arg .restartV29Tx
  | 10 => decodeNoArg arg .restartV21Rx
  | 11 => decodeNoArg arg .restartV17Rx
  | 12 => decodeNoArg arg .restartV27terRx
  | 13 => decodeNoArg arg .restartV29Rx
  | _ => .error .reservedSub

/-- Class 0x2, CLASS1: direction in `sub[0]`, selector in `sub[2:1]` (R93). -/
def decodeClass1 (sub : BitVec 4) (arg : Byte) : Except DecodeError Instr :=
  match sub.toNat with
  | 0 => .ok (.frs arg)
  | 1 => .ok (.fts arg)
  | 2 => .ok (.frh arg)
  | 3 => .ok (.fth arg)
  | 4 => .ok (.frm arg)
  | 5 => .ok (.ftm arg)
  | _ => .error .reservedSub

/-- The values of a PUTBIT word (R98, R104). -/
def decodePutBit (arg : Byte) : Instr :=
  if arg = 0x00 then .putBit false
  else if arg = 0x01 then .putBit true
  else if arg = 0xFF then .putBitCarrierDown
  else if arg = 0xFE then .putBitCarrierUp
  else if arg = 0xFD then .putBitTrainingInProgress
  else if arg = 0xFC then .putBitTrainingSucceeded
  else if arg = 0xFB then .putBitTrainingFailed
  else .putBitOther arg

/-- The values of an HDLCEV word (R98, R104). -/
def decodeHdlcEv (arg : Byte) : Instr :=
  if arg = 0xFA then .hdlcEvFramingOk
  else if arg = 0xFF then .hdlcEvCarrierDown
  else if arg = 0xFE then .hdlcEvCarrierUp
  else .hdlcEvOther arg

/-- Class 0x6, HDLCRX (R91, R102). -/
def decodeHdlcRx (sub : BitVec 4) (arg : Byte) : Except DecodeError Instr :=
  match sub.toNat with
  | 0 => decodeFlag arg .hdlcRx
  | 1 => .ok (decodeHdlcEv arg)
  | _ => .error .reservedSub

/-- Class 0x8, LINE (R91, R102). -/
def decodeLine (sub : BitVec 4) (arg : Byte) : Except DecodeError Instr :=
  match sub.toNat with
  | 0 => decodeFlag arg .rxs
  | 1 => .ok (.txs arg)
  | _ => .error .reservedSub

/-- Class 0x9, QUEUE (R91, R102). -/
def decodeQueue (sub : BitVec 4) (arg : Byte) : Except DecodeError Instr :=
  match sub.toNat with
  | 0 => decodeNoArg arg .qWrite
  | 1 => decodeNoArg arg .qRead
  | 2 => decodeNoArg arg .qFlush
  | _ => .error .reservedSub

/-- A class whose `sub` must be 0 (R102). -/
def decodeNoSub (sub : BitVec 4) (r : Except DecodeError Instr) : Except DecodeError Instr :=
  if sub = 0 then r else .error .reservedSub

/-- The operation a command word spells, by class (R91), or the name of what is reserved in it (R102). -/
def decode (w : CmdWord) : Except DecodeError Instr :=
  match (fieldCls w).toNat with
  | 0 => decodeSys (fieldSub w) (fieldArg w)
  | 1 => decodeRestart (fieldSub w) (fieldArg w)
  | 2 => decodeClass1 (fieldSub w) (fieldArg w)
  | 3 => decodeNoSub (fieldSub w) (.ok (.dte (fieldArg w)))
  | 4 => decodeNoSub (fieldSub w) (decodeNoArg (fieldArg w) .getBit)
  | 5 => decodeNoSub (fieldSub w) (.ok (decodePutBit (fieldArg w)))
  | 6 => decodeHdlcRx (fieldSub w) (fieldArg w)
  | 7 => decodeNoSub (fieldSub w) (decodeNoArg (fieldArg w) .hdlcTxu)
  | 8 => decodeLine (fieldSub w) (fieldArg w)
  | 9 => decodeQueue (fieldSub w) (fieldArg w)
  | _ => .error .reservedClass

/-- The command word of `nbits` bits whose value is `w`: one 16-bit word, bit 0 its least significant bit,
every bit from `nbits` up 0. -/
def tableWord (nbits w : Nat) : CmdWord := BitVec.ofNat 16 (w % 2 ^ nbits)

/-- The operation the decoder reads from an instruction whose bits are `w`, numbered as
spec/opcode_table.json numbers them. -/
def decodeTableWord (nbits w : Nat) : Option Instr :=
  match decode (tableWord nbits w) with
  | .ok i => some i
  | .error _ => none

/-- The operand byte of a bare flag. -/
def flagArg (b : Bool) : Byte := if b then 1 else 0

/-- The command word of an operation, from the table of 30 R104. -/
def encode : Instr → CmdWord
  | .init => packWord 0 0 0
  | .release => packWord 0 1 0
  | .setToi b => packWord 0 2 (flagArg b)
  | .setTep b => packWord 0 3 (flagArg b)
  | .callevRing => packWord 0 4 0
  | .callevAnswer => packWord 0 4 1
  | .callevHangup => packWord 0 4 2
  | .setT38 b => packWord 0 5 (flagArg b)
  | .t38Tick n => packWord 0 6 n
  | .restartFlush => packWord 1 0 0
  | .restartSilenceTx => packWord 1 1 0
  | .restartSilenceRx => packWord 1 2 0
  | .restartCed => packWord 1 3 0
  | .restartCng => packWord 1 4 0
  | .restartNocng => packWord 1 5 0
  | .restartV21Tx => packWord 1 6 0
  | .restartV17Tx => packWord 1 7 0
  | .restartV27terTx => packWord 1 8 0
  | .restartV29Tx => packWord 1 9 0
  | .restartV21Rx => packWord 1 10 0
  | .restartV17Rx => packWord 1 11 0
  | .restartV27terRx => packWord 1 12 0
  | .restartV29Rx => packWord 1 13 0
  | .frs v => packWord 2 0 v
  | .fts v => packWord 2 1 v
  | .frh v => packWord 2 2 v
  | .fth v => packWord 2 3 v
  | .frm v => packWord 2 4 v
  | .ftm v => packWord 2 5 v
  | .dte b => packWord 3 0 b
  | .getBit => packWord 4 0 0
  | .putBit b => packWord 5 0 (flagArg b)
  | .putBitCarrierDown => packWord 5 0 0xFF
  | .putBitCarrierUp => packWord 5 0 0xFE
  | .putBitTrainingInProgress => packWord 5 0 0xFD
  | .putBitTrainingSucceeded => packWord 5 0 0xFC
  | .putBitTrainingFailed => packWord 5 0 0xFB
  | .putBitOther v => packWord 5 0 v
  | .hdlcRx ok => packWord 6 0 (flagArg ok)
  | .hdlcEvFramingOk => packWord 6 1 0xFA
  | .hdlcEvCarrierDown => packWord 6 1 0xFF
  | .hdlcEvCarrierUp => packWord 6 1 0xFE
  | .hdlcEvOther v => packWord 6 1 v
  | .hdlcTxu => packWord 7 0 0
  | .rxs quiet => packWord 8 0 (flagArg quiet)
  | .txs n => packWord 8 1 n
  | .qWrite => packWord 9 0 0
  | .qRead => packWord 9 1 0
  | .qFlush => packWord 9 2 0

end Sys2Proof
end

