-- ==== Sys2Proof/Machine/Types.lean ====
section
/-! DEFINITION. The values the block's registers and ports hold, as named types, and the numeric codes the
spec gives them (30 R92, R99, R103, R105, R106; 60 R290). -/

namespace Sys2Proof.Machine

/-- The 14 modes RESTART can be asked for (10 R21, 30 R92). The register `modem` holds one of them or the
sentinel NONE, so its type is `Option Mode`: `none` is the spec's own value NONE. -/
inductive Mode where
  | flush | silenceTx | silenceRx | ced | cng | nocng
  | v21Tx | v17Tx | v27terTx | v29Tx
  | v21Rx | v17Rx | v27terRx | v29Rx
  deriving DecidableEq, Repr, Inhabited

/-- The mode code of 30 R92, as in the `sub` field of a RESTART word. -/
def Mode.code : Mode → BitVec 4
  | .flush => 0 | .silenceTx => 1 | .silenceRx => 2 | .ced => 3 | .cng => 4 | .nocng => 5
  | .v21Tx => 6 | .v17Tx => 7 | .v27terTx => 8 | .v29Tx => 9
  | .v21Rx => 10 | .v17Rx => 11 | .v27terRx => 12 | .v29Rx => 13

/-- The code of the register `modem` on DSP_CFG: a mode's code, or 15 for the sentinel NONE (30 R92). -/
def modemCode : Option Mode → BitVec 4
  | none => 15
  | some m => m.code

/-- The bit rates of 10 R22. -/
inductive BitRate where
  | r300 | r2400 | r4800 | r7200 | r9600 | r12000 | r14400
  deriving DecidableEq, Repr, Inhabited

/-- A rate in bits per second (10 R22). -/
def BitRate.bps : BitRate → Nat
  | .r300 => 300 | .r2400 => 2400 | .r4800 => 4800 | .r7200 => 7200
  | .r9600 => 9600 | .r12000 => 12000 | .r14400 => 14400

/-- The bit-rate code on DSP_CFG (30 R103). -/
def BitRate.code : BitRate → BitVec 3
  | .r300 => 0 | .r2400 => 1 | .r4800 => 2 | .r7200 => 3
  | .r9600 => 4 | .r12000 => 5 | .r14400 => 6

/-- The DTE inbound mode (10 R24). -/
inductive AtRxMode where
  | onhookCommand | offhookCommand | hdlc | stuffed | delivery
  deriving DecidableEq, Repr, Inhabited

/-- The receive handler tags (10 R34; the tags V27ter and V29 by 90 C8). -/
inductive RxHandler where
  | dummy | silence | fsk | v17 | v27ter | v29 | earlyV17 | earlyV27ter | earlyV29 | cng
  deriving DecidableEq, Repr, Inhabited

/-- The receive tag codes on DSP_CFG (30 R106). -/
def RxHandler.code : RxHandler → BitVec 4
  | .dummy => 0 | .silence => 1 | .fsk => 2 | .v17 => 3 | .v27ter => 4 | .v29 => 5
  | .earlyV17 => 6 | .earlyV27ter => 7 | .earlyV29 => 8 | .cng => 9

/-- The transmit handler tags (10 R34). -/
inductive TxHandler where
  | none | silence | toneCng | toneCed | fsk | v17 | v27ter | v29
  deriving DecidableEq, Repr, Inhabited

/-- The transmit tag codes on DSP_CFG (30 R106). -/
def TxHandler.code : TxHandler → BitVec 3
  | .none => 0 | .silence => 1 | .toneCng => 2 | .toneCed => 3
  | .fsk => 4 | .v17 => 5 | .v27ter => 6 | .v29 => 7

/-- The value of `silence_tx_remaining`: a number of samples still to produce, or IDLE, silence without end
(10 R37). -/
inductive SilenceLeft where
  | idle
  | samples (n : Nat)
  deriving DecidableEq, Repr, Inhabited

/-- The configuration record `cfg` presented on DSP_CFG (10 R44). Levels in dBm0 are integers; the cutoff
−39.09 dBm0 is held exactly, as a number of hundredths (log entry 19). -/
structure DspCfg where
  toneHz : Nat
  toneDbm0 : Int
  toneOnMs : Nat
  toneOffMs : Nat
  toneRepeat : Bool
  leadSilenceMs : Nat
  hdlcTxPreambleFlags : Nat
  hdlcRxCrcCheck : Bool
  hdlcRxFramingOkThreshold : Nat
  v21RxCutoffCentiDbm0 : Int
  fastBitRate : BitRate
  fastShortTrain : Bool
  deriving DecidableEq, Repr, Inhabited

/-- The AT response codes (30 R99). -/
inductive RespCode where
  | ok | connect | noCarrier | error | fcError | frh3
  deriving DecidableEq, Repr, Inhabited

/-- The number of a response code, the operand of `Resp(code)` and the first byte of a queue record (30 R99). -/
def RespCode.byte : RespCode → Byte
  | .ok => 0 | .connect => 1 | .noCarrier => 3 | .error => 4 | .fcError => 8 | .frh3 => 9

/-- The items of the trace DTE_TX (00 R4, R8). A response carries its code byte, so that a record whose
first byte is no code of 30 R99 can be answered with that byte (log entry 14). -/
inductive DteItem where
  | byte (b : Byte)
  | resp (code : Byte)
  deriving DecidableEq, Repr, Inhabited

/-- The items of the trace MODEM_CTRL (30 R105): `cts false` is `Cts(0)`, flow control off to the DTE. -/
inductive CtrlItem where
  | cts (on : Bool)
  | hangup
  deriving DecidableEq, Repr, Inhabited

/-- The codes of 30 R105. -/
def CtrlItem.code : CtrlItem → Nat
  | .cts false => 0
  | .cts true => 1
  | .hangup => 2

/-- The items of the trace FRAME_OUT: a frame for the HDLC transmitter, or the marker End (00 R8). -/
inductive FrameOutItem where
  | frame (bytes : List Byte)
  | theEnd
  deriving DecidableEq, Repr, Inhabited

/-- The error kinds of 60 R290. `midReceiveTimeout` completes the code table; nothing in this block raises it
(60 R293). -/
inductive ErrorKind where
  | dteTimeout | noCarrierOnAnswer | midReceiveTimeout | carrierError | bufferExhausted | unknownClass1Val
  deriving DecidableEq, Repr, Inhabited

/-- The code an error kind appends to LOG (60 R290). -/
def ErrorKind.code : ErrorKind → Nat
  | .dteTimeout => 1 | .noCarrierOnAnswer => 2 | .midReceiveTimeout => 3
  | .carrierError => 4 | .bufferExhausted => 5 | .unknownClass1Val => 6

/-- What the port RET carries after an operation (00 R4, R7, R9): a number, the record a QREAD returns,
REFUSED, or nothing, for an operation whose rule states no return value (log entry 10). -/
inductive Ret where
  | nothing
  | value (v : Int)
  | record (bytes : List Byte)
  | refused
  deriving DecidableEq, Repr, Inhabited

/-- What FRAME_IN carries: for HDLCRX `len` and the bytes `msg`, for QWRITE the bytes of the record (00 R4,
20 R69, R77). -/
structure FrameInput where
  len : Nat
  bytes : List Byte
  deriving DecidableEq, Repr, Inhabited

/-- One operation as the environment issues it: the command word on CMD with what FRAME_IN and DSP_IN carry
for the duration of that operation (00 R4, 20 R77; log entry 3). -/
structure Command where
  word : CmdWord
  frame : FrameInput
  dsp : List Nat
  deriving DecidableEq, Repr, Inhabited

/-- The four internal memories (20 R60). -/
inductive MemName where
  | txData | hdlcTxBuf | hdlcRxBuf | qData
  deriving DecidableEq, Repr, Inhabited

/-- The OPEN parameter PUT_BIT_ORDER (00 R5, 20 R63). -/
inductive PutBitOrder where
  | msbFirst | lsbFirst
  deriving DecidableEq, Repr, Inhabited

/-- The OPEN parameter CARRIER_DOWN_GUARD (00 R5, 43 R214). -/
inductive CarrierDownGuard where
  | noGuard | signalPresent
  deriving DecidableEq, Repr, Inhabited

end Sys2Proof.Machine
end

