-- ==== Sys2Proof/Config.lean ====
section
/-! DEFINITION. What an implementation fixes (the OPEN parameters of 00 R5) and the free values: what the
spec leaves unspecified, as constants without a body, about whose values nothing can be proved. -/

namespace Sys2Proof

open Sys2Proof.Machine

/-- The OPEN parameters of 00 R5. They are plain data carried by the state, which no operation writes, so
that a statement about every state is a statement about every choice of them (log entry 4). -/
structure Config.Params where
  txBufLen : Nat
  hdlcTxBufLen : Nat
  putBitOrder : PutBitOrder
  carrierDownGuard : CarrierDownGuard
  deriving DecidableEq, Repr

/-- The spec's constraints on the parameters: `TX_BUF_LEN > 2048` and `HDLC_TX_BUF_LEN ≥ 2` (00 R5, 92 D7,
D8, 93 U12, U13). -/
def Config.Params.ok (p : Config.Params) : Bool :=
  2048 < p.txBufLen && 2 ≤ p.hdlcTxBufLen

/-- The defaults of 00 R5. -/
def Config.defaults : Config.Params where
  txBufLen := 4096
  hdlcTxBufLen := 256
  putBitOrder := .msbFirst
  carrierDownGuard := .noGuard

/-- FREE VALUE. What a cell of a memory that nothing has written since INIT reads as, given the number of
free values drawn so far (10 R43, 93 U5; log entry 8). -/
opaque Config.unwrittenByte : Nat → MemName → Nat → Byte

/-- FREE VALUE. `hdlc_final` after a frame of fewer than two bytes (70 R335, 93 U6; log entry 7). -/
opaque Config.freeHdlcFinal : Nat → Bool

/-- FREE VALUE. The fields of `cfg` that the current mode does not use (10 R44, 93 U7; log entry 9). -/
opaque Config.freeCfg : Nat → DspCfg

/-- FREE VALUE. The answer of a DSP primitive to a pull for which DSP_IN carries none: a handler asked for
`k` samples (45 R278, 93 U8; log entry 6). -/
opaque Config.dspProduced : Nat → TxHandler → Nat → Nat

/-- FREE VALUE. The code `rec[0]` of a record without bytes, which no run stores (44 R251; log entry 14). -/
opaque Config.codeOfEmptyRecord : Nat → Byte

end Sys2Proof
end

