-- ==== Sys2Proof/Machine/State.lean ====
section
/-! DEFINITION. The architectural state of one session (10 R20 to R44), the ports (00 R4), the reasons a step
can stop, and the state after reset (10 R43). -/

namespace Sys2Proof.Machine

/-- One of the block's internal memories: the cells written since INIT, as (index, byte) pairs in strictly
rising order of index. An index without an entry holds no value the spec gives (10 R43; log entry 8). -/
abbrev Memory := List Host.Cell

/-- Why a step stops with a fault. The block itself has no traps (60, preamble). -/
inductive Fault where
  /-- Raised by GETBIT and by a DTE byte that submits a frame, when the cursor they read up to lies beyond the
  memory it indexes (20 R60, R68, R70). SAFE: no state that meets `StateInv` raises it; log entry 15. -/
  | outsideMemory (memory : MemName) (index : Nat)
  deriving DecidableEq, Repr

/-- Why a step answers with no meaning. -/
inductive Refusal where
  /-- Raised by an arm of `exec` whose operation has no meaning yet; no arm does so. SAFE: nothing can be
  proved of the operation. -/
  | notModelled (mnemonic : String)
  deriving DecidableEq, Repr

/-- The state of the block with its ports. Each field's docstring cites the rule that names it. -/
structure State where
  /-- A session exists: INIT has run and RELEASE has not (70 R330, 45 R271). -/
  session : Bool
  /-- T.38 mode; only false is in scope (10 R39, 40 R142). -/
  t38Mode : Bool
  /-- The modem-mode register; `none` is the sentinel NONE (10 R21). -/
  modem : Option Mode
  /-- `bit_rate` (10 R22). -/
  bitRate : BitRate
  /-- `short_train` (10 R23). -/
  shortTrain : Bool
  /-- `at_rx_mode`, the DTE inbound mode (10 R24). -/
  atRxMode : AtRxMode
  /-- `transmit` (10 R25). -/
  transmit : Bool
  /-- `dte_is_waiting` (10 R25). -/
  dteIsWaiting : Bool
  /-- `ok_is_pending` (10 R25). -/
  okIsPending : Bool
  /-- `rx_signal_present` (10 R25). -/
  rxSignalPresent : Bool
  /-- `rx_trained` (10 R25). -/
  rxTrained : Bool
  /-- `data_final` (10 R26). -/
  dataFinal : Bool
  /-- `rx_message_received` (10 R26). -/
  rxMessageReceived : Bool
  /-- `tx_data` (10 R27). -/
  txData : Memory
  /-- `tx_in_bytes` (10 R27). -/
  txInBytes : Nat
  /-- `tx_out_bytes` (10 R27). -/
  txOutBytes : Nat
  /-- `tx_holding`, the flow-control latch (10 R28). -/
  txHolding : Bool
  /-- `tx_current_byte` (10 R29). -/
  txCurrentByte : Byte
  /-- `tx_bit_no`, 0 to 8 (10 R29). -/
  txBitNo : Nat
  /-- `tx_data_started` (10 R29). -/
  txDataStarted : Bool
  /-- `rx_current_byte` (10 R30). -/
  rxCurrentByte : Byte
  /-- `rx_bit_no`, 0 to 7 (10 R30). -/
  rxBitNo : Nat
  /-- `dled`, the escape flag of the inbound codec (10 R31). -/
  dled : Bool
  /-- `hdlc_tx_buf` (10 R32). -/
  hdlcTxBuf : Memory
  /-- `hdlc_tx_len` (10 R32). -/
  hdlcTxLen : Nat
  /-- `hdlc_tx_ptr`, not used by any rule in scope (10 R32). -/
  hdlcTxPtr : Nat
  /-- `hdlc_final` (10 R32). -/
  hdlcFinal : Bool
  /-- `hdlc_rx_buf`, written by the T.38 ingress only (10 R33). -/
  hdlcRxBuf : Memory
  /-- `hdlc_rx_len`, written by the T.38 ingress only (10 R33). -/
  hdlcRxLen : Nat
  /-- `missing_data`, written by the T.38 ingress only (10 R33). -/
  missingData : Bool
  /-- `rx_handler` (10 R34); it carries the dual-rail listen state (10 R35). -/
  rxHandler : RxHandler
  /-- `tx_handler` (10 R34). -/
  txHandler : TxHandler
  /-- `next_tx_handler` (10 R34). -/
  nextTxHandler : TxHandler
  /-- `cfg`, the configuration record on DSP_CFG (10 R44). -/
  cfg : DspCfg
  /-- `samples`, since INIT (10 R36). -/
  samples : Nat
  /-- `call_samples`, since the last off-hook (10 R36). -/
  callSamples : Nat
  /-- `dte_data_timeout`, 0 when disarmed (10 R36). -/
  dteDataTimeout : Nat
  /-- `silence_heard` (10 R37). -/
  silenceHeard : Nat
  /-- `silence_awaited`, 0 when not waiting (10 R37). -/
  silenceAwaited : Nat
  /-- `silence_tx_remaining` (10 R37). -/
  silenceTxRemaining : SilenceLeft
  /-- `q_data`, the storage of the received-frame queue (10 R38, 20 R71). -/
  qData : Memory
  /-- `q_iptr` (10 R38, 20 R71). -/
  qIptr : Fin 4096
  /-- `q_optr` (10 R38, 20 R71). -/
  qOptr : Fin 4096
  /-- `use_tep` (10 R39, 45 R273). -/
  useTep : Bool
  /-- `transmit_on_idle` (10 R39, 45 R272). -/
  transmitOnIdle : Bool
  /-- `adaptive_receive`, an input on CFG_IN (10 R39). -/
  adaptiveReceive : Bool
  /-- `s7` in seconds, an input on CFG_IN (10 R39, 93 U16). -/
  s7 : Byte
  /-- The trace DTE_TX (00 R4, R8). -/
  dteTx : List DteItem
  /-- The trace AT_CMD (00 R4, R8). -/
  atCmd : List Byte
  /-- The trace MODEM_CTRL (00 R4, 30 R105). -/
  modemCtrl : List CtrlItem
  /-- The trace FRAME_OUT (00 R4, R8). -/
  frameOut : List FrameOutItem
  /-- The trace LOG (00 R4, 60 R290). -/
  log : List ErrorKind
  /-- The port RET: what the last operation returned (00 R4, R7, R9). -/
  ret : Ret
  /-- The commands the environment has put on CMD and the block has not taken yet, the next one first
  (00 R4; log entry 2). -/
  cmdIn : List Command
  /-- What FRAME_IN carries for the operation that runs (00 R4; log entry 3). -/
  frameIn : FrameInput
  /-- The answers left on DSP_IN for the operation that runs (00 R4, 45 R278; log entry 6). -/
  dspIn : List Nat
  /-- The OPEN parameters (00 R5; log entry 4). The model's own field; no operation writes it. -/
  params : Config.Params
  /-- How many free values have been drawn (log entry 5). The model's own field, not the spec's. -/
  draws : Nat
  deriving DecidableEq, Repr

/-- The state right after reset, that is after INIT (70 R330): the table of 10 R43. The values of `cfg`, the
CFG_IN inputs, the parameters, the pending inputs and `draws` are the model's (log entries 2 to 6, 9). -/
def State.reset : State where
  session := true
  t38Mode := false
  modem := none
  bitRate := .r300
  shortTrain := false
  atRxMode := .onhookCommand
  transmit := false
  dteIsWaiting := false
  okIsPending := false
  rxSignalPresent := false
  rxTrained := false
  dataFinal := false
  rxMessageReceived := false
  txData := []
  txInBytes := 0
  txOutBytes := 0
  txHolding := false
  txCurrentByte := 0xFF
  txBitNo := 0
  txDataStarted := false
  rxCurrentByte := 0
  rxBitNo := 0
  dled := false
  hdlcTxBuf := []
  hdlcTxLen := 0
  hdlcTxPtr := 0
  hdlcFinal := false
  hdlcRxBuf := []
  hdlcRxLen := 0
  missingData := false
  rxHandler := .dummy
  txHandler := .none
  nextTxHandler := .none
  cfg :=
    { toneHz := 0, toneDbm0 := 0, toneOnMs := 0, toneOffMs := 0, toneRepeat := false
      leadSilenceMs := 0, hdlcTxPreambleFlags := 0, hdlcRxCrcCheck := false
      hdlcRxFramingOkThreshold := 0, v21RxCutoffCentiDbm0 := 0
      fastBitRate := .r300, fastShortTrain := false }
  samples := 0
  callSamples := 0
  dteDataTimeout := 0
  silenceHeard := 0
  silenceAwaited := 0
  silenceTxRemaining := .idle
  qData := []
  qIptr := 0
  qOptr := 0
  useTep := false
  transmitOnIdle := false
  adaptiveReceive := false
  s7 := 60
  dteTx := []
  atCmd := []
  modemCtrl := []
  frameOut := []
  log := []
  ret := .value 0
  cmdIn := []
  frameIn := { len := 0, bytes := [] }
  dspIn := []
  params := Config.defaults
  draws := 0

end Sys2Proof.Machine
end

