-- ==== Sys2Proof/Machine/Operands.lean ====
section
/-! DEFINITION. The operand forms: the class-1 `val` (30 R94, R95), the signed value of the bit ports (R98),
what FRAME_IN carries (20 R69, 44 R247), the two-byte symbols of the DTE stream (R96), and the constants of
00 R5 and 70 R340. -/

namespace Sys2Proof.Machine

/-- The escape octet of the DTE stream (30 R96). -/
abbrev DLE : Byte := 0x10
/-- The second octet of DLE-ETX, end of data (30 R96). -/
abbrev ETX : Byte := 0x03
/-- The second octet of DLE-SUB, two literal DLEs (30 R96). -/
abbrev SUB : Byte := 0x1A

/-- TX_MARK, the distance of the high-water mark from the end of `tx_data` and the low-water mark (00 R5). -/
abbrev txMark : Nat := 1024
/-- The size of the ring `q_data` (00 R5, 20 R71). -/
abbrev queueLen : Nat := 4096
/-- DTE_DATA_TIMEOUT, 5 s in samples (00 R5, 60 R303). -/
abbrev dteDataTimeoutSamples : Nat := 40000
/-- SAMPLE_RATE (00 R5). -/
abbrev sampleRate : Nat := 8000
/-- 200 ms of silence: the FLUSH silence and the silence before the CED tone (70 R340). -/
abbrev leadSilenceSamples : Nat := 1600
/-- The number GETBIT returns for END_OF_DATA (30 R98). -/
abbrev endOfDataValue : Int := -7
/-- The largest payload length of a received frame (20 R69). -/
abbrev maxFrameLen : Nat := 254
/-- The largest queue record: a code, 254 payload bytes and two FCS bytes (30 R100). -/
abbrev maxRecordLen : Nat := 257

/-- `sext_8(arg)`: the value a PUTBIT or HDLCEV word carries (30 R98). -/
def sext8 (arg : Byte) : Int := arg.toInt

/-- A class-1 duration in samples: `val × 80` (30 R95). -/
def silenceSamples (v : Byte) : Nat := v.toNat * 80

/-- The fast modem families of the class-1 table (30 R94). -/
inductive Family where
  | v27ter | v29 | v17
  deriving DecidableEq, Repr

/-- The mode a family is sent with (30 R94). -/
def Family.txMode : Family → Mode
  | .v27ter => .v27terTx | .v29 => .v29Tx | .v17 => .v17Tx

/-- The mode a family is received with (30 R94). -/
def Family.rxMode : Family → Mode
  | .v27ter => .v27terRx | .v29 => .v29Rx | .v17 => .v17Rx

/-- The class-1 table: `val` to modem family, bit rate and short training; `none` is an unknown `val`
(30 R94, 41 R167). -/
def class1Table (val : Byte) : Option (Family × BitRate × Bool) :=
  match val.toNat with
  | 24 => some (.v27ter, .r2400, false)
  | 48 => some (.v27ter, .r4800, false)
  | 72 => some (.v29, .r7200, false)
  | 96 => some (.v29, .r9600, false)
  | 73 => some (.v17, .r7200, false)
  | 74 => some (.v17, .r7200, true)
  | 97 => some (.v17, .r9600, false)
  | 98 => some (.v17, .r9600, true)
  | 121 => some (.v17, .r12000, false)
  | 122 => some (.v17, .r12000, true)
  | 145 => some (.v17, .r14400, false)
  | 146 => some (.v17, .r14400, true)
  | _ => none

/-- The only `val` known for the `'H'` selector (30 R94). -/
abbrev hdlcVal : Byte := 3

/-- The bytes `msg[0 .. len+2)` of the frame on FRAME_IN, or `none` where `len` is above 254 or fewer bytes
are supplied (20 R69, 70 R336; bytes beyond `len + 2` are no part of the frame, log entry 3). -/
def frameMsg (f : FrameInput) : Option (List Byte) :=
  if f.len ≤ maxFrameLen ∧ f.len + 2 ≤ f.bytes.length then some (f.bytes.take (f.len + 2)) else none

/-- The record of a QWRITE word, 1 to 257 bytes, or `none` outside that range (44 R247; log entry 13). -/
def recordOperand (f : FrameInput) : Option (List Byte) :=
  if 1 ≤ f.bytes.length ∧ f.bytes.length ≤ maxRecordLen then some f.bytes else none

/-- The DLE-stuffed form of a byte sequence: each literal DLE becomes DLE-DLE (42 R188, 30 R97). -/
def stuff (bytes : List Byte) : List Byte :=
  bytes.flatMap fun x => if x = DLE then [DLE, x] else [x]

/-- `bitrev8(b)`: the byte whose bit `i` is bit `7−i` of `b` (00 R6, 20 R64). No operation applies it. -/
def bitrev8 (b : Byte) : Byte :=
  BitVec.ofBool (b.getLsbD 0) ++ BitVec.ofBool (b.getLsbD 1) ++ BitVec.ofBool (b.getLsbD 2) ++
    BitVec.ofBool (b.getLsbD 3) ++ BitVec.ofBool (b.getLsbD 4) ++ BitVec.ofBool (b.getLsbD 5) ++
    BitVec.ofBool (b.getLsbD 6) ++ BitVec.ofBool (b.getLsbD 7)

end Sys2Proof.Machine
end

