-- ==== Sys2Proof/Machine/Flags.lean ====
section
/-! DEFINITION. Every condition and flag the rules compute: the tests on octets (30 R101), the watermarks
(42 R186, 43 R211), the deadlines (45 R277, 60 R291, R292), the legal (mode, rate) pairs (40 R143), and the
classes of handler tags and modes (10 R34, R35, R44). -/

namespace Sys2Proof.Machine

/-- Operations other than INIT run: there is a session and T.38 mode is off (70 R330, 45 R271, 40 R142). -/
def State.live (s : State) : Bool := s.session && !s.t38Mode

/-- The poll/final bit of the second octet of a frame assembled from the DTE (30 R101, 42 R183). -/
def pollFinalBit (octet : Byte) : Bool := (octet &&& 0x10) != 0

/-- The test `msg[1] == 0x13` on a received frame (30 R101, 44 R241). -/
def lastOfBatch (msg : List Byte) : Bool := msg[1]? == some 0x13

/-- Flow control is to be asserted: `tx_in_bytes` is above the high-water mark and the latch is clear
(42 R186). -/
def State.highWater (s : State) : Bool :=
  !s.txHolding && s.params.txBufLen - txMark < s.txInBytes

/-- Flow control is to be released: `tx_out_bytes` is above the low-water mark and the latch is set
(43 R211). -/
def State.lowWater (s : State) : Bool := s.txHolding && txMark < s.txOutBytes

/-- The silence predicate of a waiting FRS (45 R277). -/
def State.silenceReached (s : State) : Bool :=
  s.silenceAwaited != 0 && s.silenceAwaited ≤ s.silenceHeard

/-- The DTE data deadline is armed and past (60 R291). -/
def State.dteTimeoutDue (s : State) : Bool :=
  s.dteDataTimeout != 0 && s.dteDataTimeout < s.callSamples

/-- The mode register is CNG or NOCNG (40 R140, 60 R292). -/
def State.inCng (s : State) : Bool := s.modem == some .cng || s.modem == some .nocng

/-- The S7 deadline is past in CNG or NOCNG (60 R292). -/
def State.noCarrierDue (s : State) : Bool := s.inCng && s.s7.toNat * sampleRate < s.callSamples

/-- The queue is empty (44 R250). -/
def State.queueEmpty (s : State) : Bool := s.qIptr == s.qOptr

/-- The Early tags: both demodulators run (10 R35, 40 R137). -/
def RxHandler.isEarly : RxHandler → Bool
  | .earlyV17 | .earlyV27ter | .earlyV29 => true
  | .dummy | .silence | .fsk | .v17 | .v27ter | .v29 | .cng => false

/-- The fast-only tag of an Early tag; every other tag is itself (40 R138). -/
def RxHandler.fastOnly : RxHandler → RxHandler
  | .earlyV17 => .v17
  | .earlyV27ter => .v27ter
  | .earlyV29 => .v29
  | h => h

/-- The receive modes of the fast modems (44 R244). -/
def Mode.isFastRx : Mode → Bool
  | .v17Rx | .v27terRx | .v29Rx => true
  | .flush | .silenceTx | .silenceRx | .ced | .cng | .nocng
  | .v21Tx | .v17Tx | .v27terTx | .v29Tx | .v21Rx => false

/-- The transmit modes of the fast modems (40 R129 to R131). -/
def Mode.isFastTx : Mode → Bool
  | .v17Tx | .v27terTx | .v29Tx => true
  | .flush | .silenceTx | .silenceRx | .ced | .cng | .nocng
  | .v21Tx | .v21Rx | .v17Rx | .v27terRx | .v29Rx => false

/-- The legal pairs of mode and rate, with `short_train` legal only for V.17; the six modes without a modem do
not read the rate (40 R143). -/
def legalPair (m : Mode) (rate : BitRate) (short : Bool) : Bool :=
  match m with
  | .v21Tx | .v21Rx => rate == .r300 && !short
  | .v27terTx | .v27terRx => (rate == .r2400 || rate == .r4800) && !short
  | .v29Tx | .v29Rx => (rate == .r7200 || rate == .r9600) && !short
  | .v17Tx | .v17Rx => rate == .r7200 || rate == .r9600 || rate == .r12000 || rate == .r14400
  | .flush | .silenceTx | .silenceRx | .ced | .cng | .nocng => true

/-- The mode uses the tone fields of `cfg` (40 R125, R126). -/
def Mode.usesTone (m : Mode) : Bool := m == .ced || m == .cng

/-- The mode uses the silence prepended before a tone (40 R125). -/
def Mode.usesLead (m : Mode) : Bool := m == .ced

/-- The mode uses the HDLC transmitter's field of `cfg` (40 R128). -/
def Mode.usesPreamble (m : Mode) : Bool := m == .v21Tx

/-- The mode uses the V.21 and HDLC receiver's fields of `cfg` (40 R126, R127, R132 to R135). -/
def Mode.usesReceiver (m : Mode) : Bool := m == .cng || m == .nocng || m == .v21Rx || m.isFastRx

/-- The mode uses the fast modem's fields of `cfg` (40 R129 to R131, R133 to R135). -/
def Mode.usesFast (m : Mode) : Bool := m.isFastTx || m.isFastRx

end Sys2Proof.Machine
end

