-- ==== Sys2Proof/Machine/Ops.lean ====
section
/-! DEFINITION. The operations shared by the meanings: the memories (20 R60 to R71), the output primitives
(00 R7, R8), refusal (00 R9), raising an error kind (60 R290), the writes of `at_rx_mode` and `modem` with what
goes with them (42 R190, 10 R44), the ring queue (44 R247 to R250), and taking the next command word. -/

namespace Sys2Proof.Machine

/-! ### The memories -/

/-- The byte a memory holds at an index, or `none` where nothing has written since INIT. -/
def Memory.byteAt : Memory → Nat → Option Byte
  | [], _ => none
  | (a, b) :: rest, i => if i = a then some b else Memory.byteAt rest i

/-- A byte store (20 R61), keeping the entries in rising order of index. -/
def Memory.put : Memory → Nat → Byte → Memory
  | [], i, v => [(i, v)]
  | (a, b) :: rest, i, v =>
    if i < a then (i, v) :: (a, b) :: rest
    else if i = a then (i, v) :: rest
    else (a, b) :: Memory.put rest i v

/-- The canonical form: indices strictly rising. An index without an entry has no value, so no entry can
equal what an unlisted index reads as. -/
def Memory.wf : Memory → Bool
  | [] => true
  | [_] => true
  | (a, _) :: (b, v) :: rest => a < b && Memory.wf ((b, v) :: rest)

/-- The contents of a memory by its name (20 R60). -/
def State.memory (s : State) : MemName → Memory
  | .txData => s.txData
  | .hdlcTxBuf => s.hdlcTxBuf
  | .hdlcRxBuf => s.hdlcRxBuf
  | .qData => s.qData

/-- The size of a memory (20 R60). -/
def State.memorySize (s : State) : MemName → Nat
  | .txData => s.params.txBufLen
  | .hdlcTxBuf => s.params.hdlcTxBufLen
  | .hdlcRxBuf => 256
  | .qData => queueLen

/-- A byte load (20 R61): the byte written there, or a free byte where nothing has been written since INIT
(93 U5; log entry 8). -/
def State.cell (s : State) (m : MemName) (i : Nat) : Byte :=
  ((s.memory m).byteAt i).getD (Config.unwrittenByte s.draws m i)

/-- The `n` bytes of a memory from index `i` up. -/
def State.cells (s : State) (m : MemName) (i : Nat) : Nat → List Byte
  | 0 => []
  | n + 1 => s.cell m i :: State.cells s m (i + 1) n

/-! ### The output primitives -/

/-- Appends items to DTE_TX, in order (00 R8). -/
def State.emit (s : State) (items : List DteItem) : State := { s with dteTx := s.dteTx ++ items }

/-- `emit_byte` of each byte in turn (00 R8). -/
def State.emitBytes (s : State) (bytes : List Byte) : State := s.emit (bytes.map .byte)

/-- `emit_resp(code)` (00 R8, 30 R99). -/
def State.emitResp (s : State) (code : RespCode) : State := s.emit [.resp code.byte]

/-- `emit_stuffed(seq)` (42 R188). -/
def State.emitStuffed (s : State) (bytes : List Byte) : State := s.emitBytes (stuff bytes)

/-- `emit_end_of_data()`: the bytes 0x10 0x03 (42 R188). -/
def State.emitEndOfData (s : State) : State := s.emitBytes [DLE, ETX]

/-- `ctrl(item)` (00 R8). -/
def State.ctrl (s : State) (item : CtrlItem) : State := { s with modemCtrl := s.modemCtrl ++ [item] }

/-- `fwd_at(b)` (00 R8). -/
def State.fwdAt (s : State) (b : Byte) : State := { s with atCmd := s.atCmd ++ [b] }

/-- `submit_frame(seq)` and `submit_end()` (00 R8). -/
def State.submit (s : State) (item : FrameOutItem) : State := { s with frameOut := s.frameOut ++ [item] }

/-- `return v` of the operation: what goes on RET (00 R7). -/
def State.returns (s : State) (r : Ret) : State := { s with ret := r }

/-- A refused operation: the state is unchanged, nothing is emitted, RET carries REFUSED (00 R9; log
entry 1). -/
def State.refuse (s : State) : State := { s with ret := .refused }

/-- `raise <Kind>`: the kind's code is appended to LOG and the operation goes on (00 R7, 60 R290). The
block's error outcomes are all taken through this one operation; there is no return from one (60 R301). -/
def State.raise (s : State) (k : ErrorKind) : State := { s with log := s.log ++ [k] }

/-- An operation other than INIT: refused without a session and in T.38 mode (70 R330, 45 R271, 40 R142). -/
def operation (s : State) (body : State → State) : Host.Outcome State Fault Refusal :=
  .next (if s.live then body s else s.refuse)

/-- The same for an operation whose body can meet a load outside a memory (log entry 15). -/
def operationFaulting (s : State) (body : State → Host.Outcome State Fault Refusal) :
    Host.Outcome State Fault Refusal :=
  if s.live then body s else .next s.refuse

/-! ### Writes with a consequence -/

/-- `at_rx_mode <- v`: a value other than HDLC also disarms `dte_data_timeout` (42 R190, 10 R24). -/
def State.setAtRxMode (s : State) (v : AtRxMode) : State :=
  { s with
    atRxMode := v
    dteDataTimeout := if v = .hdlc then s.dteDataTimeout else 0 }

/-- Arms `dte_data_timeout` at `call_samples + 40000` (42 R190). -/
def State.armDteTimeout (s : State) : State :=
  { s with dteDataTimeout := s.callSamples + dteDataTimeoutSamples }

/-- `cfg` under a mode: the fields the mode uses are kept, every other field is unspecified and takes the
value of a free record (10 R44, 93 U7; log entry 9). The sentinel NONE uses no field. -/
def cfgUnder (m : Option Mode) (kept free : DspCfg) : DspCfg :=
  let tone := (m.map Mode.usesTone).getD false
  let lead := (m.map Mode.usesLead).getD false
  let preamble := (m.map Mode.usesPreamble).getD false
  let receiver := (m.map Mode.usesReceiver).getD false
  let fast := (m.map Mode.usesFast).getD false
  { toneHz := if tone then kept.toneHz else free.toneHz
    toneDbm0 := if tone then kept.toneDbm0 else free.toneDbm0
    toneOnMs := if tone then kept.toneOnMs else free.toneOnMs
    toneOffMs := if tone then kept.toneOffMs else free.toneOffMs
    toneRepeat := if tone then kept.toneRepeat else free.toneRepeat
    leadSilenceMs := if lead then kept.leadSilenceMs else free.leadSilenceMs
    hdlcTxPreambleFlags := if preamble then kept.hdlcTxPreambleFlags else free.hdlcTxPreambleFlags
    hdlcRxCrcCheck := if receiver then kept.hdlcRxCrcCheck else free.hdlcRxCrcCheck
    hdlcRxFramingOkThreshold :=
      if receiver then kept.hdlcRxFramingOkThreshold else free.hdlcRxFramingOkThreshold
    v21RxCutoffCentiDbm0 := if receiver then kept.v21RxCutoffCentiDbm0 else free.v21RxCutoffCentiDbm0
    fastBitRate := if fast then kept.fastBitRate else free.fastBitRate
    fastShortTrain := if fast then kept.fastShortTrain else free.fastShortTrain }

/-- `modem <- m`, with the fields of `cfg` that `m` does not use becoming unspecified (10 R21, R44). -/
def State.setModem (s : State) (m : Option Mode) : State :=
  { s with modem := m, cfg := cfgUnder m s.cfg (Config.freeCfg s.draws), draws := s.draws + 1 }

/-! ### The received-frame queue -/

/-- A ring index: a number modulo 4096 (20 R71). -/
def ringIndex (n : Nat) : Fin 4096 := Fin.ofNat 4096 n

/-- The number of ring bytes in use (20 R71). -/
def State.queueUsed (s : State) : Nat := (s.qIptr.val + queueLen - s.qOptr.val) % queueLen

/-- The number of ring bytes free; one byte is never used (20 R71). -/
def State.queueFree (s : State) : Nat := queueLen - 1 - s.queueUsed

/-- A record as it lies in the ring: its length, low byte first, then its bytes (20 R65, R71). -/
def ringRecord (rec : List Byte) : List Byte :=
  BitVec.ofNat 8 rec.length :: BitVec.ofNat 8 (rec.length / 256) :: rec

/-- Stores bytes in the ring from index `p`, each at the index after the one before, modulo 4096 (20 R71). -/
def ringPut (q : Memory) (p : Nat) : List Byte → Memory
  | [] => q
  | x :: xs => ringPut (q.put (p % queueLen) x) (p + 1) xs

/-- Loads `n` bytes of the ring from index `p`, modulo 4096 (20 R71). -/
def State.ringGet (s : State) (p : Nat) : Nat → List Byte
  | 0 => []
  | n + 1 => s.cell .qData (p % queueLen) :: State.ringGet s (p + 1) n

/-- QWRITE, the primitive: the whole record is appended, or `none` and nothing changes (44 R247, 20 R75). -/
def State.queueWrite (s : State) (rec : List Byte) : Option State :=
  if rec.length + 2 ≤ s.queueFree then
    some { s with
      qData := ringPut s.qData s.qIptr.val (ringRecord rec)
      qIptr := ringIndex (s.qIptr.val + (rec.length + 2)) }
  else none

/-- QREAD, the primitive: the oldest record is removed whole, or `none` on an empty queue (44 R248). -/
def State.queueRead (s : State) : Option (List Byte × State) :=
  if s.queueEmpty then none
  else
    let p := s.qOptr.val
    let n := (s.cell .qData p).toNat + 256 * (s.cell .qData ((p + 1) % queueLen)).toNat
    some (s.ringGet (p + 2) n, { s with qOptr := ringIndex (p + 2 + n) })

/-- QFLUSH, the primitive: both indices become 0 (44 R249). -/
def State.queueFlush (s : State) : State := { s with qIptr := 0, qOptr := 0 }

/-- QWRITE of a record from inside the block: a record that does not fit is lost and BufferExhausted raised
(44 R243 to R245, 60 R295). -/
def State.enqueue (s : State) (rec : List Byte) : State :=
  match s.queueWrite rec with
  | some t => t
  | none => s.raise .bufferExhausted

/-! ### The transmit handlers' answers -/

/-- `dsp_produced(h, k)`, the answer of a tone generator or modulator on DSP_IN, any number 0 to `k`
(45 R278): the next answer the environment supplied, or a free value where it supplied none (log entry 6). -/
def State.dspProduced (s : State) (h : TxHandler) (k : Nat) : Nat × State :=
  match s.dspIn with
  | a :: rest => (min a k, { s with dspIn := rest })
  | [] => (min (Config.dspProduced s.draws h k) k, { s with draws := s.draws + 1 })

/-! ### The command port -/

/-- Takes a command from CMD: what it carries is on FRAME_IN and DSP_IN for the operation that follows, and
`rest` stays pending (00 R4, 20 R77; log entries 2 and 3). -/
def State.present (s : State) (c : Command) (rest : List Command) : State :=
  { s with cmdIn := rest, frameIn := c.frame, dspIn := c.dsp }

/-- Puts a command word on CMD before everything pending, with what FRAME_IN and DSP_IN carry already. -/
def State.issueWord (s : State) (w : CmdWord) : State :=
  { s with cmdIn := { word := w, frame := s.frameIn, dsp := s.dspIn } :: s.cmdIn }

/-- What the port DSP_CFG presents: the codes of the mode and the three tags, the bit-rate code of the fast
modem, and the record `cfg` (00 R4, 10 R44, 30 R92, R103, R106). -/
def State.dspCfgPort (s : State) :
    BitVec 4 × BitVec 4 × BitVec 3 × BitVec 3 × BitVec 3 × DspCfg :=
  (modemCode s.modem, s.rxHandler.code, s.txHandler.code, s.nextTxHandler.code, s.cfg.fastBitRate.code, s.cfg)

end Sys2Proof.Machine
end

