-- ==== Sys2Proof/Machine/BitPump.lean ====
section
/-! DEFINITION. The bit pump: GETBIT (43 R210, R211), PUTBIT (43 R212 to R217) and HDLCTXU (43 R218). -/

namespace Sys2Proof.Machine

/-- `check_low_water()` (43 R211). -/
def State.checkLowWater (s : State) : State :=
  if s.lowWater then { s with txHolding := false }.ctrl (.cts true) else s

/-- At a byte boundary with data in the buffer: the next byte of `tx_data` is taken (43 R210). -/
def State.loadTxByte (s : State) : State :=
  { { s with txCurrentByte := s.cell .txData s.txOutBytes, txOutBytes := s.txOutBytes + 1 }.checkLowWater with
    txDataStarted := true
    txBitNo := 8 }

/-- At a byte boundary with no data: a fill byte, 0xFF before the first real byte and 0x00 after it (43 R210). -/
def State.fillTxByte (s : State) : State :=
  { s with txCurrentByte := if s.txDataStarted then 0x00 else 0xFF, txBitNo := 8 }

/-- The next bit of the current byte, least significant first, goes to RET (43 R210, 20 R62). -/
def State.shiftOutBit (s : State) : State :=
  { s with txBitNo := s.txBitNo - 1, txCurrentByte := s.txCurrentByte >>> 1 }.returns
    (.value (if s.txCurrentByte.getLsbD 0 then 1 else 0))

/-- GETBIT (43 R210). -/
def execGetBit (s : State) : Host.Outcome State Fault Refusal :=
  operationFaulting s fun s =>
    if s.txBitNo = 0 then
      if s.txOutBytes ≠ s.txInBytes then
        if s.txOutBytes < s.params.txBufLen then .next s.loadTxByte.shiftOutBit
        else .fault (.outsideMemory .txData s.txOutBytes)
      else if s.dataFinal then .next ({ s with dataFinal := false }.returns (.value endOfDataValue))
      else .next s.fillTxByte.shiftOutBit
    else .next s.shiftOutBit

/-- The receive shifter after one more bit (43 R212, 20 R63). -/
def shiftInBit (order : PutBitOrder) (byte : Byte) (bit : Bool) : Byte :=
  match order with
  | .msbFirst => (byte <<< 1) ||| (if bit then 0x01 else 0x00)
  | .lsbFirst => (byte >>> 1) ||| (if bit then 0x80 else 0x00)

/-- The receive shifter cleared (43 R212 to R214). -/
def State.clearRxShifter (s : State) : State := { s with rxCurrentByte := 0, rxBitNo := 0 }

/-- PUT_BIT with a data bit: the eighth completes a byte, which goes to the DTE stuffed (43 R212). -/
def State.putDataBit (s : State) (bit : Bool) : State :=
  let s :=
    { s with
      rxCurrentByte := shiftInBit s.params.putBitOrder s.rxCurrentByte bit
      rxBitNo := s.rxBitNo + 1 }
  if s.rxBitNo = 8 then (s.emitStuffed [s.rxCurrentByte]).clearRxShifter else s

/-- PUTBIT 0 and PUTBIT 1 (43 R212). -/
def execPutBit (bit : Bool) (s : State) : Host.Outcome State Fault Refusal :=
  operation s fun s => (s.putDataBit bit).returns (.value 0)

/-- PUTBIT CARRIER_DOWN (43 R214, 42 R190). -/
def execPutBitCarrierDown (s : State) : Host.Outcome State Fault Refusal :=
  operation s fun s =>
    let t :=
      if s.params.carrierDownGuard = .noGuard ∨ s.rxSignalPresent = true then
        { (s.emitEndOfData.emitResp .noCarrier).setAtRxMode .offhookCommand with dteIsWaiting := false }
      else s
    { t with rxSignalPresent := false, rxTrained := false }.clearRxShifter.returns (.value 0)

/-- PUTBIT CARRIER_UP: note only (43 R216). -/
def execPutBitCarrierUp (s : State) : Host.Outcome State Fault Refusal :=
  operation s fun s => s.returns (.value 0)

/-- PUTBIT TRAINING_IN_PROGRESS: ignored (43 R217). -/
def execPutBitTrainingInProgress (s : State) : Host.Outcome State Fault Refusal :=
  operation s fun s => s.returns (.value 0)

/-- PUTBIT TRAINING_SUCCEEDED: CONNECT, and an Early tag becomes its fast-only tag (43 R213, 40 R138). -/
def execPutBitTrainingSucceeded (s : State) : Host.Outcome State Fault Refusal :=
  operation s fun s =>
    { s.emitResp .connect with
      rxTrained := true
      rxSignalPresent := true
      rxHandler := s.rxHandler.fastOnly }.clearRxShifter.returns (.value 0)

/-- PUTBIT TRAINING_FAILED: note only (43 R215). -/
def execPutBitTrainingFailed (s : State) : Host.Outcome State Fault Refusal :=
  operation s fun s => s.returns (.value 0)

/-- PUTBIT with any other value: ignored (43 R217). -/
def execPutBitOther (_v : Byte) (s : State) : Host.Outcome State Fault Refusal :=
  operation s fun s => s.returns (.value 0)

/-- HDLCTXU, the HDLC transmitter's underflow (43 R218, 42 R190). -/
def execHdlcTxu (s : State) : Host.Outcome State Fault Refusal :=
  operation s fun s =>
    if s.modem = some .v21Tx then
      if s.hdlcFinal then ({ s with hdlcFinal := false }.submit .theEnd).returns (.value 0)
      else (s.emitResp .connect).armDteTimeout.returns (.value 0)
    else s.returns (.value 0)

end Sys2Proof.Machine
end

