-- ==== Sys2Proof/Machine/Queue.lean ====
section
/-! DEFINITION. The queue operations (44 R247 to R249) and `drain_queue`, the consumer of the queue (44 R251). -/

namespace Sys2Proof.Machine

/-- `finish_rx()`: the receive command is over (44 R245). -/
def State.finishRx (s : State) : State :=
  { s with dteIsWaiting := false, rxMessageReceived := false }.setAtRxMode .offhookCommand

/-- A receive command finds a frame record: the CONNECT if none was given, the stuffed frame, DLE-ETX, the
record's code, and the command is over (44 R251). -/
def State.deliverRecord (s : State) (connected : Bool) (code : Byte) (frame : List Byte) : State :=
  let s := if connected then s else s.emitResp .connect
  ((s.emitStuffed frame).emitEndOfData.emit [.resp code]).finishRx

/-- `drain_queue()` with a bound on the number of records read (44 R251). A record that is read and does not
end the command is the bare CONNECT, three ring bytes; the ring has 4096, so 4096 records bound every
queue, and the case of no fuel left is not reached (log entry 14). -/
def State.drainQueue : Nat → Bool → State → State
  | 0, _, s => s
  | fuel + 1, connected, s =>
    match s.queueRead with
    | none => { s with dteIsWaiting := true }
    | some (rec, t) =>
      let code := rec.headD (Config.codeOfEmptyRecord s.draws)
      if rec.length = 1 then
        if code = RespCode.connect.byte then
          let t := if connected then t else t.emitResp .connect
          State.drainQueue fuel true { t with rxMessageReceived := true }
        else (t.emit [.resp code]).finishRx
      else t.deliverRecord connected code (rec.drop 1)

/-- QWRITE (44 R247): the record on FRAME_IN is appended and its length returned, or −1 and nothing changes
where it does not fit; a record of no or of more than 257 bytes is refused (log entry 13). -/
def execQWrite (s : State) : Host.Outcome State Fault Refusal :=
  operation s fun s =>
    match recordOperand s.frameIn with
    | none => s.refuse
    | some rec =>
      match s.queueWrite rec with
      | some t => t.returns (.value rec.length)
      | none => s.returns (.value (-1))

/-- QREAD (44 R248): the oldest record is removed and returned, or −1 on an empty queue. -/
def execQRead (s : State) : Host.Outcome State Fault Refusal :=
  operation s fun s =>
    match s.queueRead with
    | some (rec, t) => t.returns (.record rec)
    | none => s.returns (.value (-1))

/-- QFLUSH (44 R249). Its rule states no return value (log entry 10). -/
def execQFlush (s : State) : Host.Outcome State Fault Refusal :=
  operation s fun s => s.queueFlush.returns .nothing

end Sys2Proof.Machine
end

