-- ==== Sys2Proof/Machine/Restart.lean ====
section
/-! DEFINITION. The modem-mode FSM: RESTART and its 14 wirings (40 R120 to R136, R143), and the two
transitions that change mode or handlers without a RESTART and are shared (40 R138, R140). -/

namespace Sys2Proof.Machine

/-- The prologue of a RESTART that is not idempotent (40 R121). -/
def State.prologue (s : State) : State :=
  { s.queueFlush with
    rxSignalPresent := false
    rxTrained := false
    dataFinal := false
    rxMessageReceived := false
    rxHandler := .dummy
    rxCurrentByte := 0
    rxBitNo := 0 }

/-- The fields of the V.21 and HDLC receiver: CRC check, 5 flags, −39.09 dBm0 (40 R132). -/
def cfgReceiver (c : DspCfg) : DspCfg :=
  { c with hdlcRxCrcCheck := true, hdlcRxFramingOkThreshold := 5, v21RxCutoffCentiDbm0 := -3909 }

/-- The fields of a fast modem at the loaded rate and training (40 R129, R133). -/
def cfgFast (rate : BitRate) (short : Bool) (c : DspCfg) : DspCfg :=
  { c with fastBitRate := rate, fastShortTrain := short }

/-- The fields of `cfg` a mode's wiring writes (40 R122 to R135). -/
def cfgWire (m : Mode) (rate : BitRate) (short : Bool) (c : DspCfg) : DspCfg :=
  match m with
  | .flush | .silenceTx | .silenceRx => c
  | .ced =>
    { c with
      leadSilenceMs := 200, toneHz := 2100, toneDbm0 := -11
      toneOnMs := 2600, toneOffMs := 0, toneRepeat := false }
  | .cng =>
    { cfgReceiver c with
      toneHz := 1100, toneDbm0 := -11, toneOnMs := 500, toneOffMs := 3000, toneRepeat := true }
  | .nocng | .v21Rx => cfgReceiver c
  | .v21Tx => { c with hdlcTxPreambleFlags := 32 }
  | .v17Tx | .v27terTx | .v29Tx => cfgFast rate short c
  | .v17Rx | .v27terRx | .v29Rx => cfgFast rate short (cfgReceiver c)

/-- The three handler tags, the length of silence and `transmit` that a wiring sets. -/
def State.wireHandlers (s : State) (tx next : TxHandler) (rx : RxHandler) (transmit : Bool) : State :=
  { s with txHandler := tx, nextTxHandler := next, rxHandler := rx, transmit := transmit }

/-- The transmit buffer state at the start of a fast transmission (40 R129). -/
def State.resetTransmitBuffer (s : State) : State :=
  { s with
    txInBytes := 0
    txOutBytes := 0
    txDataStarted := false
    txHolding := false
    txCurrentByte := 0xFF
    txBitNo := 0 }

/-- The wiring of a mode: handler tags, silence, `transmit` and the mode's own buffer state (40 R122 to R135);
the fields of `cfg` are `cfgWire`. -/
def State.wireMode (s : State) (m : Mode) : State :=
  match m with
  | .flush =>
    { s.wireHandlers .silence .none .dummy true with silenceTxRemaining := .samples leadSilenceSamples }
  | .silenceTx => { s.wireHandlers .silence .none .dummy false with silenceTxRemaining := .idle }
  | .silenceRx => { s.wireHandlers .silence .none .silence false with silenceTxRemaining := .idle }
  | .ced =>
    { s.wireHandlers .silence .toneCed .dummy true with silenceTxRemaining := .samples leadSilenceSamples }
  | .cng => s.wireHandlers .toneCng .none .cng true
  | .nocng => { s.wireHandlers .silence .none .cng true with silenceTxRemaining := .idle }
  | .v21Tx => { s.wireHandlers .fsk .none .dummy true with hdlcTxLen := 0, hdlcFinal := false }
  | .v17Tx => (s.wireHandlers .v17 .none .dummy true).resetTransmitBuffer
  | .v27terTx => (s.wireHandlers .v27ter .none .dummy true).resetTransmitBuffer
  | .v29Tx => (s.wireHandlers .v29 .none .dummy true).resetTransmitBuffer
  | .v21Rx => { s.wireHandlers .silence .none .fsk false with silenceTxRemaining := .idle }
  | .v17Rx => { s.wireHandlers .silence .none .earlyV17 false with silenceTxRemaining := .idle }
  | .v27terRx => { s.wireHandlers .silence .none .earlyV27ter false with silenceTxRemaining := .idle }
  | .v29Rx => { s.wireHandlers .silence .none .earlyV29 false with silenceTxRemaining := .idle }

/-- `wire(m)`: the handlers and the record `cfg` (40 R122 to R135). -/
def State.wire (s : State) (m : Mode) : State :=
  { s.wireMode m with cfg := cfgWire m s.bitRate s.shortTrain s.cfg }

/-- `call RESTART(m)`, the sub-step: nothing at all when the mode is already `m`, else the prologue, the mode
and the wiring (40 R120). -/
def State.restart (s : State) (m : Mode) : State :=
  if s.modem = some m then s else (s.prologue.setModem (some m)).wire m

/-- RESTART issued on CMD: refused when the pair of mode and loaded rate is illegal (40 R143), else the
sub-step, and 0 on RET (40 R120; log entry 12). -/
def restartOperation (m : Mode) (s : State) : Host.Outcome State Fault Refusal :=
  operation s fun s =>
    if legalPair m s.bitRate s.shortTrain then (s.restart m).returns (.value 0) else s.refuse

/-- The CNG drop: the mode becomes V21_RX with its handlers, without the prologue and without emitting
anything (40 R140). -/
def State.cngDrop (s : State) : State :=
  { (s.setModem (some .v21Rx)).wireHandlers .silence .none .fsk false with silenceTxRemaining := .idle }

/-- RESTART.FLUSH (40 R122). -/
def execRestartFlush (s : State) : Host.Outcome State Fault Refusal := restartOperation .flush s
/-- RESTART.SILENCE_TX (40 R123). -/
def execRestartSilenceTx (s : State) : Host.Outcome State Fault Refusal := restartOperation .silenceTx s
/-- RESTART.SILENCE_RX (40 R124). -/
def execRestartSilenceRx (s : State) : Host.Outcome State Fault Refusal := restartOperation .silenceRx s
/-- RESTART.CED (40 R125). -/
def execRestartCed (s : State) : Host.Outcome State Fault Refusal := restartOperation .ced s
/-- RESTART.CNG (40 R126). -/
def execRestartCng (s : State) : Host.Outcome State Fault Refusal := restartOperation .cng s
/-- RESTART.NOCNG (40 R127). -/
def execRestartNocng (s : State) : Host.Outcome State Fault Refusal := restartOperation .nocng s
/-- RESTART.V21_TX (40 R128). -/
def execRestartV21Tx (s : State) : Host.Outcome State Fault Refusal := restartOperation .v21Tx s
/-- RESTART.V17_TX (40 R129). -/
def execRestartV17Tx (s : State) : Host.Outcome State Fault Refusal := restartOperation .v17Tx s
/-- RESTART.V27TER_TX (40 R130). -/
def execRestartV27terTx (s : State) : Host.Outcome State Fault Refusal := restartOperation .v27terTx s
/-- RESTART.V29_TX (40 R131). -/
def execRestartV29Tx (s : State) : Host.Outcome State Fault Refusal := restartOperation .v29Tx s
/-- RESTART.V21_RX (40 R132). -/
def execRestartV21Rx (s : State) : Host.Outcome State Fault Refusal := restartOperation .v21Rx s
/-- RESTART.V17_RX (40 R133). -/
def execRestartV17Rx (s : State) : Host.Outcome State Fault Refusal := restartOperation .v17Rx s
/-- RESTART.V27TER_RX (40 R134). -/
def execRestartV27terRx (s : State) : Host.Outcome State Fault Refusal := restartOperation .v27terRx s
/-- RESTART.V29_RX (40 R135). -/
def execRestartV29Rx (s : State) : Host.Outcome State Fault Refusal := restartOperation .v29Rx s

end Sys2Proof.Machine
end

