-- ==== Sys2Proof/Machine/Class1.lean ====
section
/-! DEFINITION. The class-1 dispatch (41 R160 to R167). -/

namespace Sys2Proof.Machine

/-- `unknown_val()`: the kind is logged, RET carries −1, and no state changes (41 R167, 60 R296). -/
def State.unknownVal (s : State) : State := (s.raise .unknownClass1Val).returns (.value (-1))

/-- `bit_rate <- r ; short_train <- b` (41 R160). -/
def State.loadRate (s : State) (rate : BitRate) (short : Bool) : State :=
  { s with bitRate := rate, shortTrain := short }

/-- FRS (41 R162): wait for `val × 10 ms` of silence; `val = 0` is answered at once. -/
def execFrs (v : Byte) (s : State) : Host.Outcome State Fault Refusal :=
  operation s fun s =>
    let t := s.restart .silenceRx
    if v = 0 then (t.emitResp .ok).returns (.value 0)
    else ({ t with silenceAwaited := silenceSamples v }.setAtRxMode .delivery).returns (.value 0)

/-- FTS (41 R161): transmit `val × 10 ms` of silence. -/
def execFts (v : Byte) (s : State) : Host.Outcome State Fault Refusal :=
  operation s fun s =>
    { s.restart .silenceTx with
      silenceTxRemaining := .samples (silenceSamples v)
      transmit := true }.returns (.value 0)

/-- FRH (41 R164): receive HDLC over V.21; the queue is drained or the command waits. -/
def execFrh (v : Byte) (s : State) : Host.Outcome State Fault Refusal :=
  operation s fun s =>
    if v = hdlcVal then
      let t := (s.loadRate .r300 false).restart .v21Rx
      (({ t with transmit := false }.setAtRxMode .delivery).drainQueue queueLen false).returns (.value 0)
    else s.unknownVal

/-- FTH (41 R163): transmit HDLC over V.21. -/
def execFth (v : Byte) (s : State) : Host.Outcome State Fault Refusal :=
  operation s fun s =>
    if v = hdlcVal then
      let t := (s.loadRate .r300 false).restart .v21Tx
      let t := ({ t with transmit := true }.emitResp .connect).setAtRxMode .hdlc
      ({ t with hdlcTxLen := 0 }.armDteTimeout).returns (.value 0)
    else s.unknownVal

/-- FRM (41 R166): receive image data over a fast modem. -/
def execFrm (v : Byte) (s : State) : Host.Outcome State Fault Refusal :=
  operation s fun s =>
    match class1Table v with
    | some (family, rate, short) =>
      let t := (s.loadRate rate short).restart family.rxMode
      { { t with transmit := false }.setAtRxMode .delivery with dteIsWaiting := true }.returns (.value 0)
    | none => s.unknownVal

/-- FTM (41 R165): transmit image data over a fast modem. -/
def execFtm (v : Byte) (s : State) : Host.Outcome State Fault Refusal :=
  operation s fun s =>
    match class1Table v with
    | some (family, rate, short) =>
      let t := (s.loadRate rate short).restart family.txMode
      (({ t with transmit := true }.emitResp .connect).setAtRxMode .stuffed).returns (.value 0)
    | none => s.unknownVal

end Sys2Proof.Machine
end

