-- ==== Sys2Proof/Machine/Dte.lean ====
section
/-! DEFINITION. The inbound DLE codec: one byte from the DTE, by `at_rx_mode` (42 R180 to R191). -/

namespace Sys2Proof.Machine

/-- `append(x)` of HDLC mode: the byte is stored, or dropped and BufferExhausted raised (42 R182, R191). -/
def State.hdlcAppend (s : State) (x : Byte) : State :=
  if s.hdlcTxLen < s.params.hdlcTxBufLen then
    { s with hdlcTxBuf := s.hdlcTxBuf.put s.hdlcTxLen x, hdlcTxLen := s.hdlcTxLen + 1 }
  else s.raise .bufferExhausted

/-- The new `hdlc_final` of a submitted frame: the poll/final bit of its second octet, or a free value for a
frame of fewer than two bytes (42 R183, 70 R335; log entry 7). -/
def State.submittedFinal (s : State) : Bool :=
  if s.hdlcTxLen < 2 then Config.freeHdlcFinal s.draws else pollFinalBit (s.cell .hdlcTxBuf 1)

/-- `submit_hdlc()` (42 R183). -/
def State.submitHdlc (s : State) : State :=
  { s.submit (.frame (s.cells .hdlcTxBuf 0 s.hdlcTxLen)) with
    hdlcFinal := s.submittedFinal
    hdlcTxLen := 0
    dteDataTimeout := 0
    draws := if s.hdlcTxLen < 2 then s.draws + 1 else s.draws }

/-- A DTE byte in HDLC mode, `dle_unstuff_hdlc` (42 R182, R190). -/
def State.hdlcByte (s : State) (b : Byte) : Host.Outcome State Fault Refusal :=
  let s := s.armDteTimeout
  if s.dled then
    let s := { s with dled := false }
    if b = ETX then
      if s.hdlcTxLen ≤ s.params.hdlcTxBufLen then .next s.submitHdlc
      else .fault (.outsideMemory .hdlcTxBuf s.params.hdlcTxBufLen)
    else if b = SUB then .next ((s.hdlcAppend DLE).hdlcAppend DLE)
    else .next (s.hdlcAppend b)
  else if b = DLE then .next { s with dled := true }
  else .next (s.hdlcAppend b)

/-- `store(x)` of STUFFED mode: the byte is stored, or dropped and BufferExhausted raised (42 R184, R191). -/
def State.stuffedStore (s : State) (x : Byte) : State :=
  if s.txInBytes < s.params.txBufLen then
    { s with txData := s.txData.put s.txInBytes x, txInBytes := s.txInBytes + 1 }
  else s.raise .bufferExhausted

/-- `end_of_data()` (42 R185). -/
def State.endOfData (s : State) : State := { s with dataFinal := true }.setAtRxMode .offhookCommand

/-- `check_high_water()` (42 R186). -/
def State.checkHighWater (s : State) : State :=
  if s.highWater then { s with txHolding := true }.ctrl (.cts false) else s

/-- A DTE byte in STUFFED mode, `dle_unstuff` (42 R184). -/
def State.stuffedByte (s : State) (b : Byte) : State :=
  (if s.dled then
    let s := { s with dled := false }
    if b = ETX then s.endOfData
    else if b = SUB then (s.stuffedStore DLE).stuffedStore DLE
    else s.stuffedStore b
  else if b = DLE then { s with dled := true }
  else s.stuffedStore b).checkHighWater

/-- A DTE byte in DELIVERY mode: the delivery is aborted and the byte discarded (42 R187). -/
def State.abortDelivery (s : State) : State :=
  let t := if s.rxSignalPresent then s.emitEndOfData else s
  let t := { t.restart .silenceTx with dteIsWaiting := false, okIsPending := false, silenceAwaited := 0 }
  (t.setAtRxMode .offhookCommand).emitResp .ok

/-- A DTE byte, by the inbound mode as it is when the byte is taken (42 R180). -/
def State.dteByte (s : State) (b : Byte) : Host.Outcome State Fault Refusal :=
  match s.atRxMode with
  | .onhookCommand | .offhookCommand => .next (s.fwdAt b)
  | .hdlc => s.hdlcByte b
  | .stuffed => .next (s.stuffedByte b)
  | .delivery => .next s.abortDelivery

/-- The return value of an operation that may have faulted. -/
def returning (r : Ret) : Host.Outcome State Fault Refusal → Host.Outcome State Fault Refusal
  | .next t => .next (t.returns r)
  | .fault f => .fault f
  | .refused r => .refused r

/-- DTE (42 R180). -/
def execDte (b : Byte) (s : State) : Host.Outcome State Fault Refusal :=
  operationFaulting s fun s => returning (.value 0) (s.dteByte b)

end Sys2Proof.Machine
end

