-- ==== Sys2Proof/Machine/Hdlc.lean ====
section
/-! DEFINITION. HDLC frame delivery and the receiver's status events (44 R240 to R246). -/

namespace Sys2Proof.Machine

/-- `deliver_direct(msg, len, ok)`: the stuffed frame with its FCS, DLE-ETX, and OK or ERROR unless the frame
is the last of a batch with a good FCS, whose OK is deferred (44 R241, R242). -/
def State.deliverDirect (s : State) (msg : List Byte) (ok : Bool) : State :=
  let t := (s.emitStuffed msg).emitEndOfData
  if ok && lastOfBatch msg then { t with okIsPending := true }
  else
    { t.emitResp (if ok then .ok else .error) with
      dteIsWaiting := false
      rxMessageReceived := false }.setAtRxMode .offhookCommand

/-- `deliver_queued(msg, len, ok)`: the frame and its FCS as a record prefixed by its code (44 R243). -/
def State.deliverQueued (s : State) (msg : List Byte) (ok : Bool) : State :=
  s.enqueue ((if ok then RespCode.ok.byte else RespCode.error.byte) :: msg)

/-- `hdlc_accept(msg, len, ok)` (44 R240). -/
def State.acceptFrame (s : State) (msg : List Byte) (ok : Bool) : State :=
  if s.okIsPending then s
  else if s.dteIsWaiting then
    let t := if s.rxMessageReceived then s else { s.emitResp .connect with rxMessageReceived := true }
    t.deliverDirect msg ok
  else s.deliverQueued msg ok

/-- HDLCRX (44 R240): refused where FRAME_IN is too short or too long (70 R336). -/
def execHdlcRx (ok : Bool) (s : State) : Host.Outcome State Fault Refusal :=
  operation s fun s =>
    match frameMsg s.frameIn with
    | some msg => (s.acceptFrame msg ok).returns (.value 0)
    | none => s.refuse

/-- The carrier error: a V.21 preamble during a fast receive that has not trained (40 R139, 44 R244,
60 R294). -/
def State.carrierError (s : State) : State :=
  let t := { s with rxHandler := .fsk }.raise .carrierError
  if t.adaptiveReceive then
    let t :=
      { t.setModem (some .v21Rx) with
        rxSignalPresent := true
        rxMessageReceived := true
        transmit := false
        dteIsWaiting := true }
    ((t.setAtRxMode .delivery).emitResp .frh3).emitResp .connect
  else
    let t := { t.setModem (some .silenceTx) with rxMessageReceived := false, dteIsWaiting := false }
    (t.setAtRxMode .offhookCommand).emitResp .fcError

/-- A preamble in V21_RX: CONNECT to a waiting command or into the queue, once a receive (44 R244). -/
def State.v21Preamble (s : State) : State :=
  let t := { s with rxSignalPresent := true }
  if t.rxMessageReceived then t
  else
    let t := { t with rxMessageReceived := true }
    if t.dteIsWaiting then t.emitResp .connect else t.enqueue [RespCode.connect.byte]

/-- FRAMING_OK: the CNG drop, then the carrier error, then the V21_RX case (44 R244, 60 R299). -/
def State.framingOk (s : State) : State :=
  let s := if s.inCng then s.cngDrop else s
  if (s.modem.map Mode.isFastRx).getD false && s.rxHandler.isEarly then s.carrierError
  else if s.modem = some .v21Rx then s.v21Preamble
  else s

/-- HDLCEV FRAMING_OK (44 R244). -/
def execHdlcEvFramingOk (s : State) : Host.Outcome State Fault Refusal :=
  operation s fun s => s.framingOk.returns (.value 0)

/-- A V.21 carrier that has gone: the deferred OK, or NO_CARRIER to a waiting command or into the queue when a
CONNECT is outstanding (44 R245). -/
def State.v21CarrierDown (s : State) : State :=
  let t :=
    if s.okIsPending then { s.emitResp .ok with okIsPending := false }.finishRx
    else if s.rxMessageReceived then
      { (if s.dteIsWaiting then (s.emitResp .noCarrier).finishRx
          else s.enqueue [RespCode.noCarrier.byte]) with rxMessageReceived := false }
    else s
  { t with rxSignalPresent := false, rxTrained := false }

/-- HDLCEV CARRIER_DOWN, in V21_RX, CNG and NOCNG (44 R245). -/
def execHdlcEvCarrierDown (s : State) : Host.Outcome State Fault Refusal :=
  operation s fun s =>
    (if s.modem = some .v21Rx ∨ s.inCng = true then s.v21CarrierDown else s).returns (.value 0)

/-- HDLCEV CARRIER_UP: ignored (44 R246). -/
def execHdlcEvCarrierUp (s : State) : Host.Outcome State Fault Refusal :=
  operation s fun s => s.returns (.value 0)

/-- HDLCEV with any other value: ignored (44 R246). -/
def execHdlcEvOther (_v : Byte) (s : State) : Host.Outcome State Fault Refusal :=
  operation s fun s => s.returns (.value 0)

end Sys2Proof.Machine
end

