-- ==== Sys2Proof/Machine/Line.lean ====
section
/-! DEFINITION. The line side: RXS with its three checks (45 R276, R277; 60 R291, R292) and TXS with the
transmit completion (45 R278, R279). -/

namespace Sys2Proof.Machine

/-- `samples` and `call_samples` advance and the silence count follows the sample's verdict (45 R276). -/
def State.countSample (s : State) (quiet : Bool) : State :=
  { s with
    samples := s.samples + 1
    callSamples := s.callSamples + 1
    silenceHeard := if quiet then s.silenceHeard + 1 else 0 }

/-- `check_silence()` (45 R277). -/
def State.checkSilence (s : State) : State :=
  if s.silenceReached then
    { (s.emitResp .ok).setAtRxMode .offhookCommand with silenceAwaited := 0, silenceHeard := 0 }
  else s

/-- `check_dte_timeout()` (60 R291). -/
def State.checkDteTimeout (s : State) : State :=
  if s.dteTimeoutDue then
    let t := { s.raise .dteTimeout with dteDataTimeout := 0 }
    ((t.setAtRxMode .offhookCommand).emitResp .error).restart .silenceTx
  else s

/-- `check_no_carrier()` (60 R292). -/
def State.checkNoCarrier (s : State) : State :=
  if s.noCarrierDue then
    let t := (((s.raise .noCarrierOnAnswer).emitResp .noCarrier).restart .silenceTx).ctrl .hangup
    { t.setAtRxMode .onhookCommand with dteIsWaiting := false }
  else s

/-- RXS (45 R276): one received sample, then the three checks in this order (60 R299). -/
def execRxs (quiet : Bool) (s : State) : Host.Outcome State Fault Refusal :=
  operation s fun s =>
    (s.countSample quiet).checkSilence.checkDteTimeout.checkNoCarrier.returns (.value 0)

/-- `produce(h, k)`: how many samples the handler yields (45 R278). -/
def State.produce (s : State) (h : TxHandler) (k : Nat) : Nat × State :=
  match h with
  | .silence =>
    match s.silenceTxRemaining with
    | .idle => (k, s)
    | .samples left => (min k left, { s with silenceTxRemaining := .samples (left - min k left) })
  | .none => (0, s)
  | .toneCng | .toneCed | .fsk | .v17 | .v27ter | .v29 => s.dspProduced h k

/-- `tx_complete()`: the last transmit handler of the mode has nothing more to send (45 R279). -/
def State.txComplete (s : State) : State :=
  match s.modem with
  | some .silenceTx => ((s.setModem none).emitResp .ok).setAtRxMode .offhookCommand
  | some .ced =>
    let t := ((s.setModem none).restart .v21Tx).setAtRxMode .hdlc
    { t with hdlcTxLen := 0 }.armDteTimeout
  | some .v21Tx | some .v17Tx | some .v27terTx | some .v29Tx =>
    (((s.setModem none).emitResp .ok).setAtRxMode .offhookCommand).restart .silenceTx
  | some .flush | some .silenceRx | some .cng | some .nocng
  | some .v21Rx | some .v17Rx | some .v27terRx | some .v29Rx | none => s

/-- The samples of a TXS before padding: the active handler, then its successor, then the completion where
both are exhausted (45 R278). -/
def State.pullSamples (s : State) (n : Nat) : Nat × State :=
  let (len, t) := s.produce s.txHandler n
  let (len, t) :=
    if len < n ∧ t.nextTxHandler ≠ .none then
      let h := t.nextTxHandler
      let (more, u) := { t with txHandler := h, nextTxHandler := .none }.produce h (n - len)
      (len + more, u)
    else (len, t)
  (len, if len < n then t.txComplete else t)

/-- TXS (45 R278): nothing is pulled while `transmit` is false; `transmit_on_idle` pads the returned length. -/
def execTxs (n : Byte) (s : State) : Host.Outcome State Fault Refusal :=
  operation s fun s =>
    let (len, t) := if s.transmit then s.pullSamples n.toNat else (0, s)
    t.returns (.value (if t.transmitOnIdle ∧ len < n.toNat then n.toNat else len : Nat))

end Sys2Proof.Machine
end

