-- ==== Sys2Proof/Machine/Sys.lean ====
section
/-! DEFINITION. The session operations (45 R270 to R275, R280). -/

namespace Sys2Proof.Machine

/-- INIT (45 R270): every element of state takes its reset value and every output trace starts empty, in any
state. The inputs on CMD, FRAME_IN, DSP_IN and CFG_IN and the parameters are not the block's to reset (10 R39,
R43); the contents of the memories and of `cfg` are unspecified (R43, 93 U5, U7; log entries 8 and 9); RET
carries 0 (95 P1; log entry 10). -/
def execInit (s : State) : Host.Outcome State Fault Refusal :=
  .next { State.reset with
    cfg := Config.freeCfg s.draws
    adaptiveReceive := s.adaptiveReceive
    s7 := s.s7
    ret := .value 0
    cmdIn := s.cmdIn
    frameIn := s.frameIn
    dspIn := s.dspIn
    params := s.params
    draws := s.draws + 1 }

/-- RELEASE (45 R271): the session ends; no other effect. -/
def execRelease (s : State) : Host.Outcome State Fault Refusal :=
  operation s fun s => { s with session := false }.returns .nothing

/-- SETTOI (45 R272). -/
def execSetToi (b : Bool) (s : State) : Host.Outcome State Fault Refusal :=
  operation s fun s => { s with transmitOnIdle := b }.returns .nothing

/-- SETTEP (45 R273). -/
def execSetTep (b : Bool) (s : State) : Host.Outcome State Fault Refusal :=
  operation s fun s => { s with useTep := b }.returns .nothing

/-- CALLEV.RING (45 R274): no state of the block changes (log entry 16). -/
def execCallevRing (s : State) : Host.Outcome State Fault Refusal :=
  operation s fun s => s.returns (.value 0)

/-- CALLEV.ANSWER (45 R274): the line goes off-hook. -/
def execCallevAnswer (s : State) : Host.Outcome State Fault Refusal :=
  operation s fun s => ({ s with callSamples := 0 }.setAtRxMode .offhookCommand).returns (.value 0)

/-- CALLEV.HANGUP (45 R274). -/
def execCallevHangup (s : State) : Host.Outcome State Fault Refusal :=
  operation s fun s =>
    { (s.restart .silenceTx).setAtRxMode .onhookCommand with
      dteIsWaiting := false
      okIsPending := false
      silenceAwaited := 0 }.returns (.value 0)

/-- SETT38 (45 R275): refused, T.38 being outside the block (00 R3; log entry 18). -/
def execSetT38 (_b : Bool) (s : State) : Host.Outcome State Fault Refusal :=
  operation s fun s => s.refuse

/-- T38TICK (45 R280): refused, T.38 being outside the block (00 R3; log entry 18). -/
def execT38Tick (_n : Byte) (s : State) : Host.Outcome State Fault Refusal :=
  operation s fun s => s.refuse

end Sys2Proof.Machine
end

