-- ==== Sys2Proof/Machine/Dispatch.lean ====
section
/-! DEFINITION. Which meaning each operation has. -/

namespace Sys2Proof.Machine

-- One arm per constructor of Instr, in the order of the opcode table.
def exec (i : Instr) (s : State) : Host.Outcome State Fault Refusal :=
  match i with
  | .init => Sys2Proof.Machine.execInit s
  | .release => Sys2Proof.Machine.execRelease s
  | .setToi b => Sys2Proof.Machine.execSetToi b s
  | .setTep b => Sys2Proof.Machine.execSetTep b s
  | .callevRing => Sys2Proof.Machine.execCallevRing s
  | .callevAnswer => Sys2Proof.Machine.execCallevAnswer s
  | .callevHangup => Sys2Proof.Machine.execCallevHangup s
  | .setT38 b => Sys2Proof.Machine.execSetT38 b s
  | .t38Tick n => Sys2Proof.Machine.execT38Tick n s
  | .restartFlush => Sys2Proof.Machine.execRestartFlush s
  | .restartSilenceTx => Sys2Proof.Machine.execRestartSilenceTx s
  | .restartSilenceRx => Sys2Proof.Machine.execRestartSilenceRx s
  | .restartCed => Sys2Proof.Machine.execRestartCed s
  | .restartCng => Sys2Proof.Machine.execRestartCng s
  | .restartNocng => Sys2Proof.Machine.execRestartNocng s
  | .restartV21Tx => Sys2Proof.Machine.execRestartV21Tx s
  | .restartV17Tx => Sys2Proof.Machine.execRestartV17Tx s
  | .restartV27terTx => Sys2Proof.Machine.execRestartV27terTx s
  | .restartV29Tx => Sys2Proof.Machine.execRestartV29Tx s
  | .restartV21Rx => Sys2Proof.Machine.execRestartV21Rx s
  | .restartV17Rx => Sys2Proof.Machine.execRestartV17Rx s
  | .restartV27terRx => Sys2Proof.Machine.execRestartV27terRx s
  | .restartV29Rx => Sys2Proof.Machine.execRestartV29Rx s
  | .frs v => Sys2Proof.Machine.execFrs v s
  | .fts v => Sys2Proof.Machine.execFts v s
  | .frh v => Sys2Proof.Machine.execFrh v s
  | .fth v => Sys2Proof.Machine.execFth v s
  | .frm v => Sys2Proof.Machine.execFrm v s
  | .ftm v => Sys2Proof.Machine.execFtm v s
  | .dte b => Sys2Proof.Machine.execDte b s
  | .getBit => Sys2Proof.Machine.execGetBit s
  | .putBit bit => Sys2Proof.Machine.execPutBit bit s
  | .putBitCarrierDown => Sys2Proof.Machine.execPutBitCarrierDown s
  | .putBitCarrierUp => Sys2Proof.Machine.execPutBitCarrierUp s
  | .putBitTrainingInProgress => Sys2Proof.Machine.execPutBitTrainingInProgress s
  | .putBitTrainingSucceeded => Sys2Proof.Machine.execPutBitTrainingSucceeded s
  | .putBitTrainingFailed => Sys2Proof.Machine.execPutBitTrainingFailed s
  | .putBitOther v => Sys2Proof.Machine.execPutBitOther v s
  | .hdlcRx ok => Sys2Proof.Machine.execHdlcRx ok s
  | .hdlcEvFramingOk => Sys2Proof.Machine.execHdlcEvFramingOk s
  | .hdlcEvCarrierDown => Sys2Proof.Machine.execHdlcEvCarrierDown s
  | .hdlcEvCarrierUp => Sys2Proof.Machine.execHdlcEvCarrierUp s
  | .hdlcEvOther v => Sys2Proof.Machine.execHdlcEvOther v s
  | .hdlcTxu => Sys2Proof.Machine.execHdlcTxu s
  | .rxs quiet => Sys2Proof.Machine.execRxs quiet s
  | .txs n => Sys2Proof.Machine.execTxs n s
  | .qWrite => Sys2Proof.Machine.execQWrite s
  | .qRead => Sys2Proof.Machine.execQRead s
  | .qFlush => Sys2Proof.Machine.execQFlush s

end Sys2Proof.Machine
end

