-- ==== Sys2Proof/Machine/Step.lean ====
section
/-! DEFINITION. One step: the next command word on CMD is taken, decoded and run (00 R4, 20 R72). -/

namespace Sys2Proof.Machine

/-- One step. With nothing on CMD the block waits (70 R332); a word that spells no operation is refused
(30 R102, 00 R9; log entries 1 and 2). -/
def step (s : State) : Host.Outcome State Fault Refusal :=
  match s.cmdIn with
  | [] => .next s
  | c :: rest =>
    match decode c.word with
    | .ok i => exec i (s.present c rest)
    | .error _ => .next (s.present c rest).refuse

/-- The state with the operation of these bits put on CMD as the next one to run. -/
def State.withFetchWord (s : State) (nbits w : Nat) : State := s.issueWord (tableWord nbits w)

end Sys2Proof.Machine
end

