-- ==== Sys2Proof/Safety.lean ====
section
/-! DEFINITION. The terms the claims use: the spec's tables of codes, the invariant of the block's state, the
abstract queue the ring stands for (10 R38, 20 R71), the mode table of 40 R122 to R135 as data, the state a
RESTART leaves, and sequences of operations. -/

namespace Sys2Proof.Machine

/-! ### The numbers of the spec's tables -/

/-- The mode codes, and 15 for the sentinel NONE (30 R92). -/
def modeNumbers : List (Option Mode × Nat) :=
  [(some .flush, 0), (some .silenceTx, 1), (some .silenceRx, 2), (some .ced, 3), (some .cng, 4),
    (some .nocng, 5), (some .v21Tx, 6), (some .v17Tx, 7), (some .v27terTx, 8), (some .v29Tx, 9),
    (some .v21Rx, 10), (some .v17Rx, 11), (some .v27terRx, 12), (some .v29Rx, 13), (none, 15)]

/-- The bit-rate codes (30 R103). -/
def rateNumbers : List (BitRate × Nat) :=
  [(.r300, 0), (.r2400, 1), (.r4800, 2), (.r7200, 3), (.r9600, 4), (.r12000, 5), (.r14400, 6)]

/-- The codes of the receive tags (30 R106). -/
def rxTagNumbers : List (RxHandler × Nat) :=
  [(.dummy, 0), (.silence, 1), (.fsk, 2), (.v17, 3), (.v27ter, 4), (.v29, 5), (.earlyV17, 6),
    (.earlyV27ter, 7), (.earlyV29, 8), (.cng, 9)]

/-- The codes of the transmit tags (30 R106). -/
def txTagNumbers : List (TxHandler × Nat) :=
  [(.none, 0), (.silence, 1), (.toneCng, 2), (.toneCed, 3), (.fsk, 4), (.v17, 5), (.v27ter, 6), (.v29, 7)]

/-- The numbers of the AT response codes (30 R99). -/
def respNumbers : List (RespCode × Nat) :=
  [(.ok, 0), (.connect, 1), (.noCarrier, 3), (.error, 4), (.fcError, 8), (.frh3, 9)]

/-- The codes of the items on MODEM_CTRL (30 R105). -/
def ctrlNumbers : List (CtrlItem × Nat) := [(.cts false, 0), (.cts true, 1), (.hangup, 2)]

/-- The codes of the error kinds (60 R290). -/
def errorNumbers : List (ErrorKind × Nat) :=
  [(.dteTimeout, 1), (.noCarrierOnAnswer, 2), (.midReceiveTimeout, 3), (.carrierError, 4),
    (.bufferExhausted, 5), (.unknownClass1Val, 6)]

/-! ### Memories and the queue -/

/-- Every byte a memory holds lies below an index. -/
def Memory.below (m : Memory) (n : Nat) : Prop := ∀ i, (m.byteAt i).isSome = true → i < n

/-- Every cell below an index has been written. -/
def Memory.filled (m : Memory) (n : Nat) : Prop := ∀ i, i < n → (m.byteAt i).isSome = true

/-- The ring bytes of a list of records, oldest first: each record is its length, low byte first, and its bytes
(20 R71). -/
def queueBytes : List (List Byte) → List Byte
  | [] => []
  | rec :: rest =>
    BitVec.ofNat 8 (rec.length % 256) :: BitVec.ofNat 8 (rec.length / 256) :: (rec ++ queueBytes rest)

/-- The ring holds exactly this list of records, oldest first: the abstract state `rxq` of 10 R38. -/
structure RingHolds (s : State) (rxq : List (List Byte)) : Prop where
  sizes : ∀ rec ∈ rxq, 1 ≤ rec.length ∧ rec.length ≤ 257
  fits : (queueBytes rxq).length ≤ 4095
  stored : ∀ i, i < (queueBytes rxq).length →
    s.qData.byteAt ((s.qOptr.val + i) % 4096) = (queueBytes rxq)[i]?
  ends : s.qIptr.val = (s.qOptr.val + (queueBytes rxq).length) % 4096

/-! ### The invariant -/

/-- The receive mode an Early tag belongs to (40 R133 to R135). -/
def earlyMode : RxHandler → Option Mode
  | .earlyV17 => some .v17Rx
  | .earlyV27ter => some .v27terRx
  | .earlyV29 => some .v29Rx
  | _ => none

/-- What every state a run reaches satisfies. -/
structure StateInv (s : State) : Prop where
  /-- The parameters are in their ranges (00 R5). -/
  params : s.params.ok = true
  /-- T.38 mode is off (40 R142). -/
  t38Mode : s.t38Mode = false
  /-- The memories are in canonical form. -/
  canonical : ∀ m, (s.memory m).wf = true
  /-- No memory holds a byte beyond its size (20 R60). -/
  bounded : ∀ m, (s.memory m).below (s.memorySize m)
  /-- `tx_out_bytes ≤ tx_in_bytes ≤ TX_BUF_LEN` (20 R68). -/
  txCursors : s.txOutBytes ≤ s.txInBytes ∧ s.txInBytes ≤ s.params.txBufLen
  /-- Every cell of `tx_data` below `tx_in_bytes` has been written (70 R331). -/
  txWritten : s.txData.filled s.txInBytes
  /-- `hdlc_tx_len` is within its buffer and every cell below it has been written (20 R70). -/
  hdlcTx : s.hdlcTxLen ≤ s.params.hdlcTxBufLen ∧ s.hdlcTxBuf.filled s.hdlcTxLen
  /-- `hdlc_rx_len ≤ 254` (10 R33). -/
  hdlcRx : s.hdlcRxLen ≤ 254
  /-- The bit counters are in their ranges (10 R29, R30). -/
  bitCounters : s.txBitNo ≤ 8 ∧ s.rxBitNo ≤ 7
  /-- The ring holds a list of whole records (20 R71, R75). -/
  queue : ∃ rxq, RingHolds s rxq
  /-- An Early tag stands only in its own receive mode and before training (40 R133 to R135, R139). -/
  early : s.rxHandler.isEarly = true → s.modem = earlyMode s.rxHandler ∧ s.rxTrained = false
  /-- A fast mode runs at a rate of its family (40 R143). -/
  fastRate : ∀ m, s.modem = some m → m.usesFast = true →
    legalPair m s.cfg.fastBitRate s.cfg.fastShortTrain = true
  /-- The silence counters are within 20400 samples (30 R95, 60 R303). -/
  silence : s.silenceAwaited ≤ 20400 ∧
    ∀ n, s.silenceTxRemaining = .samples n → n ≤ 20400
  /-- `call_samples` counts from a later moment than `samples` (10 R36). -/
  clocks : s.callSamples ≤ s.samples
  /-- The DTE deadline is at most 5 s away (42 R190). -/
  deadline : s.dteDataTimeout ≤ s.callSamples + 40000

/-! ### RESTART as data -/

/-- The RESTART operation of a mode. -/
def restartInstr : Mode → Instr
  | .flush => .restartFlush | .silenceTx => .restartSilenceTx | .silenceRx => .restartSilenceRx
  | .ced => .restartCed | .cng => .restartCng | .nocng => .restartNocng
  | .v21Tx => .restartV21Tx | .v17Tx => .restartV17Tx | .v27terTx => .restartV27terTx
  | .v29Tx => .restartV29Tx | .v21Rx => .restartV21Rx | .v17Rx => .restartV17Rx
  | .v27terRx => .restartV27terRx | .v29Rx => .restartV29Rx

/-- What the wiring rule of a mode says of the three handler tags, `transmit` and `silence_tx_remaining`
(`none` where the rule does not write it), one row for each of 40 R122 to R135. -/
structure ModeRow where
  tx : TxHandler
  next : TxHandler
  rx : RxHandler
  transmit : Bool
  silence : Option SilenceLeft

/-- The rows of 40 R122 to R135. -/
def modeRow : Mode → ModeRow
  | .flush => ⟨.silence, .none, .dummy, true, some (.samples 1600)⟩
  | .silenceTx => ⟨.silence, .none, .dummy, false, some .idle⟩
  | .silenceRx => ⟨.silence, .none, .silence, false, some .idle⟩
  | .ced => ⟨.silence, .toneCed, .dummy, true, some (.samples 1600)⟩
  | .cng => ⟨.toneCng, .none, .cng, true, none⟩
  | .nocng => ⟨.silence, .none, .cng, true, some .idle⟩
  | .v21Tx => ⟨.fsk, .none, .dummy, true, none⟩
  | .v17Tx => ⟨.v17, .none, .dummy, true, none⟩
  | .v27terTx => ⟨.v27ter, .none, .dummy, true, none⟩
  | .v29Tx => ⟨.v29, .none, .dummy, true, none⟩
  | .v21Rx => ⟨.silence, .none, .fsk, false, some .idle⟩
  | .v17Rx => ⟨.silence, .none, .earlyV17, false, some .idle⟩
  | .v27terRx => ⟨.silence, .none, .earlyV27ter, false, some .idle⟩
  | .v29Rx => ⟨.silence, .none, .earlyV29, false, some .idle⟩

/-- The fast transmit modes, which reset the transmit buffer state (40 R129 to R131). -/
def startsFastTransmit (m : Mode) : Prop := m = .v17Tx ∨ m = .v27terTx ∨ m = .v29Tx

/-- What `cfg` holds in a mode, field by field as far as the mode uses it (40 R122 to R135, 10 R44). -/
structure CfgOf (m : Mode) (rate : BitRate) (short : Bool) (c : DspCfg) : Prop where
  ced : m = .ced → c.leadSilenceMs = 200 ∧ c.toneHz = 2100 ∧ c.toneDbm0 = -11 ∧ c.toneOnMs = 2600 ∧
    c.toneOffMs = 0 ∧ c.toneRepeat = false
  cng : m = .cng → c.toneHz = 1100 ∧ c.toneDbm0 = -11 ∧ c.toneOnMs = 500 ∧ c.toneOffMs = 3000 ∧
    c.toneRepeat = true
  receiver : m = .cng ∨ m = .nocng ∨ m = .v21Rx ∨ m = .v17Rx ∨ m = .v27terRx ∨ m = .v29Rx →
    c.hdlcRxCrcCheck = true ∧ c.hdlcRxFramingOkThreshold = 5 ∧ c.v21RxCutoffCentiDbm0 = -3909
  v21Tx : m = .v21Tx → c.hdlcTxPreambleFlags = 32
  fast : startsFastTransmit m ∨ m = .v17Rx ∨ m = .v27terRx ∨ m = .v29Rx →
    c.fastBitRate = rate ∧ c.fastShortTrain = short

/-- The state a RESTART that is not idempotent leaves: the prologue of 40 R121 and the wiring of its mode, `c`
being the new `cfg` and `d` the number of free values drawn; every other field is that of `s`. -/
def afterRestart (m : Mode) (s : State) (c : DspCfg) (d : Nat) : State :=
  { s with
    qIptr := 0
    qOptr := 0
    rxSignalPresent := false
    rxTrained := false
    dataFinal := false
    rxMessageReceived := false
    rxCurrentByte := 0
    rxBitNo := 0
    modem := some m
    txHandler := (modeRow m).tx
    nextTxHandler := (modeRow m).next
    rxHandler := (modeRow m).rx
    transmit := (modeRow m).transmit
    silenceTxRemaining := (modeRow m).silence.getD s.silenceTxRemaining
    hdlcTxLen := if m = .v21Tx then 0 else s.hdlcTxLen
    hdlcFinal := if m = .v21Tx then false else s.hdlcFinal
    txInBytes := if m.isFastTx then 0 else s.txInBytes
    txOutBytes := if m.isFastTx then 0 else s.txOutBytes
    txDataStarted := if m.isFastTx then false else s.txDataStarted
    txHolding := if m.isFastTx then false else s.txHolding
    txCurrentByte := if m.isFastTx then 0xFF else s.txCurrentByte
    txBitNo := if m.isFastTx then 0 else s.txBitNo
    cfg := c
    draws := d }

/-- `t` is what the sub-step `call RESTART(m)` makes of `s`: `s` itself where the mode is already `m`, else the
state of `afterRestart` with a `cfg` as the mode's rule has it (40 R120). -/
def Restarted (m : Mode) (s t : State) : Prop :=
  (s.modem = some m ∧ t = s) ∨
    (s.modem ≠ some m ∧ ∃ c d, CfgOf m s.bitRate s.shortTrain c ∧ t = afterRestart m s c d)

/-- The legal pairs of 40 R143 as a relation: V.21 at 300, V.27ter at 2400 and 4800, V.29 at 7200 and 9600,
each with long training; V.17 at 7200 to 14400 with either; the six modes without a modem with anything. -/
def pairAllowed (m : Mode) (rate : BitRate) (short : Bool) : Prop :=
  match m with
  | .v21Tx | .v21Rx => rate.bps = 300 ∧ short = false
  | .v27terTx | .v27terRx => (rate.bps = 2400 ∨ rate.bps = 4800) ∧ short = false
  | .v29Tx | .v29Rx => (rate.bps = 7200 ∨ rate.bps = 9600) ∧ short = false
  | .v17Tx | .v17Rx => rate.bps = 7200 ∨ rate.bps = 9600 ∨ rate.bps = 12000 ∨ rate.bps = 14400
  | .flush | .silenceTx | .silenceRx | .ced | .cng | .nocng => True

/-- The state the CNG drop leaves, `c` being the new `cfg` and `d` the number of free values drawn; every other
field is that of `s` (40 R140). -/
def afterCngDrop (s : State) (c : DspCfg) (d : Nat) : State :=
  { s with
    modem := some .v21Rx
    txHandler := .silence
    nextTxHandler := .none
    silenceTxRemaining := .idle
    rxHandler := .fsk
    transmit := false
    cfg := c
    draws := d }

/-- The receiver's fields of `cfg` are the same in both records. -/
def SameReceiver (c c' : DspCfg) : Prop :=
  c'.hdlcRxCrcCheck = c.hdlcRxCrcCheck ∧ c'.hdlcRxFramingOkThreshold = c.hdlcRxFramingOkThreshold ∧
    c'.v21RxCutoffCentiDbm0 = c.v21RxCutoffCentiDbm0

/-- `t` is `s` ready for the V21_RX case of FRAMING_OK: `s` itself in V21_RX, the state after the CNG drop in
CNG and NOCNG (40 R140, 44 R244). -/
def ListensToV21 (s t : State) : Prop :=
  (s.modem = some .v21Rx ∧ t = s) ∨
    ((s.modem = some .cng ∨ s.modem = some .nocng) ∧
      ∃ c d, SameReceiver s.cfg c ∧ t = afterCngDrop s c d)

/-- A pull of `k` samples from the transmit handler `h` yields `len` of them and leaves `t`: the silence
generator gives what is left of its silence, a handler NONE gives nothing, a tone generator or modulator gives
what DSP_IN answers, at most `k`, and any such number where DSP_IN has no answer (45 R278). -/
def Produced (s : State) (h : TxHandler) (k len : Nat) (t : State) : Prop :=
  (h = .silence ∧ s.silenceTxRemaining = .idle ∧ len = k ∧ t = s) ∨
  (h = .silence ∧ ∃ left, s.silenceTxRemaining = .samples left ∧ len = min k left ∧
    t = { s with silenceTxRemaining := .samples (left - len) }) ∨
  (h = .none ∧ len = 0 ∧ t = s) ∨
  (h ≠ .silence ∧ h ≠ .none ∧ len ≤ k ∧ ∃ answers d, t = { s with dspIn := answers, draws := d } ∧
    ∀ a rest, s.dspIn = a :: rest → len = min a k ∧ answers = rest)

/-- `t` is what the transmit completion makes of `s` (45 R279). -/
def Completed (s t : State) : Prop :=
  (s.modem = some .silenceTx ∧ ∃ c d, t =
    { s with
      modem := none, cfg := c, draws := d, dteTx := s.dteTx ++ [.resp 0]
      atRxMode := .offhookCommand, dteDataTimeout := 0 }) ∨
  (s.modem = some .ced ∧ ∃ c d r, Restarted .v21Tx { s with modem := none, cfg := c, draws := d } r ∧ t =
    { r with atRxMode := .hdlc, hdlcTxLen := 0, dteDataTimeout := s.callSamples + 40000 }) ∨
  ((s.modem = some .v21Tx ∨ s.modem = some .v17Tx ∨ s.modem = some .v27terTx ∨ s.modem = some .v29Tx) ∧
    ∃ c d, Restarted .silenceTx
      { s with
        modem := none, cfg := c, draws := d, dteTx := s.dteTx ++ [.resp 0]
        atRxMode := .offhookCommand, dteDataTimeout := 0 } t) ∨
  ((s.modem = none ∨ ∃ m, s.modem = some m ∧
      (m = .flush ∨ m = .silenceRx ∨ m = .cng ∨ m = .nocng ∨ m = .v21Rx ∨ m.isFastRx = true)) ∧ t = s)

/-! ### Tables and small functions as the spec words them -/

/-- The class-1 table of 30 R94: `val`, the mode sent with, the mode received with, the rate, short training. -/
def class1Rows : List (Nat × Mode × Mode × BitRate × Bool) :=
  [(24, .v27terTx, .v27terRx, .r2400, false), (48, .v27terTx, .v27terRx, .r4800, false),
   (72, .v29Tx, .v29Rx, .r7200, false), (96, .v29Tx, .v29Rx, .r9600, false),
   (73, .v17Tx, .v17Rx, .r7200, false), (74, .v17Tx, .v17Rx, .r7200, true),
   (97, .v17Tx, .v17Rx, .r9600, false), (98, .v17Tx, .v17Rx, .r9600, true),
   (121, .v17Tx, .v17Rx, .r12000, false), (122, .v17Tx, .v17Rx, .r12000, true),
   (145, .v17Tx, .v17Rx, .r14400, false), (146, .v17Tx, .v17Rx, .r14400, true)]

/-- The words that spell no operation, by their fields (30 R102; the events of CALLEV by 45 R274). -/
def ReservedWord (cls sub arg : Nat) : Prop :=
  10 ≤ cls ∨
  (cls = 0 ∧ (7 ≤ sub ∨ ((sub = 0 ∨ sub = 1) ∧ arg ≠ 0) ∨ ((sub = 2 ∨ sub = 3 ∨ sub = 5) ∧ 2 ≤ arg) ∨
    (sub = 4 ∧ 3 ≤ arg))) ∨
  (cls = 1 ∧ (14 ≤ sub ∨ arg ≠ 0)) ∨
  (cls = 2 ∧ 6 ≤ sub) ∨
  ((cls = 3 ∨ cls = 4 ∨ cls = 5 ∨ cls = 7) ∧ sub ≠ 0) ∨
  ((cls = 4 ∨ cls = 7) ∧ arg ≠ 0) ∨
  ((cls = 6 ∨ cls = 8) ∧ (2 ≤ sub ∨ (sub = 0 ∧ 2 ≤ arg))) ∨
  (cls = 9 ∧ (3 ≤ sub ∨ arg ≠ 0))

/-- The data bytes one byte of the DTE stream yields in HDLC and STUFFED mode, the escape flag being `dled`,
where it is not the ETX of a DLE-ETX (30 R96). -/
def unstuffed (dled : Bool) (b : Byte) : List Byte :=
  if dled then (if b = 0x1A then [0x10, 0x10] else [b]) else if b = 0x10 then [] else [b]

/-- `xs` laid into `old` from index `at`, cell by cell; `new` is the memory after. -/
def LaidInto (old new : Memory) (start : Nat) (xs : List Byte) : Prop :=
  ∀ i, new.byteAt i = if start ≤ i ∧ i < start + xs.length then xs[i - start]? else old.byteAt i

/-- What the bits of a DTE byte mode look like on RET: 0 or 1 (43 R210). -/
def bitRet (b : Bool) : Ret := .value (if b then 1 else 0)

/-- What a receive command makes of the queue (44 R251): the items it emits, the records left, whether it goes
on waiting, and whether a CONNECT has been given. -/
structure Drain where
  items : List DteItem
  rest : List (List Byte)
  waits : Bool
  connected : Bool

/-- `drain_queue` on the list of records (44 R251). -/
def drain : Bool → List (List Byte) → Drain
  | connected, [] => ⟨[], [], true, connected⟩
  | connected, [] :: rest => drain connected rest
  | connected, [code] :: rest =>
    if code = 1 then
      let r := drain true rest
      { r with items := (if connected then [] else [.resp 1]) ++ r.items }
    else ⟨[.resp code], rest, false, connected⟩
  | connected, (code :: b :: body) :: rest =>
    ⟨(if connected then [] else [.resp 1]) ++ (stuff (b :: body)).map .byte ++
      [.byte 0x10, .byte 0x03, .resp code], rest, false, connected⟩

/-! ### Sequences of operations -/

/-- The operations of a list, one after another, as long as each answers a next state (00 R4, 20 R72). -/
def execAll : List Instr → State → Host.Outcome State Fault Refusal
  | [], s => .next s
  | i :: rest, s =>
    match exec i s with
    | .next t => execAll rest t
    | .fault f => .fault f
    | .refused r => .refused r

/-- `ATRX`: the DTE bytes of a buffer, one operation each (00 R4, 30 R104). -/
def atRx (bytes : List Byte) : List Instr := bytes.map .dte

/-- `n` GETBIT operations: the values on RET in order, and the state after them; `none` where one stops. -/
def getBits : Nat → State → Option (List Ret × State)
  | 0, s => some ([], s)
  | n + 1, s =>
    match exec .getBit s with
    | .next t => (getBits n t).map fun r => (t.ret :: r.1, r.2)
    | .fault _ => none
    | .refused _ => none

/-- The bits of a byte, least significant first (20 R62). -/
def bitsLsbFirst (b : Byte) : List Bool :=
  [b.getLsbD 0, b.getLsbD 1, b.getLsbD 2, b.getLsbD 3, b.getLsbD 4, b.getLsbD 5, b.getLsbD 6, b.getLsbD 7]

/-- The state the next operation of a command runs from: the command is off CMD, and FRAME_IN and DSP_IN carry
what it brought (00 R4). -/
def issued (s : State) (c : Command) (rest : List Command) : State :=
  { s with cmdIn := rest, frameIn := c.frame, dspIn := c.dsp }

end Sys2Proof.Machine
end

