-- ==== Sys2Proof/Certificates/Slice0/Obligations.lean ====
section
/-! DEFINITION. The statements about the block, one `def` each, for the provers. -/

open Sys2Proof Sys2Proof.Machine

/-! ### Encoding and the step -/

/-- 30 R90 to R93, R98, R104: decoding the word of a well-formed operation gives the operation back. Rests on the
decisions D2, D3, D6 of 92 (the spec's own choices). -/
def Obligations.DecodeOfEncode : Prop :=
  ∀ i : Instr, i.wellFormed = true → decode (encode i) = .ok i

/-- 30 R90, R102: every word that decodes is the word of the operation it decodes to, which is well-formed: no two
words spell one operation, and no bit of a word is dropped. Rests on the decisions D2, D41 of 92 (the spec's own
choices). -/
def Obligations.EncodeOfDecode : Prop :=
  ∀ (w : CmdWord) (i : Instr), decode w = .ok i → i.wellFormed = true ∧ encode i = w

/-- 30 R102, 45 R274: the words that spell no operation are exactly those of the list. Rests on the decisions D2,
D38, D41 of 92 (the spec's own choices). -/
def Obligations.DecodeRefusesExactlyReservedWords : Prop :=
  ∀ cls sub arg : Nat, cls < 16 → sub < 16 → arg < 256 →
    ((∃ e, decode (BitVec.ofNat 16 (cls * 4096 + sub * 256 + arg)) = .error e) ↔ ReservedWord cls sub arg)

/-- 30 R104, R92, R93, R98: words of the table of operations decode to their operations. 30 R92, R99, R103, R105,
R106, 60 R290: every mode, tag, rate, response, control item and error kind has its number of the spec's tables,
a RESTART word has its mode's code in `sub`, and DSP_CFG presents the codes of the mode, the three tags and the
fast rate with the record `cfg`. Rests on the decisions D2, D3, D4, D5, D6, D33, D38 of 92 (the spec's own
choices). -/
def Obligations.WordsOfTheTableDecode : Prop :=
  decode 0x0402 = .ok .callevHangup ∧ decode 0x1C00 = .ok .restartV27terRx ∧
  decode 0x2150 = .ok (.fts 80) ∧ decode 0x2303 = .ok (.fth 3) ∧ decode 0x2460 = .ok (.frm 96) ∧
  decode 0x30A5 = .ok (.dte 0xA5) ∧ decode 0x5001 = .ok (.putBit true) ∧
  decode 0x50FC = .ok .putBitTrainingSucceeded ∧ decode 0x6001 = .ok (.hdlcRx true) ∧
  decode 0x61FA = .ok .hdlcEvFramingOk ∧ decode 0x8001 = .ok (.rxs true) ∧ decode 0x81A0 = .ok (.txs 160) ∧
  decode 0x9100 = .ok .qRead ∧
  (∀ m : Mode, (some m, m.code.toNat) ∈ modeNumbers ∧
    (encode (restartInstr m)).toNat = 0x1000 + 0x100 * m.code.toNat) ∧
  (∀ s : State, ∃ (mode rx : BitVec 4) (tx next rate : BitVec 3),
    s.dspCfgPort = (mode, rx, tx, next, rate, s.cfg) ∧ (s.modem, mode.toNat) ∈ modeNumbers ∧
    (s.rxHandler, rx.toNat) ∈ rxTagNumbers ∧ (s.txHandler, tx.toNat) ∈ txTagNumbers ∧
    (s.nextTxHandler, next.toNat) ∈ txTagNumbers ∧ (s.cfg.fastBitRate, rate.toNat) ∈ rateNumbers) ∧
  (∀ c : RespCode, (c, c.byte.toNat) ∈ respNumbers) ∧ (∀ x : CtrlItem, (x, x.code) ∈ ctrlNumbers) ∧
  ∀ k : ErrorKind, (k, k.code) ∈ errorNumbers

/-- 00 R4, 20 R72: when the next command's word decodes to an operation, a step is that operation on the state with
the command taken off CMD and its FRAME_IN and DSP_IN presented. Rests on the decisions D1, D42 of 92 (the
spec's own choices). Log: 2, 3, 6. -/
def Obligations.StepRunsTheDecodedOperation : Prop :=
  ∀ (s : State) (c : Command) (rest : List Command) (i : Instr),
    s.cmdIn = c :: rest → decode c.word = .ok i → step s = exec i (issued s c rest)

/-- 70 R332, 00 R9: with no command pending a step leaves the state as it is; a word that spells no operation is
taken off CMD and leaves REFUSED on RET and nothing else changed (log entries 1 and 2: the model's reading).
Rests on the decision D41 of 92 (the spec's own choices). Log: 1, 2. -/
def Obligations.StepWithoutAnOperation : Prop :=
  ∀ s : State, (s.cmdIn = [] → step s = .next s) ∧
    ∀ (c : Command) (rest : List Command) (e : DecodeError), s.cmdIn = c :: rest → decode c.word = .error e →
      step s = .next { issued s c rest with ret := .refused }

/-! ### SYS -/

/-- 45 R270, 10 R43: INIT in any state gives every element its value of the reset table and starts every trace
empty. The contents of the memories and of `cfg` are unspecified: a memory lists nothing, `cfg` is some record.
The inputs and the parameters stay. What RET carries and how many free values are drawn is left open. Rests on
the decision D32 of 92 (the spec's own choices). Log: 8, 9, 10. -/
def Obligations.InitGivesTheResetTable : Prop :=
  ∀ s : State, ∃ (c : DspCfg) (d : Nat) (r : Ret), exec .init s = .next
    { s with
      session := true, t38Mode := false, modem := none, bitRate := .r300, shortTrain := false
      atRxMode := .onhookCommand, transmit := false, dteIsWaiting := false, okIsPending := false
      rxSignalPresent := false, rxTrained := false, dataFinal := false, rxMessageReceived := false
      txData := [], txInBytes := 0, txOutBytes := 0, txHolding := false, txCurrentByte := 0xFF
      txBitNo := 0, txDataStarted := false, rxCurrentByte := 0, rxBitNo := 0, dled := false
      hdlcTxBuf := [], hdlcTxLen := 0, hdlcTxPtr := 0, hdlcFinal := false, hdlcRxBuf := []
      hdlcRxLen := 0, missingData := false, rxHandler := .dummy, txHandler := .none
      nextTxHandler := .none, cfg := c, samples := 0, callSamples := 0, dteDataTimeout := 0
      silenceHeard := 0, silenceAwaited := 0, silenceTxRemaining := .idle
      qData := [], qIptr := 0, qOptr := 0, useTep := false, transmitOnIdle := false
      dteTx := [], atCmd := [], modemCtrl := [], frameOut := [], log := [], ret := r, draws := d }

/-- 45 R271: RELEASE ends the session and has no other effect; after it every operation other than INIT is refused.
What RET carries after RELEASE is left open. Rests on the decision D41 of 92 (the spec's own choices). Log: 1,
17. -/
def Obligations.ReleaseEndsTheSession : Prop :=
  ∀ s : State, s.live = true → ∃ t : State, exec .release s = .next t ∧
    t = { s with session := false, ret := t.ret } ∧
    ∀ i : Instr, i ≠ .init → exec i t = .next { t with ret := .refused }

/-- 70 R330, 40 R142, 00 R9: without a session, and in T.38 mode, every operation other than INIT is refused: the
state is unchanged, nothing is emitted, and RET carries REFUSED. Rests on the decisions D34, D41 of 92 (the
spec's own choices). Log: 1. -/
def Obligations.RefusedWithoutSessionOrInT38Mode : Prop :=
  ∀ (i : Instr) (s : State), i ≠ .init → (s.session = false ∨ s.t38Mode = true) →
    exec i s = .next { s with ret := .refused }

/-- 45 R272, R273: SETTOI and SETTEP write their bit and nothing else; what RET carries is left open. Log: 10. -/
def Obligations.SetToiAndSetTepWriteTheirBit : Prop :=
  ∀ (s : State) (b : Bool), s.live = true →
    (∃ r, exec (.setToi b) s = .next { s with transmitOnIdle := b, ret := r }) ∧
    (∃ r, exec (.setTep b) s = .next { s with useTep := b, ret := r })

/-- 45 R274: the three call events. That a ring leaves every port as it was, AT_CMD included, is the model's choice
(log entry 16): R274 forwards the ring to the AT interpreter, and no port of 00 R4 carries it. Rests on the
decision D38 of 92 (the spec's own choices). Log: 16. -/
def Obligations.CallEventsTakeEffect : Prop :=
  ∀ s : State, s.live = true →
    exec .callevRing s = .next { s with ret := .value 0 } ∧
    exec .callevAnswer s = .next
      { s with callSamples := 0, atRxMode := .offhookCommand, dteDataTimeout := 0, ret := .value 0 } ∧
    ∃ t, Restarted .silenceTx s t ∧ exec .callevHangup s = .next
      { t with
        atRxMode := .onhookCommand, dteIsWaiting := false, okIsPending := false, silenceAwaited := 0
        dteDataTimeout := 0, ret := .value 0 }

/-- 45 R275, R280, 00 R9: refusal is all that SETT38 and T38TICK do in this block, in every state: RET carries
REFUSED and nothing else changes. Rests on the decisions D34, D41 of 92 (the spec's own choices). Log: 1, 18. -/
def Obligations.T38OperationsAreRefused : Prop :=
  ∀ (s : State) (b : Bool) (n : Byte),
    exec (.setT38 b) s = .next { s with ret := .refused } ∧
    exec (.t38Tick n) s = .next { s with ret := .refused }

/-! ### RESTART -/

/-- 40 R120 to R128, R132: RESTART into one of the modes without a fast modem, from another mode, runs the prologue
and the mode's wiring; the memories and every register not named stay. Rests on the decisions D13, D14, D15, D43
of 92 (the spec's own choices). Log: 9. -/
def Obligations.RestartWiresModesWithoutAFastModem : Prop :=
  ∀ (s : State) (m : Mode), s.live = true → m.usesFast = false →
    pairAllowed m s.bitRate s.shortTrain → s.modem ≠ some m →
    ∃ c d, CfgOf m s.bitRate s.shortTrain c ∧
      exec (restartInstr m) s = .next { afterRestart m s c d with ret := .value 0 }

/-- 40 R120, R121, R129 to R131, R133 to R135: RESTART into a fast transmit or receive mode at a legal rate, from
another mode, runs the prologue and the mode's wiring; the memories and every register not named stay. Rests on
the decisions D13, D14, D15, D43 of 92 (the spec's own choices). Log: 9. -/
def Obligations.RestartWiresFastModes : Prop :=
  ∀ (s : State) (m : Mode), s.live = true → m.usesFast = true →
    pairAllowed m s.bitRate s.shortTrain → s.modem ≠ some m →
    ∃ c d, CfgOf m s.bitRate s.shortTrain c ∧
      exec (restartInstr m) s = .next { afterRestart m s c d with ret := .value 0 }

/-- 40 R120: RESTART of the mode that is active does nothing but put 0 on RET. Rests on the decision D41 of 92 (the
spec's own choices). Log: 12. -/
def Obligations.RestartOfTheActiveModeIsIdle : Prop :=
  ∀ (s : State) (m : Mode), s.live = true → pairAllowed m s.bitRate s.shortTrain → s.modem = some m →
    exec (restartInstr m) s = .next { s with ret := .value 0 }

/-- 40 R143: a RESTART whose pair of mode and loaded rate is illegal is refused, also where `m` is the active mode,
for which R120 answers 0: that the legality is looked at first is the model's choice (log entry 12); every pair
the class-1 table holds is legal in both directions. Rests on the decision D41 of 92 (the spec's own choices).
Log: 1, 12. -/
def Obligations.RestartNeedsALegalPair : Prop :=
  (∀ (s : State) (m : Mode), ¬ pairAllowed m s.bitRate s.shortTrain →
    exec (restartInstr m) s = .next { s with ret := .refused }) ∧
  ∀ row ∈ class1Rows, pairAllowed row.2.1 row.2.2.2.1 row.2.2.2.2 ∧
    pairAllowed row.2.2.1 row.2.2.2.1 row.2.2.2.2

/-- 40 R120(c): after a RESTART that was carried out the mode is the one asked for, and the same RESTART again
changes nothing. Log: 12. -/
def Obligations.RestartTwiceIsRestartOnce : Prop :=
  ∀ (s t : State) (m : Mode), exec (restartInstr m) s = .next t → t.ret = .value 0 →
    t.modem = some m ∧ exec (restartInstr m) t = .next t

/-! ### CLASS1 -/

/-- 41 R161, 30 R95: FTS restarts into SILENCE_TX and sets the length of the silence. Rests on the decisions D14,
D23 of 92 (the spec's own choices). -/
def Obligations.FtsTransmitsSilence : Prop :=
  ∀ (s : State) (v : Byte), s.live = true → ∃ t, Restarted .silenceTx s t ∧
    exec (.fts v) s = .next
      { t with silenceTxRemaining := .samples (v.toNat * 80), transmit := true, ret := .value 0 }

/-- 41 R162, 30 R95: FRS restarts into SILENCE_RX and waits, or answers OK at once for 0. Rests on the decisions
D24, D27 of 92 (the spec's own choices). -/
def Obligations.FrsWaitsForSilence : Prop :=
  ∀ (s : State) (v : Byte), s.live = true → ∃ t, Restarted .silenceRx s t ∧
    exec (.frs v) s = .next
      (if v.toNat = 0 then { t with dteTx := t.dteTx ++ [.resp 0], ret := .value 0 }
       else
        { t with
          silenceAwaited := v.toNat * 80, atRxMode := .delivery, dteDataTimeout := 0, ret := .value 0 })

/-- 41 R163: FTH 3 restarts into V21_TX, answers CONNECT, enters HDLC mode and arms the DTE deadline. Rests on the
decisions D13, D14, D23, D27 of 92 (the spec's own choices). -/
def Obligations.FthEntersHdlcMode : Prop :=
  ∀ s : State, s.live = true → ∃ t, Restarted .v21Tx { s with bitRate := .r300, shortTrain := false } t ∧
    exec (.fth 3) s = .next
      { t with
        transmit := true, dteTx := t.dteTx ++ [.resp 1], atRxMode := .hdlc, hdlcTxLen := 0
        dteDataTimeout := t.callSamples + 40000, ret := .value 0 }

/-- 41 R164, 44 R251: FRH 3 from another mode, or with an empty queue, ends up waiting and emits nothing. Rests on
the decisions D14, D22, D27 of 92 (the spec's own choices). -/
def Obligations.FrhWaitsOnAnEmptyQueue : Prop :=
  ∀ s : State, s.live = true → (s.modem ≠ some .v21Rx ∨ s.qIptr = s.qOptr) →
    ∃ t, Restarted .v21Rx { s with bitRate := .r300, shortTrain := false } t ∧
      exec (.frh 3) s = .next
        { t with
          transmit := false, atRxMode := .delivery, dteDataTimeout := 0, dteIsWaiting := true
          ret := .value 0 }

/-- 44 R251, 41 R164: FRH 3 in V21_RX drains the list of records the ring holds as `drain_queue` says: what it
emits, the records left, whether it waits, and the flags. Rests on the decisions D9, D22, D27 of 92 (the spec's
own choices). Log: 14. -/
def Obligations.FrhDrainsTheQueue : Prop :=
  ∀ (s : State) (rxq : List (List Byte)), s.live = true → s.modem = some .v21Rx → RingHolds s rxq →
    ∃ t : State, exec (.frh 3) s = .next t ∧ RingHolds t (drain false rxq).rest ∧ t =
      { s with
        bitRate := .r300
        shortTrain := false
        transmit := false
        dteTx := s.dteTx ++ (drain false rxq).items
        dteIsWaiting := (drain false rxq).waits
        rxMessageReceived :=
          (drain false rxq).waits && ((drain false rxq).connected || s.rxMessageReceived)
        atRxMode := if (drain false rxq).waits then .delivery else .offhookCommand
        dteDataTimeout := 0
        qOptr := t.qOptr
        ret := .value 0 }

/-- 41 R165, 30 R94: FTM with each `val` of the class-1 table. Rests on the decisions D13, D14, D23, D27 of 92 (the
spec's own choices). -/
def Obligations.FtmStartsImageTransmission : Prop :=
  ∀ (s : State) (row : Nat × Mode × Mode × BitRate × Bool), s.live = true → row ∈ class1Rows →
    ∃ t, Restarted row.2.1 { s with bitRate := row.2.2.2.1, shortTrain := row.2.2.2.2 } t ∧
      exec (.ftm (BitVec.ofNat 8 row.1)) s = .next
        { t with
          transmit := true, dteTx := t.dteTx ++ [.resp 1], atRxMode := .stuffed, dteDataTimeout := 0
          ret := .value 0 }

/-- 41 R166, 30 R94: FRM with each `val` of the class-1 table. Rests on the decisions D14, D15, D23, D27 of 92 (the
spec's own choices). -/
def Obligations.FrmStartsImageReception : Prop :=
  ∀ (s : State) (row : Nat × Mode × Mode × BitRate × Bool), s.live = true → row ∈ class1Rows →
    ∃ t, Restarted row.2.2.1 { s with bitRate := row.2.2.2.1, shortTrain := row.2.2.2.2 } t ∧
      exec (.frm (BitVec.ofNat 8 row.1)) s = .next
        { t with
          transmit := false, atRxMode := .delivery, dteDataTimeout := 0, dteIsWaiting := true
          ret := .value 0 }

/-- 41 R167, 60 R296: a class-1 command with an unknown `val` logs its kind, puts −1 on RET and changes no other
state; for FRS and FTS no `val` is unknown. -/
def Obligations.UnknownClass1ValChangesNothing : Prop :=
  ∀ (s : State) (v : Byte), s.live = true →
    ((∀ row ∈ class1Rows, row.1 ≠ v.toNat) →
      exec (.ftm v) s = .next { s with log := s.log ++ [.unknownClass1Val], ret := .value (-1) } ∧
      exec (.frm v) s = .next { s with log := s.log ++ [.unknownClass1Val], ret := .value (-1) }) ∧
    (v.toNat ≠ 3 →
      exec (.fth v) s = .next { s with log := s.log ++ [.unknownClass1Val], ret := .value (-1) } ∧
      exec (.frh v) s = .next { s with log := s.log ++ [.unknownClass1Val], ret := .value (-1) }) ∧
    (∃ t u : State, exec (.frs v) s = .next t ∧ exec (.fts v) s = .next u ∧ t.log = s.log ∧ u.log = s.log ∧
      t.ret ≠ .value (-1) ∧ u.ret ≠ .value (-1))

/-! ### DTE -/

/-- 42 R181: in a COMMAND mode a byte goes to the AT interpreter and no other state changes. -/
def Obligations.CommandModeForwardsTheByte : Prop :=
  ∀ (s : State) (b : Byte), s.live = true →
    (s.atRxMode = .onhookCommand ∨ s.atRxMode = .offhookCommand) →
    exec (.dte b) s = .next { s with atCmd := s.atCmd ++ [b], ret := .value 0 }

/-- 42 R182, R190, R191: a byte in HDLC mode that does not end a frame. What it unstuffs to is laid into
`hdlc_tx_buf` from `hdlc_tx_len` up as far as there is room, the rest is dropped and logged, the deadline is
re-armed, and every other cell and register stays. Rests on the decisions D11, D27, D36 of 92 (the spec's own
choices). -/
def Obligations.HdlcModeUnstuffsTheByte : Prop :=
  ∀ (s : State) (b : Byte), s.live = true → s.atRxMode = .hdlc → ¬ (s.dled = true ∧ b = 0x03) →
    ∃ (data stored : List Byte) (t : State), data = unstuffed s.dled b ∧
      stored = data.take (s.params.hdlcTxBufLen - s.hdlcTxLen) ∧ exec (.dte b) s = .next t ∧
      LaidInto s.hdlcTxBuf t.hdlcTxBuf s.hdlcTxLen stored ∧ t =
        { s with
          dled := !s.dled && b == 0x10
          hdlcTxBuf := t.hdlcTxBuf
          hdlcTxLen := s.hdlcTxLen + stored.length
          dteDataTimeout := s.callSamples + 40000
          log := s.log ++ List.replicate (data.length - stored.length) .bufferExhausted
          ret := .value 0 }

/-- 42 R183, 30 R101, 70 R335: DLE-ETX in HDLC mode submits the bytes of the buffer as a frame; `hdlc_final` is the
poll/final bit of the second octet, and anything for a frame of fewer than two bytes. Rests on the decision D27
of 92 (the spec's own choices). Log: 7, 8. -/
def Obligations.HdlcModeSubmitsTheFrame : Prop :=
  ∀ s : State, s.live = true → s.atRxMode = .hdlc → s.dled = true →
    s.hdlcTxLen ≤ s.params.hdlcTxBufLen →
    ∃ (frame : List Byte) (final : Bool) (d : Nat), frame.length = s.hdlcTxLen ∧
      (∀ i v, i < s.hdlcTxLen → s.hdlcTxBuf.byteAt i = some v → frame[i]? = some v) ∧
      (∀ octet, frame[1]? = some octet → final = octet.getLsbD 4) ∧
      exec (.dte 0x03) s = .next
        { s with
          dled := false
          frameOut := s.frameOut ++ [.frame frame]
          hdlcFinal := final
          hdlcTxLen := 0
          dteDataTimeout := 0
          draws := d
          ret := .value 0 }

/-- 42 R184, R186, R191: a byte in STUFFED mode that does not end the data. What it unstuffs to is laid into
`tx_data` from `tx_in_bytes` up as far as there is room, the rest is dropped and logged; then flow control is
asserted once above the high-water mark; every other cell and register stays. Rests on the decisions D11, D36,
D45 of 92 (the spec's own choices). -/
def Obligations.StuffedModeUnstuffsTheByte : Prop :=
  ∀ (s : State) (b : Byte), s.live = true → s.atRxMode = .stuffed → ¬ (s.dled = true ∧ b = 0x03) →
    ∃ (data stored : List Byte) (hold : Bool) (t : State), data = unstuffed s.dled b ∧
      stored = data.take (s.params.txBufLen - s.txInBytes) ∧
      hold = (!s.txHolding && decide (s.params.txBufLen - 1024 < s.txInBytes + stored.length)) ∧
      exec (.dte b) s = .next t ∧ LaidInto s.txData t.txData s.txInBytes stored ∧ t =
        { s with
          dled := !s.dled && b == 0x10
          txData := t.txData
          txInBytes := s.txInBytes + stored.length
          txHolding := s.txHolding || hold
          modemCtrl := s.modemCtrl ++ (if hold then [.cts false] else [])
          log := s.log ++ List.replicate (data.length - stored.length) .bufferExhausted
          ret := .value 0 }

/-- 42 R185, R186: DLE-ETX in STUFFED mode sets `data_final` and returns to OFFHOOK_COMMAND; nothing is stored; the
high-water check still runs. Rests on the decisions D27, D45 of 92 (the spec's own choices). -/
def Obligations.StuffedModeEndsTheData : Prop :=
  ∀ s : State, s.live = true → s.atRxMode = .stuffed → s.dled = true →
    ∃ hold : Bool, hold = (!s.txHolding && decide (s.params.txBufLen - 1024 < s.txInBytes)) ∧
      exec (.dte 0x03) s = .next
        { s with
          dled := false
          dataFinal := true
          atRxMode := .offhookCommand
          dteDataTimeout := 0
          txHolding := s.txHolding || hold
          modemCtrl := s.modemCtrl ++ (if hold then [.cts false] else [])
          ret := .value 0 }

/-- 42 R189(a), R184, R185, R188: the stuffed form of any payload that fits, followed by DLE-ETX, leaves exactly the
payload in `tx_data`, the data ended, and nothing lost or emitted. Rests on the decisions D12, D36 of 92 (the
spec's own choices). -/
def Obligations.StuffedStreamRoundTrip : Prop :=
  ∀ (s : State) (p : List Byte), s.live = true → s.atRxMode = .stuffed → s.dled = false →
    s.txInBytes = 0 → p.length ≤ s.params.txBufLen →
    ∃ t : State, execAll (atRx (stuff p ++ [0x10, 0x03])) s = .next t ∧
      t.txInBytes = p.length ∧ (∀ i, i < p.length → t.txData.byteAt i = p[i]?) ∧
      t.dataFinal = true ∧ t.atRxMode = .offhookCommand ∧ t.dled = false ∧
      t.dteTx = s.dteTx ∧ t.log = s.log ∧ t.txOutBytes = s.txOutBytes

/-- 42 R182, R183, R188: the stuffed form of any frame that fits, followed by DLE-ETX, submits exactly the frame on
FRAME_OUT, with `hdlc_final` the poll/final bit of its second octet. Rests on the decisions D12, D27, D36 of 92
(the spec's own choices). -/
def Obligations.HdlcStreamRoundTrip : Prop :=
  ∀ (s : State) (p : List Byte), s.live = true → s.atRxMode = .hdlc → s.dled = false →
    s.hdlcTxLen = 0 → p.length ≤ s.params.hdlcTxBufLen →
    ∃ t : State, execAll (atRx (stuff p ++ [0x10, 0x03])) s = .next t ∧
      t.frameOut = s.frameOut ++ [.frame p] ∧ t.hdlcTxLen = 0 ∧ t.atRxMode = .hdlc ∧ t.dled = false ∧
      t.dteDataTimeout = 0 ∧ (∀ octet, p[1]? = some octet → t.hdlcFinal = octet.getLsbD 4) ∧
      t.dteTx = s.dteTx ∧ t.log = s.log

/-- 42 R187: a byte in DELIVERY mode aborts the delivery. Rests on the decisions D27, D37 of 92 (the spec's own
choices). -/
def Obligations.DeliveryModeAborts : Prop :=
  ∀ (s : State) (b : Byte), s.live = true → s.atRxMode = .delivery →
    ∃ t, Restarted .silenceTx
        { s with dteTx := s.dteTx ++ (if s.rxSignalPresent then [.byte 0x10, .byte 0x03] else []) } t ∧
      exec (.dte b) s = .next
        { t with
          dteIsWaiting := false, okIsPending := false, silenceAwaited := 0
          atRxMode := .offhookCommand, dteDataTimeout := 0, dteTx := t.dteTx ++ [.resp 0], ret := .value 0 }

/-! ### The bit pump -/

/-- 43 R210, R211: GETBIT within a byte, at a boundary with data, at the end of the data, and at a boundary without
data. Rests on the decisions D44, D45 of 92 (the spec's own choices). Log: 8. -/
def Obligations.GetBitAnswersABit : Prop :=
  ∀ s : State, s.live = true →
    (s.txBitNo ≠ 0 → exec .getBit s = .next
      { s with
        txBitNo := s.txBitNo - 1, txCurrentByte := s.txCurrentByte >>> 1
        ret := bitRet (s.txCurrentByte.getLsbD 0) }) ∧
    (s.txBitNo = 0 → s.txOutBytes ≠ s.txInBytes → s.txOutBytes < s.params.txBufLen →
      ∃ v, (∀ w, s.txData.byteAt s.txOutBytes = some w → v = w) ∧ exec .getBit s = .next
      { s with
        txBitNo := 7, txCurrentByte := v >>> 1, txOutBytes := s.txOutBytes + 1, txDataStarted := true
        txHolding := s.txHolding && !decide (1024 < s.txOutBytes + 1)
        modemCtrl :=
          s.modemCtrl ++ (if s.txHolding && decide (1024 < s.txOutBytes + 1) then [.cts true] else [])
        ret := bitRet (v.getLsbD 0) }) ∧
    (s.txBitNo = 0 → s.txOutBytes = s.txInBytes → s.dataFinal = true →
      exec .getBit s = .next { s with dataFinal := false, ret := .value (-7) }) ∧
    (s.txBitNo = 0 → s.txOutBytes = s.txInBytes → s.dataFinal = false →
      exec .getBit s = .next
        { s with
          txBitNo := 7
          txCurrentByte := if s.txDataStarted then 0x00 else 0x7F
          ret := bitRet (!s.txDataStarted) })

/-- 20 R62, 43 R210: the eight GETBITs from a byte boundary return the byte's bits, least significant first. -/
def Obligations.EightGetBitsSendTheByte : Prop :=
  ∀ (s : State) (v : Byte), s.live = true → s.txBitNo = 0 → s.txOutBytes ≠ s.txInBytes →
    s.txOutBytes < s.params.txBufLen → s.txData.byteAt s.txOutBytes = some v →
    ∃ t : State, getBits 8 s = some ((bitsLsbFirst v).map bitRet, t) ∧
      t.txBitNo = 0 ∧ t.txOutBytes = s.txOutBytes + 1 ∧ t.txInBytes = s.txInBytes ∧
      t.txDataStarted = true ∧ t.txData = s.txData ∧ t.dataFinal = s.dataFinal

/-- 43 R212, 20 R63: a data bit enters the receive shifter by PUT_BIT_ORDER; the eighth sends the byte, stuffed, to
the DTE. Rests on the decisions D10, D39 of 92 (the spec's own choices). -/
def Obligations.PutBitShiftsTheBitIn : Prop :=
  ∀ (s : State) (bit : Bool), s.live = true → ∃ v : Byte,
    (s.params.putBitOrder = .msbFirst → v.toNat = (2 * s.rxCurrentByte.toNat + bit.toNat) % 256) ∧
    (s.params.putBitOrder = .lsbFirst → v.toNat = s.rxCurrentByte.toNat / 2 + 128 * bit.toNat) ∧
    exec (.putBit bit) s = .next
      (if s.rxBitNo = 7 then
        { s with
          rxCurrentByte := 0, rxBitNo := 0, ret := .value 0
          dteTx := s.dteTx ++ (if v = 0x10 then [.byte 0x10, .byte 0x10] else [.byte v]) }
       else { s with rxCurrentByte := v, rxBitNo := s.rxBitNo + 1, ret := .value 0 })

/-- 20 R63, 43 R212: eight data bits from a byte boundary send one byte: under MSB_FIRST the first bit is its bit 7,
under LSB_FIRST its bit 0; nothing else changes. Rests on the decisions D10, D39 of 92 (the spec's own choices). -/
def Obligations.EightPutBitsDeliverTheByte : Prop :=
  ∀ (s : State) (v : Byte), s.live = true → s.rxBitNo = 0 →
    execAll ((match s.params.putBitOrder with
        | .msbFirst => (bitsLsbFirst v).reverse
        | .lsbFirst => bitsLsbFirst v).map .putBit) s = .next
      { s with
        rxCurrentByte := 0, rxBitNo := 0, ret := .value 0
        dteTx := s.dteTx ++ (stuff [v]).map .byte }

/-- 20 R62, R63: every byte one block sends by GETBIT and another receives by PUTBIT arrives unchanged under
LSB_FIRST and bit-reversed under MSB_FIRST, for a whole buffer of bytes. Rests on the decisions D10, D39 of 92
(the spec's own choices). -/
def Obligations.SentBytesArriveByBitOrder : Prop :=
  ∀ (s r : State) (p : List Byte), s.live = true → r.live = true → s.txBitNo = 0 → r.rxBitNo = 0 →
    s.txInBytes = s.txOutBytes + p.length → s.txInBytes ≤ s.params.txBufLen →
    (∀ i, i < p.length → s.txData.byteAt (s.txOutBytes + i) = p[i]?) →
    ∃ (bits : List Bool) (t u : State), getBits (8 * p.length) s = some (bits.map bitRet, t) ∧
      execAll (bits.map .putBit) r = .next u ∧
      u.dteTx = r.dteTx ++ (stuff (match r.params.putBitOrder with
        | .lsbFirst => p
        | .msbFirst => p.map bitrev8)).map .byte

/-- 43 R213, 40 R138: TRAINING_SUCCEEDED. Rests on the decisions D31, D43 of 92 (the spec's own choices). -/
def Obligations.TrainingSucceededConnects : Prop :=
  ∀ s : State, s.live = true → ∃ h : RxHandler,
    (s.rxHandler = .earlyV17 → h = .v17) ∧ (s.rxHandler = .earlyV27ter → h = .v27ter) ∧
    (s.rxHandler = .earlyV29 → h = .v29) ∧ (s.rxHandler.isEarly = false → h = s.rxHandler) ∧
    exec .putBitTrainingSucceeded s = .next
      { s with
        dteTx := s.dteTx ++ [.resp 1], rxTrained := true, rxSignalPresent := true
        rxCurrentByte := 0, rxBitNo := 0, rxHandler := h, ret := .value 0 }

/-- 43 R214, 42 R190: CARRIER_DOWN on the bit port, under both settings of CARRIER_DOWN_GUARD. Rests on the
decisions D27, D30, D43 of 92 (the spec's own choices). -/
def Obligations.FastCarrierDownEndsTheData : Prop :=
  ∀ s : State, s.live = true → exec .putBitCarrierDown s = .next
    (if s.params.carrierDownGuard = .signalPresent ∧ s.rxSignalPresent = false then
      { s with rxTrained := false, rxCurrentByte := 0, rxBitNo := 0, ret := .value 0 }
     else
      { s with
        dteTx := s.dteTx ++ [.byte 0x10, .byte 0x03, .resp 3], atRxMode := .offhookCommand
        dteIsWaiting := false, dteDataTimeout := 0, rxSignalPresent := false, rxTrained := false
        rxCurrentByte := 0, rxBitNo := 0, ret := .value 0 })

/-- 43 R215, R216: TRAINING_FAILED and CARRIER_UP on the bit port are noted only: no state changes, nothing is
emitted, RET is 0. -/
def Obligations.NotedValuesChangeNothing : Prop :=
  ∀ s : State, s.live = true →
    exec .putBitTrainingFailed s = .next { s with ret := .value 0 } ∧
    exec .putBitCarrierUp s = .next { s with ret := .value 0 }

/-- 43 R218, 42 R190: the HDLC transmitter's underflow. Rests on the decisions D26, D27 of 92 (the spec's own
choices). -/
def Obligations.HdlcUnderflowInvitesOrEnds : Prop :=
  ∀ s : State, s.live = true →
    (s.modem = some .v21Tx → s.hdlcFinal = true → exec .hdlcTxu s = .next
      { s with hdlcFinal := false, frameOut := s.frameOut ++ [.theEnd], ret := .value 0 }) ∧
    (s.modem = some .v21Tx → s.hdlcFinal = false → exec .hdlcTxu s = .next
      { s with
        dteTx := s.dteTx ++ [.resp 1], dteDataTimeout := s.callSamples + 40000, ret := .value 0 }) ∧
    (s.modem ≠ some .v21Tx → exec .hdlcTxu s = .next { s with ret := .value 0 })

/-! ### HDLC frames and events -/

/-- 44 R240, R241, R242: a frame for a waiting command: CONNECT if none was given, the stuffed frame with its FCS,
DLE-ETX, and then OK or ERROR with the command over, or the OK deferred. Rests on the decisions D17, D20, D21,
D27 of 92 (the spec's own choices). -/
def Obligations.FrameIsDeliveredToAWaitingCommand : Prop :=
  ∀ (s : State) (ok : Bool), s.live = true → s.okIsPending = false → s.dteIsWaiting = true →
    s.frameIn.len ≤ 254 → s.frameIn.len + 2 ≤ s.frameIn.bytes.length →
    ∃ (msg : List Byte) (items : List DteItem), msg = s.frameIn.bytes.take (s.frameIn.len + 2) ∧
      items = (if s.rxMessageReceived then [] else [.resp 1]) ++ (stuff msg).map .byte ++
        [.byte 0x10, .byte 0x03] ∧
      exec (.hdlcRx ok) s = .next
        (if ok = true ∧ msg[1]? = some 0x13 then
          { s with
            dteTx := s.dteTx ++ items, rxMessageReceived := true, okIsPending := true, ret := .value 0 }
         else
          { s with
            dteTx := s.dteTx ++ items ++ [.resp (if ok then 0 else 4)], rxMessageReceived := false
            dteIsWaiting := false, atRxMode := .offhookCommand, dteDataTimeout := 0, ret := .value 0 })

/-- 44 R243, R247, 60 R295: a frame for no waiting command is queued behind the records held, prefixed by its code,
or lost and logged where it does not fit. Rests on the decisions D9, D20 of 92 (the spec's own choices). -/
def Obligations.FrameIsQueuedForNoCommand : Prop :=
  ∀ (s : State) (ok : Bool) (rxq : List (List Byte)), s.live = true → s.okIsPending = false →
    s.dteIsWaiting = false → s.frameIn.len ≤ 254 → s.frameIn.len + 2 ≤ s.frameIn.bytes.length →
    RingHolds s rxq →
    ∃ (rec : List Byte) (t : State),
      rec = (if ok then 0 else 4) :: s.frameIn.bytes.take (s.frameIn.len + 2) ∧
      exec (.hdlcRx ok) s = .next t ∧
      (if (queueBytes rxq).length + (rec.length + 2) ≤ 4095 then
        RingHolds t (rxq ++ [rec]) ∧ t = { s with qData := t.qData, qIptr := t.qIptr, ret := .value 0 }
       else t = { s with log := s.log ++ [.bufferExhausted], ret := .value 0 })

/-- 44 R240, 70 R336, 44 R247: a frame while an OK is pending is ignored; a frame whose FRAME_IN is too long or too
short is refused; so is a QWRITE record of no byte or more than 257 (log entry 13: the model's choice). Rests on
the decisions D20, D41 of 92 (the spec's own choices). Log: 1, 3, 13. -/
def Obligations.FrameInputIsIgnoredOrRefused : Prop :=
  ∀ (s : State) (ok : Bool), s.live = true →
    (s.okIsPending = true → s.frameIn.len ≤ 254 → s.frameIn.len + 2 ≤ s.frameIn.bytes.length →
      exec (.hdlcRx ok) s = .next { s with ret := .value 0 }) ∧
    (254 < s.frameIn.len ∨ s.frameIn.bytes.length < s.frameIn.len + 2 →
      exec (.hdlcRx ok) s = .next { s with ret := .refused }) ∧
    (s.frameIn.bytes = [] ∨ 257 < s.frameIn.bytes.length →
      exec .qWrite s = .next { s with ret := .refused })

/-- 44 R244, 40 R140: FRAMING_OK in V21_RX, and in CNG and NOCNG after the drop to V21_RX: CONNECT to a waiting
command or into the queue, once a receive. Rests on the decisions D9, D17 of 92 (the spec's own choices). Log:
9. -/
def Obligations.FramingOkGivesConnectOnce : Prop :=
  ∀ (s : State) (rxq : List (List Byte)), s.live = true →
    (s.modem = some .v21Rx ∨ s.modem = some .cng ∨ s.modem = some .nocng) → RingHolds s rxq →
    ∃ u : State, ListensToV21 s u ∧
      (s.rxMessageReceived = true →
        exec .hdlcEvFramingOk s = .next { u with rxSignalPresent := true, ret := .value 0 }) ∧
      (s.rxMessageReceived = false → s.dteIsWaiting = true → exec .hdlcEvFramingOk s = .next
        { u with
          rxSignalPresent := true, rxMessageReceived := true, dteTx := u.dteTx ++ [.resp 1]
          ret := .value 0 }) ∧
      (s.rxMessageReceived = false → s.dteIsWaiting = false → ∃ t : State,
        exec .hdlcEvFramingOk s = .next t ∧
        if (queueBytes rxq).length + 3 ≤ 4095 then
          RingHolds t (rxq ++ [[1]]) ∧ t =
            { u with
              rxSignalPresent := true, rxMessageReceived := true, qData := t.qData, qIptr := t.qIptr
              ret := .value 0 }
        else t =
          { u with
            rxSignalPresent := true, rxMessageReceived := true, log := u.log ++ [.bufferExhausted]
            ret := .value 0 })

/-- 44 R244, 60 R294, 40 R139: the carrier error, a preamble while both demodulators run, under both settings of
adaptive receive. Rests on the decisions D18, D27 of 92 (the spec's own choices). Log: 9. -/
def Obligations.CarrierErrorDuringFastReceive : Prop :=
  ∀ s : State, s.live = true →
    (s.modem = some .v17Rx ∨ s.modem = some .v27terRx ∨ s.modem = some .v29Rx) →
    s.rxHandler.isEarly = true →
    ∃ c d, (SameReceiver s.cfg c ∨ s.adaptiveReceive = false) ∧
      exec .hdlcEvFramingOk s = .next
        (if s.adaptiveReceive then
          { s with
            rxHandler := .fsk, log := s.log ++ [.carrierError], rxSignalPresent := true
            rxMessageReceived := true, modem := some .v21Rx, transmit := false, dteIsWaiting := true
            atRxMode := .delivery, dteDataTimeout := 0, dteTx := s.dteTx ++ [.resp 9, .resp 1]
            cfg := c, draws := d, ret := .value 0 }
         else
          { s with
            rxHandler := .fsk, log := s.log ++ [.carrierError], modem := some .silenceTx
            rxMessageReceived := false, dteIsWaiting := false, atRxMode := .offhookCommand
            dteDataTimeout := 0, dteTx := s.dteTx ++ [.resp 8], cfg := c, draws := d, ret := .value 0 })

/-- 43 R217, 44 R244 to R246: an event value that means nothing on its port changes nothing in any mode; FRAMING_OK
and CARRIER_DOWN of the HDLC receiver change nothing in a mode that has no case for them. Rests on the decisions
D6, D18, D19 of 92 (the spec's own choices). -/
def Obligations.EventsWithoutACaseChangeNothing : Prop :=
  ∀ s : State, s.live = true →
    (∀ i : Instr, (i = .putBitTrainingInProgress ∨ i = .hdlcEvCarrierUp ∨
        ∃ v, i = .putBitOther v ∨ i = .hdlcEvOther v) → exec i s = .next { s with ret := .value 0 }) ∧
    (s.modem ≠ some .v21Rx → s.modem ≠ some .cng → s.modem ≠ some .nocng →
      exec .hdlcEvCarrierDown s = .next { s with ret := .value 0 } ∧
      (s.rxHandler.isEarly = false → exec .hdlcEvFramingOk s = .next { s with ret := .value 0 }) ∧
      ((s.modem = none ∨ ∃ m : Mode, s.modem = some m ∧ m.isFastRx = false) →
        exec .hdlcEvFramingOk s = .next { s with ret := .value 0 }))

/-- 44 R245, R242: the V.21 carrier goes down: the deferred OK, NO_CARRIER to a waiting command or into the queue
while a CONNECT is outstanding, or nothing; the signal flags are cleared in every case. Rests on the decisions
D9, D19, D27 of 92 (the spec's own choices). -/
def Obligations.V21CarrierDownEndsTheReceive : Prop :=
  ∀ (s : State) (rxq : List (List Byte)), s.live = true →
    (s.modem = some .v21Rx ∨ s.modem = some .cng ∨ s.modem = some .nocng) → RingHolds s rxq →
    (s.okIsPending = true → exec .hdlcEvCarrierDown s = .next
      { s with
        dteTx := s.dteTx ++ [.resp 0], okIsPending := false, dteIsWaiting := false
        rxMessageReceived := false, atRxMode := .offhookCommand, dteDataTimeout := 0
        rxSignalPresent := false, rxTrained := false, ret := .value 0 }) ∧
    (s.okIsPending = false → s.rxMessageReceived = true → s.dteIsWaiting = true →
      exec .hdlcEvCarrierDown s = .next
      { s with
        dteTx := s.dteTx ++ [.resp 3], dteIsWaiting := false
        rxMessageReceived := false, atRxMode := .offhookCommand, dteDataTimeout := 0
        rxSignalPresent := false, rxTrained := false, ret := .value 0 }) ∧
    (s.okIsPending = false → s.rxMessageReceived = true → s.dteIsWaiting = false → ∃ t : State,
      exec .hdlcEvCarrierDown s = .next t ∧
      if (queueBytes rxq).length + 3 ≤ 4095 then
        RingHolds t (rxq ++ [[3]]) ∧ t =
          { s with
            rxMessageReceived := false, rxSignalPresent := false, rxTrained := false
            qData := t.qData, qIptr := t.qIptr, ret := .value 0 }
      else t =
        { s with
          rxMessageReceived := false, rxSignalPresent := false, rxTrained := false
          log := s.log ++ [.bufferExhausted], ret := .value 0 }) ∧
    (s.okIsPending = false → s.rxMessageReceived = false → exec .hdlcEvCarrierDown s = .next
      { s with rxSignalPresent := false, rxTrained := false, ret := .value 0 })

/-! ### The line -/

/-- 45 R276, R277, 60 R291, R292, R299: RXS counts the sample and runs the silence, DTE deadline and no-carrier
checks in this order, each on the state the one before left. Rests on the decisions D24, D27, D28, D29 of 92
(the spec's own choices). -/
def Obligations.RxsRunsItsChecksInOrder : Prop :=
  ∀ (s : State) (quiet : Bool), s.live = true → ∃ a b c d : State,
    a = { s with
      samples := s.samples + 1, callSamples := s.callSamples + 1
      silenceHeard := if quiet then s.silenceHeard + 1 else 0 } ∧
    b = (if a.silenceAwaited ≠ 0 ∧ a.silenceAwaited ≤ a.silenceHeard then
      { a with
        dteTx := a.dteTx ++ [.resp 0], atRxMode := .offhookCommand, dteDataTimeout := 0
        silenceAwaited := 0, silenceHeard := 0 }
      else a) ∧
    (if b.dteDataTimeout ≠ 0 ∧ b.dteDataTimeout < b.callSamples then
      Restarted .silenceTx
        { b with
          log := b.log ++ [.dteTimeout], dteDataTimeout := 0, atRxMode := .offhookCommand
          dteTx := b.dteTx ++ [.resp 4] } c
      else c = b) ∧
    (if (c.modem = some .cng ∨ c.modem = some .nocng) ∧ c.s7.toNat * 8000 < c.callSamples then
      ∃ r, Restarted .silenceTx
          { c with log := c.log ++ [.noCarrierOnAnswer], dteTx := c.dteTx ++ [.resp 3] } r ∧ d =
        { r with
          modemCtrl := r.modemCtrl ++ [.hangup], atRxMode := .onhookCommand, dteDataTimeout := 0
          dteIsWaiting := false }
      else d = c) ∧
    exec (.rxs quiet) s = .next { d with ret := .value 0 }

/-- 45 R278, R279: TXS, whatever handlers the mode has: nothing is pulled while `transmit` is false; else the active
handler is asked for the whole length, its successor takes over where it yields less, and the completion of the
mode follows where that is not enough either; RET carries the samples pulled, or the whole length with
`transmit_on_idle`. Rests on the decisions D25, D27, D40, D42 of 92 (the spec's own choices). Log: 6. -/
def Obligations.TxsPullsFromTheHandlers : Prop :=
  ∀ (s : State) (n : Byte), s.live = true →
    (s.transmit = false → exec (.txs n) s = .next
      { s with ret := .value (if s.transmitOnIdle then n.toNat else 0 : Nat) }) ∧
    (s.transmit = true → ∃ (first len : Nat) (a b t : State),
      Produced s s.txHandler n.toNat first a ∧
      (if first < n.toNat ∧ s.nextTxHandler ≠ .none then
        ∃ more : Nat, len = first + more ∧
          Produced { a with txHandler := s.nextTxHandler, nextTxHandler := .none } s.nextTxHandler
            (n.toNat - first) more b
       else len = first ∧ b = a) ∧
      (if len < n.toNat then Completed b t else t = b) ∧
      exec (.txs n) s = .next
        { t with ret := .value (if s.transmitOnIdle then n.toNat else len : Nat) })

/-! ### The queue -/

/-- 10 R38, 20 R67, R71, R75, 44 R247 to R250: the ring is a bounded queue of whole records. QWRITE appends the
record and returns its length, or returns −1 and changes nothing where `n + 2` bytes are not free; QREAD removes
and returns the oldest record, or returns −1 on an empty queue; QFLUSH empties it. Rests on the decision D9 of
92 (the spec's own choices). Log: 10, 13. -/
def Obligations.RingIsABoundedQueueOfRecords : Prop :=
  ∀ (s : State) (rxq : List (List Byte)), s.live = true → RingHolds s rxq →
    (1 ≤ s.frameIn.bytes.length → s.frameIn.bytes.length ≤ 257 →
      if (queueBytes rxq).length + (s.frameIn.bytes.length + 2) ≤ 4095 then
        ∃ t : State, exec .qWrite s = .next t ∧ RingHolds t (rxq ++ [s.frameIn.bytes]) ∧
          t = { s with qData := t.qData, qIptr := t.qIptr, ret := .value s.frameIn.bytes.length }
      else exec .qWrite s = .next { s with ret := .value (-1) }) ∧
    (∀ rec rest, rxq = rec :: rest → ∃ t : State, exec .qRead s = .next t ∧ RingHolds t rest ∧
      t = { s with qOptr := t.qOptr, ret := .record rec }) ∧
    (rxq = [] → exec .qRead s = .next { s with ret := .value (-1) }) ∧
    ∃ t : State, exec .qFlush s = .next t ∧ RingHolds t [] ∧
      t = { s with qIptr := 0, qOptr := 0, ret := t.ret }

/-! ### The whole machine -/

/-- The invariant holds right after reset. Rests on the decision D32 of 92 (the spec's own choices). Log: 3, 4, 11. -/
def Obligations.InvHoldsAtReset : Prop := StateInv State.reset

/-- Every step from a state that meets the invariant leads to one that meets it: the memories keep their canonical
form and their bounds, the cursors their order, the ring its list of whole records, the Early tags their modes,
the fast modes their rates, the counters their ranges. Rests on the decisions D9, D13 of 92 (the spec's own
choices). -/
def Obligations.StepKeepsInv : Prop :=
  ∀ s t : State, StateInv s → step s = .next t → StateInv t

/-- 20 R72, 60 preamble: from a state that meets the invariant every step answers a next state: the block has no
traps, and no word, operand or input stops it. Log: 1, 15. -/
def Obligations.StepNeverStops : Prop :=
  ∀ s : State, StateInv s → ∃ t, step s = .next t

/-- Log entry 15, the model's choice: what the two operations that can stop do in a state that does not meet the
invariant, where a cursor lies beyond the memory it indexes: they stop with the fault of that name. Log: 15. -/
def Obligations.OutOfRangeCursorsStop : Prop :=
  ∀ s : State, s.live = true →
    (s.txBitNo = 0 → s.txOutBytes ≠ s.txInBytes → s.params.txBufLen ≤ s.txOutBytes →
      exec .getBit s = .fault (.outsideMemory .txData s.txOutBytes)) ∧
    (s.atRxMode = .hdlc → s.dled = true → s.params.hdlcTxBufLen < s.hdlcTxLen →
      exec (.dte 0x03) s = .fault (.outsideMemory .hdlcTxBuf s.params.hdlcTxBufLen))

/-- 10 R22, R23, R36, R39, R31, R33, 20 R60: which operations change the rate registers, the two sample counters,
`session`, the two setter bits, `dled` and the memories; and which registers no operation but INIT changes. The
other flags, cursors, shifters, tags and deadlines are not part of it. Rests on the decisions D11, D29 of 92
(the spec's own choices). -/
def Obligations.RegistersHaveTheirOwnWriters : Prop :=
  ∀ (i : Instr) (s t : State), exec i s = .next t → i ≠ .init →
    ((t.bitRate ≠ s.bitRate ∨ t.shortTrain ≠ s.shortTrain) →
      ∃ v, i = .frh v ∨ i = .fth v ∨ i = .frm v ∨ i = .ftm v) ∧
    (t.samples ≠ s.samples → ∃ q, i = .rxs q) ∧
    (t.callSamples ≠ s.callSamples → i = .callevAnswer ∨ ∃ q, i = .rxs q) ∧
    (t.session ≠ s.session → i = .release) ∧
    (t.transmitOnIdle ≠ s.transmitOnIdle → ∃ b, i = .setToi b) ∧
    (t.useTep ≠ s.useTep → ∃ b, i = .setTep b) ∧
    (t.dled ≠ s.dled → (∃ b, i = .dte b) ∧ (s.atRxMode = .hdlc ∨ s.atRxMode = .stuffed)) ∧
    (t.txData ≠ s.txData → (∃ b, i = .dte b) ∧ s.atRxMode = .stuffed) ∧
    (t.hdlcTxBuf ≠ s.hdlcTxBuf → (∃ b, i = .dte b) ∧ s.atRxMode = .hdlc) ∧
    (t.qData ≠ s.qData →
      (∃ ok, i = .hdlcRx ok) ∨ i = .hdlcEvFramingOk ∨ i = .hdlcEvCarrierDown ∨ i = .qWrite) ∧
    t.t38Mode = s.t38Mode ∧ t.adaptiveReceive = s.adaptiveReceive ∧ t.s7 = s.s7 ∧ t.params = s.params ∧
    t.hdlcRxBuf = s.hdlcRxBuf ∧ t.hdlcRxLen = s.hdlcRxLen ∧ t.missingData = s.missingData ∧
    t.hdlcTxPtr = s.hdlcTxPtr

/-- 40 R141: the transitions of `modem`: only these operations change it, and to these values. Rests on the
decisions D18, D25, D28, D38 of 92 (the spec's own choices). -/
def Obligations.ModemChangesOnlyByItsTransitions : Prop :=
  ∀ (i : Instr) (s t : State), exec i s = .next t → t.modem ≠ s.modem →
    (i = .init ∧ t.modem = none) ∨
    (∃ m, i = restartInstr m ∧ t.modem = some m) ∨
    (∃ v, i = .frs v ∧ t.modem = some .silenceRx) ∨ (∃ v, i = .fts v ∧ t.modem = some .silenceTx) ∨
    (i = .frh 3 ∧ t.modem = some .v21Rx) ∨ (i = .fth 3 ∧ t.modem = some .v21Tx) ∨
    (∃ row ∈ class1Rows, (i = .frm (BitVec.ofNat 8 row.1) ∧ t.modem = some row.2.2.1) ∨
      (i = .ftm (BitVec.ofNat 8 row.1) ∧ t.modem = some row.2.1)) ∨
    (∃ b, i = .dte b ∧ s.atRxMode = .delivery ∧ t.modem = some .silenceTx) ∨
    (i = .hdlcEvFramingOk ∧ (s.modem = some .cng ∨ s.modem = some .nocng) ∧ t.modem = some .v21Rx) ∨
    (i = .hdlcEvFramingOk ∧ (s.modem = some .v17Rx ∨ s.modem = some .v27terRx ∨ s.modem = some .v29Rx) ∧
      s.rxHandler.isEarly = true ∧
      t.modem = (if s.adaptiveReceive then some .v21Rx else some .silenceTx)) ∨
    (∃ n, i = .txs n ∧ s.transmit = true ∧
      (s.txHandler = .silence → s.silenceTxRemaining ≠ .idle) ∧ ((s.modem = some .silenceTx ∧ t.modem = none) ∨
      (s.modem = some .ced ∧ t.modem = some .v21Tx) ∨
      ((s.modem = some .v21Tx ∨ s.modem = some .v17Tx ∨ s.modem = some .v27terTx ∨
        s.modem = some .v29Tx) ∧ t.modem = some .silenceTx))) ∨
    (∃ q, i = .rxs q ∧ t.modem = some .silenceTx ∧
      ((s.dteDataTimeout ≠ 0 ∧ s.dteDataTimeout < t.callSamples) ∨
        ((s.modem = some .cng ∨ s.modem = some .nocng) ∧ s.s7.toNat * 8000 < t.callSamples))) ∨
    (i = .callevHangup ∧ t.modem = some .silenceTx)

/-- 00 R8, 20 R73: what an operation other than INIT puts on an output trace comes after everything already there;
nothing on a trace is changed or taken back. -/
def Obligations.OutputTracesOnlyGrow : Prop :=
  ∀ (i : Instr) (s t : State), exec i s = .next t → i ≠ .init →
    s.dteTx <+: t.dteTx ∧ s.atCmd <+: t.atCmd ∧ s.modemCtrl <+: t.modemCtrl ∧
    s.frameOut <+: t.frameOut ∧ s.log <+: t.log

/-- 10 R35, 40 R137 to R139: both demodulators run only after a RESTART or a class-1 command into a fast receive
mode; after the first of training success and a V.21 preamble at most one is left. Rests on the decision D35 of
92 (the spec's own choices). -/
def Obligations.DualRailEndsWithOneDemodulator : Prop :=
  ∀ (i : Instr) (s t : State), StateInv s → exec i s = .next t → t.rxHandler.isEarly = true →
    (t.rxHandler = s.rxHandler ∧
      (s.live = true → i ≠ .putBitTrainingSucceeded ∧ i ≠ .hdlcEvFramingOk)) ∨
    i = .restartV17Rx ∨ i = .restartV27terRx ∨ i = .restartV29Rx ∨ ∃ v, i = .frm v
end

