-- ==== Sys2Proof/Laws/Memory.lean ====
section
/-! SUPPORT. The laws of the byte memories: a load after a store, the canonical form, the bounds. -/

namespace Sys2Proof.Machine

@[simp] theorem Memory.byteAt_nil (i : Nat) : Memory.byteAt [] i = none := rfl

theorem Memory.byteAt_cons (a : Nat) (b : Byte) (rest : Memory) (i : Nat) :
    Memory.byteAt ((a, b) :: rest) i = if i = a then some b else Memory.byteAt rest i := rfl

/-- A load at any index after a store at `i`. -/
theorem Memory.byteAt_put (m : Memory) (i j : Nat) (v : Byte) :
    (m.put i v).byteAt j = if j = i then some v else m.byteAt j := by
  induction m with
  | nil => simp [Memory.put, Memory.byteAt_cons]
  | cons c rest ih =>
    obtain ⟨a, b⟩ := c
    simp only [Memory.put]
    split
    · simp only [Memory.byteAt_cons]
    · split
      · subst_vars
        simp only [Memory.byteAt_cons]
        split <;> simp_all
      · simp only [Memory.byteAt_cons, ih]
        split <;> split <;> simp_all

@[simp] theorem Memory.byteAt_put_same (m : Memory) (i : Nat) (v : Byte) :
    (m.put i v).byteAt i = some v := by simp [Memory.byteAt_put]

theorem Memory.byteAt_put_other (m : Memory) (v : Byte) {i j : Nat} (h : j ≠ i) :
    (m.put i v).byteAt j = m.byteAt j := by simp [Memory.byteAt_put, h]

/-- The canonical form says that the indices are strictly rising. -/
theorem Memory.wf_iff (m : Memory) : m.wf = true ↔ m.Pairwise (fun x y => x.1 < y.1) := by
  induction m with
  | nil => simp [Memory.wf]
  | cons c rest ih =>
    obtain ⟨a, b⟩ := c
    cases rest with
    | nil => simp [Memory.wf]
    | cons d rest =>
      obtain ⟨a', b'⟩ := d
      simp only [Memory.wf, Bool.and_eq_true, decide_eq_true_eq, ih, List.pairwise_cons, List.mem_cons,
        forall_eq_or_imp]
      constructor
      · rintro ⟨h, h1, h2⟩
        exact ⟨⟨h, fun x hx => Nat.lt_trans h (h1 x hx)⟩, h1, h2⟩
      · rintro ⟨⟨h, -⟩, h1, h2⟩
        exact ⟨h, h1, h2⟩

theorem Memory.mem_put (m : Memory) (i : Nat) (v : Byte) {x : Host.Cell} (h : x ∈ m.put i v) :
    x = (i, v) ∨ x ∈ m := by
  induction m with
  | nil => simpa [Memory.put] using h
  | cons c rest ih =>
    obtain ⟨a, b⟩ := c
    simp only [Memory.put] at h
    split at h
    · simpa using h
    · split at h
      · rcases List.mem_cons.1 h with h | h <;> simp [h]
      · rcases List.mem_cons.1 h with h | h
        · simp [h]
        · rcases ih h with h | h <;> simp [h]

/-- A store keeps the canonical form. -/
theorem Memory.put_wf (m : Memory) (i : Nat) (v : Byte) (h : m.wf = true) : (m.put i v).wf = true := by
  rw [Memory.wf_iff] at h ⊢
  induction m with
  | nil => simp [Memory.put]
  | cons c rest ih =>
    obtain ⟨a, b⟩ := c
    obtain ⟨h1, h2⟩ := List.pairwise_cons.1 h
    simp only [Memory.put]
    split
    · rename_i hlt
      refine List.pairwise_cons.2 ⟨fun x hx => ?_, h⟩
      rcases List.mem_cons.1 hx with rfl | hx
      · exact hlt
      · exact Nat.lt_trans hlt (h1 x hx)
    · split
      · subst_vars
        exact List.pairwise_cons.2 ⟨h1, h2⟩
      · refine List.pairwise_cons.2 ⟨fun x hx => ?_, ih h2⟩
        rcases Memory.mem_put rest i v hx with rfl | hx
        · simp only; omega
        · exact h1 x hx

/-- A store below `n` leaves nothing at or above `n`. -/
theorem Memory.put_below (m : Memory) {i n : Nat} (v : Byte) (h : m.below n) (hi : i < n) :
    (m.put i v).below n := by
  intro j hj
  rw [Memory.byteAt_put] at hj
  split at hj
  · omega
  · exact h j hj

/-- A store at the end of the written part extends it by one cell. -/
theorem Memory.put_filled (m : Memory) {n : Nat} (v : Byte) (h : m.filled n) : (m.put n v).filled (n + 1) := by
  intro j hj
  rw [Memory.byteAt_put]
  split
  · rfl
  · exact h j (by omega)

theorem Memory.filled_mono (m : Memory) {k n : Nat} (h : m.filled n) (hk : k ≤ n) : m.filled k :=
  fun j hj => h j (by omega)

/-- A load of a cell that has been written gives the byte written there. -/
theorem State.cell_of_byteAt {s : State} {m : MemName} {i : Nat} {v : Byte}
    (h : (s.memory m).byteAt i = some v) : s.cell m i = v := by
  simp [State.cell, h]

/-- The bytes of a memory, one by one. -/
theorem State.cells_eq_map (s : State) (m : MemName) (i n : Nat) :
    s.cells m i n = (List.range n).map fun k => s.cell m (i + k) := by
  induction n generalizing i with
  | zero => rfl
  | succ n ih =>
    rw [State.cells, ih, List.range_succ_eq_map]
    simp [Nat.add_comm, Nat.add_left_comm]

@[simp] theorem State.cells_length (s : State) (m : MemName) (i n : Nat) : (s.cells m i n).length = n := by
  simp [State.cells_eq_map]

end Sys2Proof.Machine
end

