-- ==== Sys2Proof/Laws/Ring.lean ====
section
/-! SUPPORT. The laws of the ring queue: what a sequence of ring stores leaves, and how the three primitives act
on the list of records the ring holds (20 R71, R75; 44 R247 to R249). -/

namespace Sys2Proof.Machine

@[simp] theorem ringIndex_val (n : Nat) : (ringIndex n).val = n % 4096 := rfl

theorem queueBytes_append (a b : List (List Byte)) : queueBytes (a ++ b) = queueBytes a ++ queueBytes b := by
  induction a with
  | nil => rfl
  | cons r rest ih => simp [queueBytes, ih]

theorem ofNat8_mod (n : Nat) : BitVec.ofNat 8 (n % 256) = BitVec.ofNat 8 n := by
  apply BitVec.eq_of_toNat_eq; simp

theorem queueBytes_single (rec : List Byte) : queueBytes [rec] = ringRecord rec := by
  simp [queueBytes, ringRecord, ofNat8_mod]

@[simp] theorem ringRecord_length (rec : List Byte) : (ringRecord rec).length = rec.length + 2 := by
  simp [ringRecord]

/-- The ring after a run of stores: the stored bytes at their indices, everything else as before, as long as
the run does not overtake itself. -/
theorem byteAt_ringPut (q : Memory) (p : Nat) (xs : List Byte) (j : Nat) (hx : xs.length ≤ 4096)
    (hj : j < 4096) :
    (ringPut q p xs).byteAt j =
      if (j + 4096 - p % 4096) % 4096 < xs.length then xs[(j + 4096 - p % 4096) % 4096]? else q.byteAt j := by
  induction xs generalizing q p with
  | nil => simp [ringPut]
  | cons x xs ih =>
    have hlen : xs.length + 1 ≤ 4096 := by simpa using hx
    rw [ringPut, ih _ _ (by omega), Memory.byteAt_put]
    simp only [queueLen, List.length_cons]
    by_cases hjp : j = p % 4096
    · have h0 : (j + 4096 - p % 4096) % 4096 = 0 := by omega
      have h1 : ¬ (j + 4096 - (p + 1) % 4096) % 4096 < xs.length := by omega
      rw [if_neg h1, if_pos hjp, if_pos (by omega), h0]
      rfl
    · have h1 : (j + 4096 - p % 4096) % 4096 = (j + 4096 - (p + 1) % 4096) % 4096 + 1 := by omega
      rw [h1]
      simp [hjp]

theorem ringPut_wf (q : Memory) (p : Nat) (xs : List Byte) (h : q.wf = true) : (ringPut q p xs).wf = true := by
  induction xs generalizing q p with
  | nil => exact h
  | cons x xs ih => exact ih _ _ (Memory.put_wf _ _ _ h)

theorem ringPut_below (q : Memory) (p : Nat) (xs : List Byte) (h : q.below 4096) :
    (ringPut q p xs).below 4096 := by
  induction xs generalizing q p with
  | nil => exact h
  | cons x xs ih => exact ih _ _ (Memory.put_below _ _ h (Nat.mod_lt _ (by decide)))

/-- The ring bytes in use are those of the records held. -/
theorem RingHolds.used {s : State} {rxq : List (List Byte)} (h : RingHolds s rxq) :
    s.queueUsed = (queueBytes rxq).length := by
  have h1 := h.ends
  have h2 := h.fits
  have h3 := s.qOptr.isLt
  simp only [State.queueUsed, queueLen]
  omega

theorem RingHolds.empty_iff {s : State} {rxq : List (List Byte)} (h : RingHolds s rxq) :
    s.queueEmpty = true ↔ rxq = [] := by
  have h1 := h.ends
  have h2 := h.fits
  have h3 := s.qOptr.isLt
  simp only [State.queueEmpty, beq_iff_eq, Fin.ext_iff]
  constructor
  · intro he
    have : (queueBytes rxq).length = 0 := by omega
    cases rxq with
    | nil => rfl
    | cons r rest => simp [queueBytes] at this
  · rintro rfl
    simp only [queueBytes, List.length_nil] at h1
    omega

/-- The state of the queue lies in `q_data` and its two indices alone. -/
theorem RingHolds.congr {s t : State} {rxq : List (List Byte)} (h : RingHolds s rxq)
    (hd : t.qData = s.qData) (hi : t.qIptr = s.qIptr) (ho : t.qOptr = s.qOptr) : RingHolds t rxq :=
  ⟨h.sizes, h.fits, by rw [hd, ho]; exact h.stored, by rw [hi, ho]; exact h.ends⟩

/-- QFLUSH leaves the empty queue (44 R249). -/
theorem ringHolds_flush (s : State) : RingHolds s.queueFlush [] :=
  ⟨by simp, by simp [queueBytes], by simp [queueBytes], by simp [queueBytes, State.queueFlush]⟩

/-- Everything QWRITE can do: it appends the record where it fits, and answers nothing where it does not
(44 R247). -/
theorem queueWrite_spec {s : State} {rxq : List (List Byte)} (h : RingHolds s rxq) (rec : List Byte)
    (hrec : 1 ≤ rec.length ∧ rec.length ≤ 257) :
    (rec.length + 2 ≤ 4095 - (queueBytes rxq).length → ∃ t, s.queueWrite rec = some t ∧
      RingHolds t (rxq ++ [rec]) ∧
      t = { s with qData := t.qData, qIptr := t.qIptr } ∧
      (s.qData.wf = true → t.qData.wf = true) ∧ (s.qData.below 4096 → t.qData.below 4096)) ∧
    (¬ rec.length + 2 ≤ 4095 - (queueBytes rxq).length → s.queueWrite rec = none) := by
  have hu := h.used
  have hf := h.fits
  have he := h.ends
  have ho := s.qOptr.isLt
  have hfree : s.queueFree = 4095 - (queueBytes rxq).length := by
    simp only [State.queueFree, queueLen, hu]
  simp only [State.queueWrite, hfree]
  refine ⟨fun hfit => ?_, fun hfit => by rw [if_neg hfit]⟩
  rw [if_pos hfit]
  refine ⟨_, rfl, ⟨?_, ?_, ?_, ?_⟩, rfl, ringPut_wf _ _ _, ringPut_below _ _ _⟩
  · intro r hr
    rcases List.mem_append.1 hr with hr | hr
    · exact h.sizes r hr
    · simp only [List.mem_singleton] at hr; subst hr; exact hrec
  · rw [queueBytes_append, queueBytes_single, List.length_append, ringRecord_length]; omega
  · intro i hi
    rw [queueBytes_append, queueBytes_single, List.length_append, ringRecord_length] at hi
    dsimp only
    rw [byteAt_ringPut _ _ _ _ (by simp only [ringRecord_length]; omega) (Nat.mod_lt _ (by decide)),
      queueBytes_append, queueBytes_single, ringRecord_length]
    by_cases hlt : i < (queueBytes rxq).length
    · rw [if_neg (by omega), h.stored i hlt, List.getElem?_append_left hlt]
    · have hpos : ((s.qOptr.val + i) % 4096 + 4096 - s.qIptr.val % 4096) % 4096 =
          i - (queueBytes rxq).length := by omega
      rw [hpos, if_pos (by omega), List.getElem?_append_right (by omega)]
  · simp only [ringIndex_val]
    rw [queueBytes_append, queueBytes_single, List.length_append, ringRecord_length]
    omega

/-- The bytes the ring gives from an index on. -/
theorem State.ringGet_eq (s : State) (p n : Nat) :
    s.ringGet p n = (List.range n).map fun k => s.cell .qData ((p + k) % 4096) := by
  induction n generalizing p with
  | zero => rfl
  | succ n ih =>
    rw [State.ringGet, ih, List.range_succ_eq_map]
    simp [queueLen, Nat.add_comm, Nat.add_left_comm]

theorem RingHolds.cell {s : State} {rxq : List (List Byte)} (h : RingHolds s rxq) {i : Nat} {v : Byte}
    (hv : (queueBytes rxq)[i]? = some v) : s.cell .qData ((s.qOptr.val + i) % 4096) = v := by
  have hi : i < (queueBytes rxq).length := by
    rw [List.getElem?_eq_some_iff] at hv; exact hv.1
  exact State.cell_of_byteAt (by simp only [State.memory]; rw [h.stored i hi, hv])

/-- Everything QREAD can do: the oldest record comes out whole, or nothing does (44 R248). -/
theorem queueRead_spec {s : State} {rxq : List (List Byte)} (h : RingHolds s rxq) :
    (rxq = [] → s.queueRead = none) ∧
    (∀ rec rest, rxq = rec :: rest → ∃ t, s.queueRead = some (rec, t) ∧ RingHolds t rest ∧
      t = { s with qOptr := t.qOptr }) := by
  constructor
  · intro hnil
    simp [State.queueRead, h.empty_iff.2 hnil]
  · intro rec rest hcons
    have hsize := h.sizes rec (by simp [hcons])
    have hne : s.queueEmpty = false := by
      rw [Bool.eq_false_iff]; intro he; rw [h.empty_iff] at he; simp [he] at hcons
    have ho := s.qOptr.isLt
    have hbytes : queueBytes rxq =
        BitVec.ofNat 8 (rec.length % 256) :: BitVec.ofNat 8 (rec.length / 256) ::
          (rec ++ queueBytes rest) := by rw [hcons]; rfl
    have hlo : s.cell .qData s.qOptr.val = BitVec.ofNat 8 (rec.length % 256) := by
      have := h.cell (i := 0) (v := BitVec.ofNat 8 (rec.length % 256)) (by rw [hbytes]; rfl)
      rwa [Nat.add_zero, Nat.mod_eq_of_lt ho] at this
    have hhi : s.cell .qData ((s.qOptr.val + 1) % queueLen) = BitVec.ofNat 8 (rec.length / 256) :=
      h.cell (i := 1) (by rw [hbytes]; rfl)
    have hn : (s.cell .qData s.qOptr.val).toNat +
        256 * (s.cell .qData ((s.qOptr.val + 1) % queueLen)).toNat = rec.length := by
      rw [hlo, hhi, BitVec.toNat_ofNat, BitVec.toNat_ofNat]; omega
    have hget : s.ringGet (s.qOptr.val + 2) rec.length = rec := by
      rw [State.ringGet_eq]
      apply List.ext_getElem
      · simp
      · intro i h1 h2
        simp only [List.getElem_map, List.getElem_range]
        rw [Nat.add_assoc]
        refine h.cell ?_
        rw [hbytes, show 2 + i = i + 1 + 1 by omega, List.getElem?_cons_succ, List.getElem?_cons_succ,
          List.getElem?_append_left h2, List.getElem?_eq_getElem h2]
    have hlen : (queueBytes rxq).length = rec.length + 2 + (queueBytes rest).length := by
      rw [hbytes]; simp; omega
    have hfit := h.fits
    have hend := h.ends
    simp only [State.queueRead, hne, Bool.false_eq_true, if_false, hn, hget]
    refine ⟨_, rfl, ⟨fun r hr => h.sizes r (by simp [hcons, hr]), by omega, ?_, ?_⟩, rfl⟩
    · intro i hi
      have hst := h.stored (rec.length + 2 + i) (by omega)
      simp only [ringIndex_val]
      rw [show ((s.qOptr.val + 2 + rec.length) % 4096 + i) % 4096 =
        (s.qOptr.val + (rec.length + 2 + i)) % 4096 by omega, hst, hbytes,
        show rec.length + 2 + i = (rec.length + i) + 1 + 1 by omega, List.getElem?_cons_succ,
        List.getElem?_cons_succ, List.getElem?_append_right (by omega)]
      simp
    · simp only [ringIndex_val]
      omega

end Sys2Proof.Machine
end

