-- ==== Sys2Proof/Laws/State.lean ====
section
/-! SUPPORT. What each shared update of the state does to each field, so that no later proof unfolds a record
update: one lemma per field per update. -/

namespace Sys2Proof.Machine

section
variable (s : State) (l : List DteItem)

@[simp] theorem State.emit_session : (s.emit l).session = s.session := rfl
@[simp] theorem State.emit_t38Mode : (s.emit l).t38Mode = s.t38Mode := rfl
@[simp] theorem State.emit_modem : (s.emit l).modem = s.modem := rfl
@[simp] theorem State.emit_bitRate : (s.emit l).bitRate = s.bitRate := rfl
@[simp] theorem State.emit_shortTrain : (s.emit l).shortTrain = s.shortTrain := rfl
@[simp] theorem State.emit_atRxMode : (s.emit l).atRxMode = s.atRxMode := rfl
@[simp] theorem State.emit_transmit : (s.emit l).transmit = s.transmit := rfl
@[simp] theorem State.emit_dteIsWaiting : (s.emit l).dteIsWaiting = s.dteIsWaiting := rfl
@[simp] theorem State.emit_okIsPending : (s.emit l).okIsPending = s.okIsPending := rfl
@[simp] theorem State.emit_rxSignalPresent : (s.emit l).rxSignalPresent = s.rxSignalPresent := rfl
@[simp] theorem State.emit_rxTrained : (s.emit l).rxTrained = s.rxTrained := rfl
@[simp] theorem State.emit_dataFinal : (s.emit l).dataFinal = s.dataFinal := rfl
@[simp] theorem State.emit_rxMessageReceived : (s.emit l).rxMessageReceived = s.rxMessageReceived := rfl
@[simp] theorem State.emit_txData : (s.emit l).txData = s.txData := rfl
@[simp] theorem State.emit_txInBytes : (s.emit l).txInBytes = s.txInBytes := rfl
@[simp] theorem State.emit_txOutBytes : (s.emit l).txOutBytes = s.txOutBytes := rfl
@[simp] theorem State.emit_txHolding : (s.emit l).txHolding = s.txHolding := rfl
@[simp] theorem State.emit_txCurrentByte : (s.emit l).txCurrentByte = s.txCurrentByte := rfl
@[simp] theorem State.emit_txBitNo : (s.emit l).txBitNo = s.txBitNo := rfl
@[simp] theorem State.emit_txDataStarted : (s.emit l).txDataStarted = s.txDataStarted := rfl
@[simp] theorem State.emit_rxCurrentByte : (s.emit l).rxCurrentByte = s.rxCurrentByte := rfl
@[simp] theorem State.emit_rxBitNo : (s.emit l).rxBitNo = s.rxBitNo := rfl
@[simp] theorem State.emit_dled : (s.emit l).dled = s.dled := rfl
@[simp] theorem State.emit_hdlcTxBuf : (s.emit l).hdlcTxBuf = s.hdlcTxBuf := rfl
@[simp] theorem State.emit_hdlcTxLen : (s.emit l).hdlcTxLen = s.hdlcTxLen := rfl
@[simp] theorem State.emit_hdlcTxPtr : (s.emit l).hdlcTxPtr = s.hdlcTxPtr := rfl
@[simp] theorem State.emit_hdlcFinal : (s.emit l).hdlcFinal = s.hdlcFinal := rfl
@[simp] theorem State.emit_hdlcRxBuf : (s.emit l).hdlcRxBuf = s.hdlcRxBuf := rfl
@[simp] theorem State.emit_hdlcRxLen : (s.emit l).hdlcRxLen = s.hdlcRxLen := rfl
@[simp] theorem State.emit_missingData : (s.emit l).missingData = s.missingData := rfl
@[simp] theorem State.emit_rxHandler : (s.emit l).rxHandler = s.rxHandler := rfl
@[simp] theorem State.emit_txHandler : (s.emit l).txHandler = s.txHandler := rfl
@[simp] theorem State.emit_nextTxHandler : (s.emit l).nextTxHandler = s.nextTxHandler := rfl
@[simp] theorem State.emit_cfg : (s.emit l).cfg = s.cfg := rfl
@[simp] theorem State.emit_samples : (s.emit l).samples = s.samples := rfl
@[simp] theorem State.emit_callSamples : (s.emit l).callSamples = s.callSamples := rfl
@[simp] theorem State.emit_dteDataTimeout : (s.emit l).dteDataTimeout = s.dteDataTimeout := rfl
@[simp] theorem State.emit_silenceHeard : (s.emit l).silenceHeard = s.silenceHeard := rfl
@[simp] theorem State.emit_silenceAwaited : (s.emit l).silenceAwaited = s.silenceAwaited := rfl
@[simp] theorem State.emit_silenceTxRemaining : (s.emit l).silenceTxRemaining = s.silenceTxRemaining := rfl
@[simp] theorem State.emit_qData : (s.emit l).qData = s.qData := rfl
@[simp] theorem State.emit_qIptr : (s.emit l).qIptr = s.qIptr := rfl
@[simp] theorem State.emit_qOptr : (s.emit l).qOptr = s.qOptr := rfl
@[simp] theorem State.emit_useTep : (s.emit l).useTep = s.useTep := rfl
@[simp] theorem State.emit_transmitOnIdle : (s.emit l).transmitOnIdle = s.transmitOnIdle := rfl
@[simp] theorem State.emit_adaptiveReceive : (s.emit l).adaptiveReceive = s.adaptiveReceive := rfl
@[simp] theorem State.emit_s7 : (s.emit l).s7 = s.s7 := rfl
@[simp] theorem State.emit_dteTx : (s.emit l).dteTx = s.dteTx ++ l := rfl
@[simp] theorem State.emit_atCmd : (s.emit l).atCmd = s.atCmd := rfl
@[simp] theorem State.emit_modemCtrl : (s.emit l).modemCtrl = s.modemCtrl := rfl
@[simp] theorem State.emit_frameOut : (s.emit l).frameOut = s.frameOut := rfl
@[simp] theorem State.emit_log : (s.emit l).log = s.log := rfl
@[simp] theorem State.emit_ret : (s.emit l).ret = s.ret := rfl
@[simp] theorem State.emit_cmdIn : (s.emit l).cmdIn = s.cmdIn := rfl
@[simp] theorem State.emit_frameIn : (s.emit l).frameIn = s.frameIn := rfl
@[simp] theorem State.emit_dspIn : (s.emit l).dspIn = s.dspIn := rfl
@[simp] theorem State.emit_params : (s.emit l).params = s.params := rfl
@[simp] theorem State.emit_draws : (s.emit l).draws = s.draws := rfl

end

section
variable (s : State) (i : CtrlItem)

@[simp] theorem State.ctrl_session : (s.ctrl i).session = s.session := rfl
@[simp] theorem State.ctrl_t38Mode : (s.ctrl i).t38Mode = s.t38Mode := rfl
@[simp] theorem State.ctrl_modem : (s.ctrl i).modem = s.modem := rfl
@[simp] theorem State.ctrl_bitRate : (s.ctrl i).bitRate = s.bitRate := rfl
@[simp] theorem State.ctrl_shortTrain : (s.ctrl i).shortTrain = s.shortTrain := rfl
@[simp] theorem State.ctrl_atRxMode : (s.ctrl i).atRxMode = s.atRxMode := rfl
@[simp] theorem State.ctrl_transmit : (s.ctrl i).transmit = s.transmit := rfl
@[simp] theorem State.ctrl_dteIsWaiting : (s.ctrl i).dteIsWaiting = s.dteIsWaiting := rfl
@[simp] theorem State.ctrl_okIsPending : (s.ctrl i).okIsPending = s.okIsPending := rfl
@[simp] theorem State.ctrl_rxSignalPresent : (s.ctrl i).rxSignalPresent = s.rxSignalPresent := rfl
@[simp] theorem State.ctrl_rxTrained : (s.ctrl i).rxTrained = s.rxTrained := rfl
@[simp] theorem State.ctrl_dataFinal : (s.ctrl i).dataFinal = s.dataFinal := rfl
@[simp] theorem State.ctrl_rxMessageReceived : (s.ctrl i).rxMessageReceived = s.rxMessageReceived := rfl
@[simp] theorem State.ctrl_txData : (s.ctrl i).txData = s.txData := rfl
@[simp] theorem State.ctrl_txInBytes : (s.ctrl i).txInBytes = s.txInBytes := rfl
@[simp] theorem State.ctrl_txOutBytes : (s.ctrl i).txOutBytes = s.txOutBytes := rfl
@[simp] theorem State.ctrl_txHolding : (s.ctrl i).txHolding = s.txHolding := rfl
@[simp] theorem State.ctrl_txCurrentByte : (s.ctrl i).txCurrentByte = s.txCurrentByte := rfl
@[simp] theorem State.ctrl_txBitNo : (s.ctrl i).txBitNo = s.txBitNo := rfl
@[simp] theorem State.ctrl_txDataStarted : (s.ctrl i).txDataStarted = s.txDataStarted := rfl
@[simp] theorem State.ctrl_rxCurrentByte : (s.ctrl i).rxCurrentByte = s.rxCurrentByte := rfl
@[simp] theorem State.ctrl_rxBitNo : (s.ctrl i).rxBitNo = s.rxBitNo := rfl
@[simp] theorem State.ctrl_dled : (s.ctrl i).dled = s.dled := rfl
@[simp] theorem State.ctrl_hdlcTxBuf : (s.ctrl i).hdlcTxBuf = s.hdlcTxBuf := rfl
@[simp] theorem State.ctrl_hdlcTxLen : (s.ctrl i).hdlcTxLen = s.hdlcTxLen := rfl
@[simp] theorem State.ctrl_hdlcTxPtr : (s.ctrl i).hdlcTxPtr = s.hdlcTxPtr := rfl
@[simp] theorem State.ctrl_hdlcFinal : (s.ctrl i).hdlcFinal = s.hdlcFinal := rfl
@[simp] theorem State.ctrl_hdlcRxBuf : (s.ctrl i).hdlcRxBuf = s.hdlcRxBuf := rfl
@[simp] theorem State.ctrl_hdlcRxLen : (s.ctrl i).hdlcRxLen = s.hdlcRxLen := rfl
@[simp] theorem State.ctrl_missingData : (s.ctrl i).missingData = s.missingData := rfl
@[simp] theorem State.ctrl_rxHandler : (s.ctrl i).rxHandler = s.rxHandler := rfl
@[simp] theorem State.ctrl_txHandler : (s.ctrl i).txHandler = s.txHandler := rfl
@[simp] theorem State.ctrl_nextTxHandler : (s.ctrl i).nextTxHandler = s.nextTxHandler := rfl
@[simp] theorem State.ctrl_cfg : (s.ctrl i).cfg = s.cfg := rfl
@[simp] theorem State.ctrl_samples : (s.ctrl i).samples = s.samples := rfl
@[simp] theorem State.ctrl_callSamples : (s.ctrl i).callSamples = s.callSamples := rfl
@[simp] theorem State.ctrl_dteDataTimeout : (s.ctrl i).dteDataTimeout = s.dteDataTimeout := rfl
@[simp] theorem State.ctrl_silenceHeard : (s.ctrl i).silenceHeard = s.silenceHeard := rfl
@[simp] theorem State.ctrl_silenceAwaited : (s.ctrl i).silenceAwaited = s.silenceAwaited := rfl
@[simp] theorem State.ctrl_silenceTxRemaining : (s.ctrl i).silenceTxRemaining = s.silenceTxRemaining := rfl
@[simp] theorem State.ctrl_qData : (s.ctrl i).qData = s.qData := rfl
@[simp] theorem State.ctrl_qIptr : (s.ctrl i).qIptr = s.qIptr := rfl
@[simp] theorem State.ctrl_qOptr : (s.ctrl i).qOptr = s.qOptr := rfl
@[simp] theorem State.ctrl_useTep : (s.ctrl i).useTep = s.useTep := rfl
@[simp] theorem State.ctrl_transmitOnIdle : (s.ctrl i).transmitOnIdle = s.transmitOnIdle := rfl
@[simp] theorem State.ctrl_adaptiveReceive : (s.ctrl i).adaptiveReceive = s.adaptiveReceive := rfl
@[simp] theorem State.ctrl_s7 : (s.ctrl i).s7 = s.s7 := rfl
@[simp] theorem State.ctrl_dteTx : (s.ctrl i).dteTx = s.dteTx := rfl
@[simp] theorem State.ctrl_atCmd : (s.ctrl i).atCmd = s.atCmd := rfl
@[simp] theorem State.ctrl_modemCtrl : (s.ctrl i).modemCtrl = s.modemCtrl ++ [i] := rfl
@[simp] theorem State.ctrl_frameOut : (s.ctrl i).frameOut = s.frameOut := rfl
@[simp] theorem State.ctrl_log : (s.ctrl i).log = s.log := rfl
@[simp] theorem State.ctrl_ret : (s.ctrl i).ret = s.ret := rfl
@[simp] theorem State.ctrl_cmdIn : (s.ctrl i).cmdIn = s.cmdIn := rfl
@[simp] theorem State.ctrl_frameIn : (s.ctrl i).frameIn = s.frameIn := rfl
@[simp] theorem State.ctrl_dspIn : (s.ctrl i).dspIn = s.dspIn := rfl
@[simp] theorem State.ctrl_params : (s.ctrl i).params = s.params := rfl
@[simp] theorem State.ctrl_draws : (s.ctrl i).draws = s.draws := rfl

end

section
variable (s : State) (b : Byte)

@[simp] theorem State.fwdAt_session : (s.fwdAt b).session = s.session := rfl
@[simp] theorem State.fwdAt_t38Mode : (s.fwdAt b).t38Mode = s.t38Mode := rfl
@[simp] theorem State.fwdAt_modem : (s.fwdAt b).modem = s.modem := rfl
@[simp] theorem State.fwdAt_bitRate : (s.fwdAt b).bitRate = s.bitRate := rfl
@[simp] theorem State.fwdAt_shortTrain : (s.fwdAt b).shortTrain = s.shortTrain := rfl
@[simp] theorem State.fwdAt_atRxMode : (s.fwdAt b).atRxMode = s.atRxMode := rfl
@[simp] theorem State.fwdAt_transmit : (s.fwdAt b).transmit = s.transmit := rfl
@[simp] theorem State.fwdAt_dteIsWaiting : (s.fwdAt b).dteIsWaiting = s.dteIsWaiting := rfl
@[simp] theorem State.fwdAt_okIsPending : (s.fwdAt b).okIsPending = s.okIsPending := rfl
@[simp] theorem State.fwdAt_rxSignalPresent : (s.fwdAt b).rxSignalPresent = s.rxSignalPresent := rfl
@[simp] theorem State.fwdAt_rxTrained : (s.fwdAt b).rxTrained = s.rxTrained := rfl
@[simp] theorem State.fwdAt_dataFinal : (s.fwdAt b).dataFinal = s.dataFinal := rfl
@[simp] theorem State.fwdAt_rxMessageReceived : (s.fwdAt b).rxMessageReceived = s.rxMessageReceived := rfl
@[simp] theorem State.fwdAt_txData : (s.fwdAt b).txData = s.txData := rfl
@[simp] theorem State.fwdAt_txInBytes : (s.fwdAt b).txInBytes = s.txInBytes := rfl
@[simp] theorem State.fwdAt_txOutBytes : (s.fwdAt b).txOutBytes = s.txOutBytes := rfl
@[simp] theorem State.fwdAt_txHolding : (s.fwdAt b).txHolding = s.txHolding := rfl
@[simp] theorem State.fwdAt_txCurrentByte : (s.fwdAt b).txCurrentByte = s.txCurrentByte := rfl
@[simp] theorem State.fwdAt_txBitNo : (s.fwdAt b).txBitNo = s.txBitNo := rfl
@[simp] theorem State.fwdAt_txDataStarted : (s.fwdAt b).txDataStarted = s.txDataStarted := rfl
@[simp] theorem State.fwdAt_rxCurrentByte : (s.fwdAt b).rxCurrentByte = s.rxCurrentByte := rfl
@[simp] theorem State.fwdAt_rxBitNo : (s.fwdAt b).rxBitNo = s.rxBitNo := rfl
@[simp] theorem State.fwdAt_dled : (s.fwdAt b).dled = s.dled := rfl
@[simp] theorem State.fwdAt_hdlcTxBuf : (s.fwdAt b).hdlcTxBuf = s.hdlcTxBuf := rfl
@[simp] theorem State.fwdAt_hdlcTxLen : (s.fwdAt b).hdlcTxLen = s.hdlcTxLen := rfl
@[simp] theorem State.fwdAt_hdlcTxPtr : (s.fwdAt b).hdlcTxPtr = s.hdlcTxPtr := rfl
@[simp] theorem State.fwdAt_hdlcFinal : (s.fwdAt b).hdlcFinal = s.hdlcFinal := rfl
@[simp] theorem State.fwdAt_hdlcRxBuf : (s.fwdAt b).hdlcRxBuf = s.hdlcRxBuf := rfl
@[simp] theorem State.fwdAt_hdlcRxLen : (s.fwdAt b).hdlcRxLen = s.hdlcRxLen := rfl
@[simp] theorem State.fwdAt_missingData : (s.fwdAt b).missingData = s.missingData := rfl
@[simp] theorem State.fwdAt_rxHandler : (s.fwdAt b).rxHandler = s.rxHandler := rfl
@[simp] theorem State.fwdAt_txHandler : (s.fwdAt b).txHandler = s.txHandler := rfl
@[simp] theorem State.fwdAt_nextTxHandler : (s.fwdAt b).nextTxHandler = s.nextTxHandler := rfl
@[simp] theorem State.fwdAt_cfg : (s.fwdAt b).cfg = s.cfg := rfl
@[simp] theorem State.fwdAt_samples : (s.fwdAt b).samples = s.samples := rfl
@[simp] theorem State.fwdAt_callSamples : (s.fwdAt b).callSamples = s.callSamples := rfl
@[simp] theorem State.fwdAt_dteDataTimeout : (s.fwdAt b).dteDataTimeout = s.dteDataTimeout := rfl
@[simp] theorem State.fwdAt_silenceHeard : (s.fwdAt b).silenceHeard = s.silenceHeard := rfl
@[simp] theorem State.fwdAt_silenceAwaited : (s.fwdAt b).silenceAwaited = s.silenceAwaited := rfl
@[simp] theorem State.fwdAt_silenceTxRemaining : (s.fwdAt b).silenceTxRemaining = s.silenceTxRemaining := rfl
@[simp] theorem State.fwdAt_qData : (s.fwdAt b).qData = s.qData := rfl
@[simp] theorem State.fwdAt_qIptr : (s.fwdAt b).qIptr = s.qIptr := rfl
@[simp] theorem State.fwdAt_qOptr : (s.fwdAt b).qOptr = s.qOptr := rfl
@[simp] theorem State.fwdAt_useTep : (s.fwdAt b).useTep = s.useTep := rfl
@[simp] theorem State.fwdAt_transmitOnIdle : (s.fwdAt b).transmitOnIdle = s.transmitOnIdle := rfl
@[simp] theorem State.fwdAt_adaptiveReceive : (s.fwdAt b).adaptiveReceive = s.adaptiveReceive := rfl
@[simp] theorem State.fwdAt_s7 : (s.fwdAt b).s7 = s.s7 := rfl
@[simp] theorem State.fwdAt_dteTx : (s.fwdAt b).dteTx = s.dteTx := rfl
@[simp] theorem State.fwdAt_atCmd : (s.fwdAt b).atCmd = s.atCmd ++ [b] := rfl
@[simp] theorem State.fwdAt_modemCtrl : (s.fwdAt b).modemCtrl = s.modemCtrl := rfl
@[simp] theorem State.fwdAt_frameOut : (s.fwdAt b).frameOut = s.frameOut := rfl
@[simp] theorem State.fwdAt_log : (s.fwdAt b).log = s.log := rfl
@[simp] theorem State.fwdAt_ret : (s.fwdAt b).ret = s.ret := rfl
@[simp] theorem State.fwdAt_cmdIn : (s.fwdAt b).cmdIn = s.cmdIn := rfl
@[simp] theorem State.fwdAt_frameIn : (s.fwdAt b).frameIn = s.frameIn := rfl
@[simp] theorem State.fwdAt_dspIn : (s.fwdAt b).dspIn = s.dspIn := rfl
@[simp] theorem State.fwdAt_params : (s.fwdAt b).params = s.params := rfl
@[simp] theorem State.fwdAt_draws : (s.fwdAt b).draws = s.draws := rfl

end

section
variable (s : State) (i : FrameOutItem)

@[simp] theorem State.submit_session : (s.submit i).session = s.session := rfl
@[simp] theorem State.submit_t38Mode : (s.submit i).t38Mode = s.t38Mode := rfl
@[simp] theorem State.submit_modem : (s.submit i).modem = s.modem := rfl
@[simp] theorem State.submit_bitRate : (s.submit i).bitRate = s.bitRate := rfl
@[simp] theorem State.submit_shortTrain : (s.submit i).shortTrain = s.shortTrain := rfl
@[simp] theorem State.submit_atRxMode : (s.submit i).atRxMode = s.atRxMode := rfl
@[simp] theorem State.submit_transmit : (s.submit i).transmit = s.transmit := rfl
@[simp] theorem State.submit_dteIsWaiting : (s.submit i).dteIsWaiting = s.dteIsWaiting := rfl
@[simp] theorem State.submit_okIsPending : (s.submit i).okIsPending = s.okIsPending := rfl
@[simp] theorem State.submit_rxSignalPresent : (s.submit i).rxSignalPresent = s.rxSignalPresent := rfl
@[simp] theorem State.submit_rxTrained : (s.submit i).rxTrained = s.rxTrained := rfl
@[simp] theorem State.submit_dataFinal : (s.submit i).dataFinal = s.dataFinal := rfl
@[simp] theorem State.submit_rxMessageReceived : (s.submit i).rxMessageReceived = s.rxMessageReceived := rfl
@[simp] theorem State.submit_txData : (s.submit i).txData = s.txData := rfl
@[simp] theorem State.submit_txInBytes : (s.submit i).txInBytes = s.txInBytes := rfl
@[simp] theorem State.submit_txOutBytes : (s.submit i).txOutBytes = s.txOutBytes := rfl
@[simp] theorem State.submit_txHolding : (s.submit i).txHolding = s.txHolding := rfl
@[simp] theorem State.submit_txCurrentByte : (s.submit i).txCurrentByte = s.txCurrentByte := rfl
@[simp] theorem State.submit_txBitNo : (s.submit i).txBitNo = s.txBitNo := rfl
@[simp] theorem State.submit_txDataStarted : (s.submit i).txDataStarted = s.txDataStarted := rfl
@[simp] theorem State.submit_rxCurrentByte : (s.submit i).rxCurrentByte = s.rxCurrentByte := rfl
@[simp] theorem State.submit_rxBitNo : (s.submit i).rxBitNo = s.rxBitNo := rfl
@[simp] theorem State.submit_dled : (s.submit i).dled = s.dled := rfl
@[simp] theorem State.submit_hdlcTxBuf : (s.submit i).hdlcTxBuf = s.hdlcTxBuf := rfl
@[simp] theorem State.submit_hdlcTxLen : (s.submit i).hdlcTxLen = s.hdlcTxLen := rfl
@[simp] theorem State.submit_hdlcTxPtr : (s.submit i).hdlcTxPtr = s.hdlcTxPtr := rfl
@[simp] theorem State.submit_hdlcFinal : (s.submit i).hdlcFinal = s.hdlcFinal := rfl
@[simp] theorem State.submit_hdlcRxBuf : (s.submit i).hdlcRxBuf = s.hdlcRxBuf := rfl
@[simp] theorem State.submit_hdlcRxLen : (s.submit i).hdlcRxLen = s.hdlcRxLen := rfl
@[simp] theorem State.submit_missingData : (s.submit i).missingData = s.missingData := rfl
@[simp] theorem State.submit_rxHandler : (s.submit i).rxHandler = s.rxHandler := rfl
@[simp] theorem State.submit_txHandler : (s.submit i).txHandler = s.txHandler := rfl
@[simp] theorem State.submit_nextTxHandler : (s.submit i).nextTxHandler = s.nextTxHandler := rfl
@[simp] theorem State.submit_cfg : (s.submit i).cfg = s.cfg := rfl
@[simp] theorem State.submit_samples : (s.submit i).samples = s.samples := rfl
@[simp] theorem State.submit_callSamples : (s.submit i).callSamples = s.callSamples := rfl
@[simp] theorem State.submit_dteDataTimeout : (s.submit i).dteDataTimeout = s.dteDataTimeout := rfl
@[simp] theorem State.submit_silenceHeard : (s.submit i).silenceHeard = s.silenceHeard := rfl
@[simp] theorem State.submit_silenceAwaited : (s.submit i).silenceAwaited = s.silenceAwaited := rfl
@[simp] theorem State.submit_silenceTxRemaining : (s.submit i).silenceTxRemaining = s.silenceTxRemaining := rfl
@[simp] theorem State.submit_qData : (s.submit i).qData = s.qData := rfl
@[simp] theorem State.submit_qIptr : (s.submit i).qIptr = s.qIptr := rfl
@[simp] theorem State.submit_qOptr : (s.submit i).qOptr = s.qOptr := rfl
@[simp] theorem State.submit_useTep : (s.submit i).useTep = s.useTep := rfl
@[simp] theorem State.submit_transmitOnIdle : (s.submit i).transmitOnIdle = s.transmitOnIdle := rfl
@[simp] theorem State.submit_adaptiveReceive : (s.submit i).adaptiveReceive = s.adaptiveReceive := rfl
@[simp] theorem State.submit_s7 : (s.submit i).s7 = s.s7 := rfl
@[simp] theorem State.submit_dteTx : (s.submit i).dteTx = s.dteTx := rfl
@[simp] theorem State.submit_atCmd : (s.submit i).atCmd = s.atCmd := rfl
@[simp] theorem State.submit_modemCtrl : (s.submit i).modemCtrl = s.modemCtrl := rfl
@[simp] theorem State.submit_frameOut : (s.submit i).frameOut = s.frameOut ++ [i] := rfl
@[simp] theorem State.submit_log : (s.submit i).log = s.log := rfl
@[simp] theorem State.submit_ret : (s.submit i).ret = s.ret := rfl
@[simp] theorem State.submit_cmdIn : (s.submit i).cmdIn = s.cmdIn := rfl
@[simp] theorem State.submit_frameIn : (s.submit i).frameIn = s.frameIn := rfl
@[simp] theorem State.submit_dspIn : (s.submit i).dspIn = s.dspIn := rfl
@[simp] theorem State.submit_params : (s.submit i).params = s.params := rfl
@[simp] theorem State.submit_draws : (s.submit i).draws = s.draws := rfl

end

section
variable (s : State) (r : Ret)

@[simp] theorem State.returns_session : (s.returns r).session = s.session := rfl
@[simp] theorem State.returns_t38Mode : (s.returns r).t38Mode = s.t38Mode := rfl
@[simp] theorem State.returns_modem : (s.returns r).modem = s.modem := rfl
@[simp] theorem State.returns_bitRate : (s.returns r).bitRate = s.bitRate := rfl
@[simp] theorem State.returns_shortTrain : (s.returns r).shortTrain = s.shortTrain := rfl
@[simp] theorem State.returns_atRxMode : (s.returns r).atRxMode = s.atRxMode := rfl
@[simp] theorem State.returns_transmit : (s.returns r).transmit = s.transmit := rfl
@[simp] theorem State.returns_dteIsWaiting : (s.returns r).dteIsWaiting = s.dteIsWaiting := rfl
@[simp] theorem State.returns_okIsPending : (s.returns r).okIsPending = s.okIsPending := rfl
@[simp] theorem State.returns_rxSignalPresent : (s.returns r).rxSignalPresent = s.rxSignalPresent := rfl
@[simp] theorem State.returns_rxTrained : (s.returns r).rxTrained = s.rxTrained := rfl
@[simp] theorem State.returns_dataFinal : (s.returns r).dataFinal = s.dataFinal := rfl
@[simp] theorem State.returns_rxMessageReceived : (s.returns r).rxMessageReceived = s.rxMessageReceived := rfl
@[simp] theorem State.returns_txData : (s.returns r).txData = s.txData := rfl
@[simp] theorem State.returns_txInBytes : (s.returns r).txInBytes = s.txInBytes := rfl
@[simp] theorem State.returns_txOutBytes : (s.returns r).txOutBytes = s.txOutBytes := rfl
@[simp] theorem State.returns_txHolding : (s.returns r).txHolding = s.txHolding := rfl
@[simp] theorem State.returns_txCurrentByte : (s.returns r).txCurrentByte = s.txCurrentByte := rfl
@[simp] theorem State.returns_txBitNo : (s.returns r).txBitNo = s.txBitNo := rfl
@[simp] theorem State.returns_txDataStarted : (s.returns r).txDataStarted = s.txDataStarted := rfl
@[simp] theorem State.returns_rxCurrentByte : (s.returns r).rxCurrentByte = s.rxCurrentByte := rfl
@[simp] theorem State.returns_rxBitNo : (s.returns r).rxBitNo = s.rxBitNo := rfl
@[simp] theorem State.returns_dled : (s.returns r).dled = s.dled := rfl
@[simp] theorem State.returns_hdlcTxBuf : (s.returns r).hdlcTxBuf = s.hdlcTxBuf := rfl
@[simp] theorem State.returns_hdlcTxLen : (s.returns r).hdlcTxLen = s.hdlcTxLen := rfl
@[simp] theorem State.returns_hdlcTxPtr : (s.returns r).hdlcTxPtr = s.hdlcTxPtr := rfl
@[simp] theorem State.returns_hdlcFinal : (s.returns r).hdlcFinal = s.hdlcFinal := rfl
@[simp] theorem State.returns_hdlcRxBuf : (s.returns r).hdlcRxBuf = s.hdlcRxBuf := rfl
@[simp] theorem State.returns_hdlcRxLen : (s.returns r).hdlcRxLen = s.hdlcRxLen := rfl
@[simp] theorem State.returns_missingData : (s.returns r).missingData = s.missingData := rfl
@[simp] theorem State.returns_rxHandler : (s.returns r).rxHandler = s.rxHandler := rfl
@[simp] theorem State.returns_txHandler : (s.returns r).txHandler = s.txHandler := rfl
@[simp] theorem State.returns_nextTxHandler : (s.returns r).nextTxHandler = s.nextTxHandler := rfl
@[simp] theorem State.returns_cfg : (s.returns r).cfg = s.cfg := rfl
@[simp] theorem State.returns_samples : (s.returns r).samples = s.samples := rfl
@[simp] theorem State.returns_callSamples : (s.returns r).callSamples = s.callSamples := rfl
@[simp] theorem State.returns_dteDataTimeout : (s.returns r).dteDataTimeout = s.dteDataTimeout := rfl
@[simp] theorem State.returns_silenceHeard : (s.returns r).silenceHeard = s.silenceHeard := rfl
@[simp] theorem State.returns_silenceAwaited : (s.returns r).silenceAwaited = s.silenceAwaited := rfl
@[simp] theorem State.returns_silenceTxRemaining : (s.returns r).silenceTxRemaining = s.silenceTxRemaining := rfl
@[simp] theorem State.returns_qData : (s.returns r).qData = s.qData := rfl
@[simp] theorem State.returns_qIptr : (s.returns r).qIptr = s.qIptr := rfl
@[simp] theorem State.returns_qOptr : (s.returns r).qOptr = s.qOptr := rfl
@[simp] theorem State.returns_useTep : (s.returns r).useTep = s.useTep := rfl
@[simp] theorem State.returns_transmitOnIdle : (s.returns r).transmitOnIdle = s.transmitOnIdle := rfl
@[simp] theorem State.returns_adaptiveReceive : (s.returns r).adaptiveReceive = s.adaptiveReceive := rfl
@[simp] theorem State.returns_s7 : (s.returns r).s7 = s.s7 := rfl
@[simp] theorem State.returns_dteTx : (s.returns r).dteTx = s.dteTx := rfl
@[simp] theorem State.returns_atCmd : (s.returns r).atCmd = s.atCmd := rfl
@[simp] theorem State.returns_modemCtrl : (s.returns r).modemCtrl = s.modemCtrl := rfl
@[simp] theorem State.returns_frameOut : (s.returns r).frameOut = s.frameOut := rfl
@[simp] theorem State.returns_log : (s.returns r).log = s.log := rfl
@[simp] theorem State.returns_ret : (s.returns r).ret = r := rfl
@[simp] theorem State.returns_cmdIn : (s.returns r).cmdIn = s.cmdIn := rfl
@[simp] theorem State.returns_frameIn : (s.returns r).frameIn = s.frameIn := rfl
@[simp] theorem State.returns_dspIn : (s.returns r).dspIn = s.dspIn := rfl
@[simp] theorem State.returns_params : (s.returns r).params = s.params := rfl
@[simp] theorem State.returns_draws : (s.returns r).draws = s.draws := rfl

end

section
variable (s : State)

@[simp] theorem State.refuse_session : s.refuse.session = s.session := rfl
@[simp] theorem State.refuse_t38Mode : s.refuse.t38Mode = s.t38Mode := rfl
@[simp] theorem State.refuse_modem : s.refuse.modem = s.modem := rfl
@[simp] theorem State.refuse_bitRate : s.refuse.bitRate = s.bitRate := rfl
@[simp] theorem State.refuse_shortTrain : s.refuse.shortTrain = s.shortTrain := rfl
@[simp] theorem State.refuse_atRxMode : s.refuse.atRxMode = s.atRxMode := rfl
@[simp] theorem State.refuse_transmit : s.refuse.transmit = s.transmit := rfl
@[simp] theorem State.refuse_dteIsWaiting : s.refuse.dteIsWaiting = s.dteIsWaiting := rfl
@[simp] theorem State.refuse_okIsPending : s.refuse.okIsPending = s.okIsPending := rfl
@[simp] theorem State.refuse_rxSignalPresent : s.refuse.rxSignalPresent = s.rxSignalPresent := rfl
@[simp] theorem State.refuse_rxTrained : s.refuse.rxTrained = s.rxTrained := rfl
@[simp] theorem State.refuse_dataFinal : s.refuse.dataFinal = s.dataFinal := rfl
@[simp] theorem State.refuse_rxMessageReceived : s.refuse.rxMessageReceived = s.rxMessageReceived := rfl
@[simp] theorem State.refuse_txData : s.refuse.txData = s.txData := rfl
@[simp] theorem State.refuse_txInBytes : s.refuse.txInBytes = s.txInBytes := rfl
@[simp] theorem State.refuse_txOutBytes : s.refuse.txOutBytes = s.txOutBytes := rfl
@[simp] theorem State.refuse_txHolding : s.refuse.txHolding = s.txHolding := rfl
@[simp] theorem State.refuse_txCurrentByte : s.refuse.txCurrentByte = s.txCurrentByte := rfl
@[simp] theorem State.refuse_txBitNo : s.refuse.txBitNo = s.txBitNo := rfl
@[simp] theorem State.refuse_txDataStarted : s.refuse.txDataStarted = s.txDataStarted := rfl
@[simp] theorem State.refuse_rxCurrentByte : s.refuse.rxCurrentByte = s.rxCurrentByte := rfl
@[simp] theorem State.refuse_rxBitNo : s.refuse.rxBitNo = s.rxBitNo := rfl
@[simp] theorem State.refuse_dled : s.refuse.dled = s.dled := rfl
@[simp] theorem State.refuse_hdlcTxBuf : s.refuse.hdlcTxBuf = s.hdlcTxBuf := rfl
@[simp] theorem State.refuse_hdlcTxLen : s.refuse.hdlcTxLen = s.hdlcTxLen := rfl
@[simp] theorem State.refuse_hdlcTxPtr : s.refuse.hdlcTxPtr = s.hdlcTxPtr := rfl
@[simp] theorem State.refuse_hdlcFinal : s.refuse.hdlcFinal = s.hdlcFinal := rfl
@[simp] theorem State.refuse_hdlcRxBuf : s.refuse.hdlcRxBuf = s.hdlcRxBuf := rfl
@[simp] theorem State.refuse_hdlcRxLen : s.refuse.hdlcRxLen = s.hdlcRxLen := rfl
@[simp] theorem State.refuse_missingData : s.refuse.missingData = s.missingData := rfl
@[simp] theorem State.refuse_rxHandler : s.refuse.rxHandler = s.rxHandler := rfl
@[simp] theorem State.refuse_txHandler : s.refuse.txHandler = s.txHandler := rfl
@[simp] theorem State.refuse_nextTxHandler : s.refuse.nextTxHandler = s.nextTxHandler := rfl
@[simp] theorem State.refuse_cfg : s.refuse.cfg = s.cfg := rfl
@[simp] theorem State.refuse_samples : s.refuse.samples = s.samples := rfl
@[simp] theorem State.refuse_callSamples : s.refuse.callSamples = s.callSamples := rfl
@[simp] theorem State.refuse_dteDataTimeout : s.refuse.dteDataTimeout = s.dteDataTimeout := rfl
@[simp] theorem State.refuse_silenceHeard : s.refuse.silenceHeard = s.silenceHeard := rfl
@[simp] theorem State.refuse_silenceAwaited : s.refuse.silenceAwaited = s.silenceAwaited := rfl
@[simp] theorem State.refuse_silenceTxRemaining : s.refuse.silenceTxRemaining = s.silenceTxRemaining := rfl
@[simp] theorem State.refuse_qData : s.refuse.qData = s.qData := rfl
@[simp] theorem State.refuse_qIptr : s.refuse.qIptr = s.qIptr := rfl
@[simp] theorem State.refuse_qOptr : s.refuse.qOptr = s.qOptr := rfl
@[simp] theorem State.refuse_useTep : s.refuse.useTep = s.useTep := rfl
@[simp] theorem State.refuse_transmitOnIdle : s.refuse.transmitOnIdle = s.transmitOnIdle := rfl
@[simp] theorem State.refuse_adaptiveReceive : s.refuse.adaptiveReceive = s.adaptiveReceive := rfl
@[simp] theorem State.refuse_s7 : s.refuse.s7 = s.s7 := rfl
@[simp] theorem State.refuse_dteTx : s.refuse.dteTx = s.dteTx := rfl
@[simp] theorem State.refuse_atCmd : s.refuse.atCmd = s.atCmd := rfl
@[simp] theorem State.refuse_modemCtrl : s.refuse.modemCtrl = s.modemCtrl := rfl
@[simp] theorem State.refuse_frameOut : s.refuse.frameOut = s.frameOut := rfl
@[simp] theorem State.refuse_log : s.refuse.log = s.log := rfl
@[simp] theorem State.refuse_ret : s.refuse.ret = .refused := rfl
@[simp] theorem State.refuse_cmdIn : s.refuse.cmdIn = s.cmdIn := rfl
@[simp] theorem State.refuse_frameIn : s.refuse.frameIn = s.frameIn := rfl
@[simp] theorem State.refuse_dspIn : s.refuse.dspIn = s.dspIn := rfl
@[simp] theorem State.refuse_params : s.refuse.params = s.params := rfl
@[simp] theorem State.refuse_draws : s.refuse.draws = s.draws := rfl

end

section
variable (s : State) (k : ErrorKind)

@[simp] theorem State.raise_session : (s.raise k).session = s.session := rfl
@[simp] theorem State.raise_t38Mode : (s.raise k).t38Mode = s.t38Mode := rfl
@[simp] theorem State.raise_modem : (s.raise k).modem = s.modem := rfl
@[simp] theorem State.raise_bitRate : (s.raise k).bitRate = s.bitRate := rfl
@[simp] theorem State.raise_shortTrain : (s.raise k).shortTrain = s.shortTrain := rfl
@[simp] theorem State.raise_atRxMode : (s.raise k).atRxMode = s.atRxMode := rfl
@[simp] theorem State.raise_transmit : (s.raise k).transmit = s.transmit := rfl
@[simp] theorem State.raise_dteIsWaiting : (s.raise k).dteIsWaiting = s.dteIsWaiting := rfl
@[simp] theorem State.raise_okIsPending : (s.raise k).okIsPending = s.okIsPending := rfl
@[simp] theorem State.raise_rxSignalPresent : (s.raise k).rxSignalPresent = s.rxSignalPresent := rfl
@[simp] theorem State.raise_rxTrained : (s.raise k).rxTrained = s.rxTrained := rfl
@[simp] theorem State.raise_dataFinal : (s.raise k).dataFinal = s.dataFinal := rfl
@[simp] theorem State.raise_rxMessageReceived : (s.raise k).rxMessageReceived = s.rxMessageReceived := rfl
@[simp] theorem State.raise_txData : (s.raise k).txData = s.txData := rfl
@[simp] theorem State.raise_txInBytes : (s.raise k).txInBytes = s.txInBytes := rfl
@[simp] theorem State.raise_txOutBytes : (s.raise k).txOutBytes = s.txOutBytes := rfl
@[simp] theorem State.raise_txHolding : (s.raise k).txHolding = s.txHolding := rfl
@[simp] theorem State.raise_txCurrentByte : (s.raise k).txCurrentByte = s.txCurrentByte := rfl
@[simp] theorem State.raise_txBitNo : (s.raise k).txBitNo = s.txBitNo := rfl
@[simp] theorem State.raise_txDataStarted : (s.raise k).txDataStarted = s.txDataStarted := rfl
@[simp] theorem State.raise_rxCurrentByte : (s.raise k).rxCurrentByte = s.rxCurrentByte := rfl
@[simp] theorem State.raise_rxBitNo : (s.raise k).rxBitNo = s.rxBitNo := rfl
@[simp] theorem State.raise_dled : (s.raise k).dled = s.dled := rfl
@[simp] theorem State.raise_hdlcTxBuf : (s.raise k).hdlcTxBuf = s.hdlcTxBuf := rfl
@[simp] theorem State.raise_hdlcTxLen : (s.raise k).hdlcTxLen = s.hdlcTxLen := rfl
@[simp] theorem State.raise_hdlcTxPtr : (s.raise k).hdlcTxPtr = s.hdlcTxPtr := rfl
@[simp] theorem State.raise_hdlcFinal : (s.raise k).hdlcFinal = s.hdlcFinal := rfl
@[simp] theorem State.raise_hdlcRxBuf : (s.raise k).hdlcRxBuf = s.hdlcRxBuf := rfl
@[simp] theorem State.raise_hdlcRxLen : (s.raise k).hdlcRxLen = s.hdlcRxLen := rfl
@[simp] theorem State.raise_missingData : (s.raise k).missingData = s.missingData := rfl
@[simp] theorem State.raise_rxHandler : (s.raise k).rxHandler = s.rxHandler := rfl
@[simp] theorem State.raise_txHandler : (s.raise k).txHandler = s.txHandler := rfl
@[simp] theorem State.raise_nextTxHandler : (s.raise k).nextTxHandler = s.nextTxHandler := rfl
@[simp] theorem State.raise_cfg : (s.raise k).cfg = s.cfg := rfl
@[simp] theorem State.raise_samples : (s.raise k).samples = s.samples := rfl
@[simp] theorem State.raise_callSamples : (s.raise k).callSamples = s.callSamples := rfl
@[simp] theorem State.raise_dteDataTimeout : (s.raise k).dteDataTimeout = s.dteDataTimeout := rfl
@[simp] theorem State.raise_silenceHeard : (s.raise k).silenceHeard = s.silenceHeard := rfl
@[simp] theorem State.raise_silenceAwaited : (s.raise k).silenceAwaited = s.silenceAwaited := rfl
@[simp] theorem State.raise_silenceTxRemaining : (s.raise k).silenceTxRemaining = s.silenceTxRemaining := rfl
@[simp] theorem State.raise_qData : (s.raise k).qData = s.qData := rfl
@[simp] theorem State.raise_qIptr : (s.raise k).qIptr = s.qIptr := rfl
@[simp] theorem State.raise_qOptr : (s.raise k).qOptr = s.qOptr := rfl
@[simp] theorem State.raise_useTep : (s.raise k).useTep = s.useTep := rfl
@[simp] theorem State.raise_transmitOnIdle : (s.raise k).transmitOnIdle = s.transmitOnIdle := rfl
@[simp] theorem State.raise_adaptiveReceive : (s.raise k).adaptiveReceive = s.adaptiveReceive := rfl
@[simp] theorem State.raise_s7 : (s.raise k).s7 = s.s7 := rfl
@[simp] theorem State.raise_dteTx : (s.raise k).dteTx = s.dteTx := rfl
@[simp] theorem State.raise_atCmd : (s.raise k).atCmd = s.atCmd := rfl
@[simp] theorem State.raise_modemCtrl : (s.raise k).modemCtrl = s.modemCtrl := rfl
@[simp] theorem State.raise_frameOut : (s.raise k).frameOut = s.frameOut := rfl
@[simp] theorem State.raise_log : (s.raise k).log = s.log ++ [k] := rfl
@[simp] theorem State.raise_ret : (s.raise k).ret = s.ret := rfl
@[simp] theorem State.raise_cmdIn : (s.raise k).cmdIn = s.cmdIn := rfl
@[simp] theorem State.raise_frameIn : (s.raise k).frameIn = s.frameIn := rfl
@[simp] theorem State.raise_dspIn : (s.raise k).dspIn = s.dspIn := rfl
@[simp] theorem State.raise_params : (s.raise k).params = s.params := rfl
@[simp] theorem State.raise_draws : (s.raise k).draws = s.draws := rfl

end

section
variable (s : State) (v : AtRxMode)

@[simp] theorem State.setAtRxMode_session : (s.setAtRxMode v).session = s.session := rfl
@[simp] theorem State.setAtRxMode_t38Mode : (s.setAtRxMode v).t38Mode = s.t38Mode := rfl
@[simp] theorem State.setAtRxMode_modem : (s.setAtRxMode v).modem = s.modem := rfl
@[simp] theorem State.setAtRxMode_bitRate : (s.setAtRxMode v).bitRate = s.bitRate := rfl
@[simp] theorem State.setAtRxMode_shortTrain : (s.setAtRxMode v).shortTrain = s.shortTrain := rfl
@[simp] theorem State.setAtRxMode_atRxMode : (s.setAtRxMode v).atRxMode = v := rfl
@[simp] theorem State.setAtRxMode_transmit : (s.setAtRxMode v).transmit = s.transmit := rfl
@[simp] theorem State.setAtRxMode_dteIsWaiting : (s.setAtRxMode v).dteIsWaiting = s.dteIsWaiting := rfl
@[simp] theorem State.setAtRxMode_okIsPending : (s.setAtRxMode v).okIsPending = s.okIsPending := rfl
@[simp] theorem State.setAtRxMode_rxSignalPresent : (s.setAtRxMode v).rxSignalPresent = s.rxSignalPresent := rfl
@[simp] theorem State.setAtRxMode_rxTrained : (s.setAtRxMode v).rxTrained = s.rxTrained := rfl
@[simp] theorem State.setAtRxMode_dataFinal : (s.setAtRxMode v).dataFinal = s.dataFinal := rfl
@[simp] theorem State.setAtRxMode_rxMessageReceived : (s.setAtRxMode v).rxMessageReceived = s.rxMessageReceived := rfl
@[simp] theorem State.setAtRxMode_txData : (s.setAtRxMode v).txData = s.txData := rfl
@[simp] theorem State.setAtRxMode_txInBytes : (s.setAtRxMode v).txInBytes = s.txInBytes := rfl
@[simp] theorem State.setAtRxMode_txOutBytes : (s.setAtRxMode v).txOutBytes = s.txOutBytes := rfl
@[simp] theorem State.setAtRxMode_txHolding : (s.setAtRxMode v).txHolding = s.txHolding := rfl
@[simp] theorem State.setAtRxMode_txCurrentByte : (s.setAtRxMode v).txCurrentByte = s.txCurrentByte := rfl
@[simp] theorem State.setAtRxMode_txBitNo : (s.setAtRxMode v).txBitNo = s.txBitNo := rfl
@[simp] theorem State.setAtRxMode_txDataStarted : (s.setAtRxMode v).txDataStarted = s.txDataStarted := rfl
@[simp] theorem State.setAtRxMode_rxCurrentByte : (s.setAtRxMode v).rxCurrentByte = s.rxCurrentByte := rfl
@[simp] theorem State.setAtRxMode_rxBitNo : (s.setAtRxMode v).rxBitNo = s.rxBitNo := rfl
@[simp] theorem State.setAtRxMode_dled : (s.setAtRxMode v).dled = s.dled := rfl
@[simp] theorem State.setAtRxMode_hdlcTxBuf : (s.setAtRxMode v).hdlcTxBuf = s.hdlcTxBuf := rfl
@[simp] theorem State.setAtRxMode_hdlcTxLen : (s.setAtRxMode v).hdlcTxLen = s.hdlcTxLen := rfl
@[simp] theorem State.setAtRxMode_hdlcTxPtr : (s.setAtRxMode v).hdlcTxPtr = s.hdlcTxPtr := rfl
@[simp] theorem State.setAtRxMode_hdlcFinal : (s.setAtRxMode v).hdlcFinal = s.hdlcFinal := rfl
@[simp] theorem State.setAtRxMode_hdlcRxBuf : (s.setAtRxMode v).hdlcRxBuf = s.hdlcRxBuf := rfl
@[simp] theorem State.setAtRxMode_hdlcRxLen : (s.setAtRxMode v).hdlcRxLen = s.hdlcRxLen := rfl
@[simp] theorem State.setAtRxMode_missingData : (s.setAtRxMode v).missingData = s.missingData := rfl
@[simp] theorem State.setAtRxMode_rxHandler : (s.setAtRxMode v).rxHandler = s.rxHandler := rfl
@[simp] theorem State.setAtRxMode_txHandler : (s.setAtRxMode v).txHandler = s.txHandler := rfl
@[simp] theorem State.setAtRxMode_nextTxHandler : (s.setAtRxMode v).nextTxHandler = s.nextTxHandler := rfl
@[simp] theorem State.setAtRxMode_cfg : (s.setAtRxMode v).cfg = s.cfg := rfl
@[simp] theorem State.setAtRxMode_samples : (s.setAtRxMode v).samples = s.samples := rfl
@[simp] theorem State.setAtRxMode_callSamples : (s.setAtRxMode v).callSamples = s.callSamples := rfl
@[simp] theorem State.setAtRxMode_dteDataTimeout : (s.setAtRxMode v).dteDataTimeout = if v = .hdlc then s.dteDataTimeout else 0 := rfl
@[simp] theorem State.setAtRxMode_silenceHeard : (s.setAtRxMode v).silenceHeard = s.silenceHeard := rfl
@[simp] theorem State.setAtRxMode_silenceAwaited : (s.setAtRxMode v).silenceAwaited = s.silenceAwaited := rfl
@[simp] theorem State.setAtRxMode_silenceTxRemaining : (s.setAtRxMode v).silenceTxRemaining = s.silenceTxRemaining := rfl
@[simp] theorem State.setAtRxMode_qData : (s.setAtRxMode v).qData = s.qData := rfl
@[simp] theorem State.setAtRxMode_qIptr : (s.setAtRxMode v).qIptr = s.qIptr := rfl
@[simp] theorem State.setAtRxMode_qOptr : (s.setAtRxMode v).qOptr = s.qOptr := rfl
@[simp] theorem State.setAtRxMode_useTep : (s.setAtRxMode v).useTep = s.useTep := rfl
@[simp] theorem State.setAtRxMode_transmitOnIdle : (s.setAtRxMode v).transmitOnIdle = s.transmitOnIdle := rfl
@[simp] theorem State.setAtRxMode_adaptiveReceive : (s.setAtRxMode v).adaptiveReceive = s.adaptiveReceive := rfl
@[simp] theorem State.setAtRxMode_s7 : (s.setAtRxMode v).s7 = s.s7 := rfl
@[simp] theorem State.setAtRxMode_dteTx : (s.setAtRxMode v).dteTx = s.dteTx := rfl
@[simp] theorem State.setAtRxMode_atCmd : (s.setAtRxMode v).atCmd = s.atCmd := rfl
@[simp] theorem State.setAtRxMode_modemCtrl : (s.setAtRxMode v).modemCtrl = s.modemCtrl := rfl
@[simp] theorem State.setAtRxMode_frameOut : (s.setAtRxMode v).frameOut = s.frameOut := rfl
@[simp] theorem State.setAtRxMode_log : (s.setAtRxMode v).log = s.log := rfl
@[simp] theorem State.setAtRxMode_ret : (s.setAtRxMode v).ret = s.ret := rfl
@[simp] theorem State.setAtRxMode_cmdIn : (s.setAtRxMode v).cmdIn = s.cmdIn := rfl
@[simp] theorem State.setAtRxMode_frameIn : (s.setAtRxMode v).frameIn = s.frameIn := rfl
@[simp] theorem State.setAtRxMode_dspIn : (s.setAtRxMode v).dspIn = s.dspIn := rfl
@[simp] theorem State.setAtRxMode_params : (s.setAtRxMode v).params = s.params := rfl
@[simp] theorem State.setAtRxMode_draws : (s.setAtRxMode v).draws = s.draws := rfl

end

section
variable (s : State)

@[simp] theorem State.armDteTimeout_session : s.armDteTimeout.session = s.session := rfl
@[simp] theorem State.armDteTimeout_t38Mode : s.armDteTimeout.t38Mode = s.t38Mode := rfl
@[simp] theorem State.armDteTimeout_modem : s.armDteTimeout.modem = s.modem := rfl
@[simp] theorem State.armDteTimeout_bitRate : s.armDteTimeout.bitRate = s.bitRate := rfl
@[simp] theorem State.armDteTimeout_shortTrain : s.armDteTimeout.shortTrain = s.shortTrain := rfl
@[simp] theorem State.armDteTimeout_atRxMode : s.armDteTimeout.atRxMode = s.atRxMode := rfl
@[simp] theorem State.armDteTimeout_transmit : s.armDteTimeout.transmit = s.transmit := rfl
@[simp] theorem State.armDteTimeout_dteIsWaiting : s.armDteTimeout.dteIsWaiting = s.dteIsWaiting := rfl
@[simp] theorem State.armDteTimeout_okIsPending : s.armDteTimeout.okIsPending = s.okIsPending := rfl
@[simp] theorem State.armDteTimeout_rxSignalPresent : s.armDteTimeout.rxSignalPresent = s.rxSignalPresent := rfl
@[simp] theorem State.armDteTimeout_rxTrained : s.armDteTimeout.rxTrained = s.rxTrained := rfl
@[simp] theorem State.armDteTimeout_dataFinal : s.armDteTimeout.dataFinal = s.dataFinal := rfl
@[simp] theorem State.armDteTimeout_rxMessageReceived : s.armDteTimeout.rxMessageReceived = s.rxMessageReceived := rfl
@[simp] theorem State.armDteTimeout_txData : s.armDteTimeout.txData = s.txData := rfl
@[simp] theorem State.armDteTimeout_txInBytes : s.armDteTimeout.txInBytes = s.txInBytes := rfl
@[simp] theorem State.armDteTimeout_txOutBytes : s.armDteTimeout.txOutBytes = s.txOutBytes := rfl
@[simp] theorem State.armDteTimeout_txHolding : s.armDteTimeout.txHolding = s.txHolding := rfl
@[simp] theorem State.armDteTimeout_txCurrentByte : s.armDteTimeout.txCurrentByte = s.txCurrentByte := rfl
@[simp] theorem State.armDteTimeout_txBitNo : s.armDteTimeout.txBitNo = s.txBitNo := rfl
@[simp] theorem State.armDteTimeout_txDataStarted : s.armDteTimeout.txDataStarted = s.txDataStarted := rfl
@[simp] theorem State.armDteTimeout_rxCurrentByte : s.armDteTimeout.rxCurrentByte = s.rxCurrentByte := rfl
@[simp] theorem State.armDteTimeout_rxBitNo : s.armDteTimeout.rxBitNo = s.rxBitNo := rfl
@[simp] theorem State.armDteTimeout_dled : s.armDteTimeout.dled = s.dled := rfl
@[simp] theorem State.armDteTimeout_hdlcTxBuf : s.armDteTimeout.hdlcTxBuf = s.hdlcTxBuf := rfl
@[simp] theorem State.armDteTimeout_hdlcTxLen : s.armDteTimeout.hdlcTxLen = s.hdlcTxLen := rfl
@[simp] theorem State.armDteTimeout_hdlcTxPtr : s.armDteTimeout.hdlcTxPtr = s.hdlcTxPtr := rfl
@[simp] theorem State.armDteTimeout_hdlcFinal : s.armDteTimeout.hdlcFinal = s.hdlcFinal := rfl
@[simp] theorem State.armDteTimeout_hdlcRxBuf : s.armDteTimeout.hdlcRxBuf = s.hdlcRxBuf := rfl
@[simp] theorem State.armDteTimeout_hdlcRxLen : s.armDteTimeout.hdlcRxLen = s.hdlcRxLen := rfl
@[simp] theorem State.armDteTimeout_missingData : s.armDteTimeout.missingData = s.missingData := rfl
@[simp] theorem State.armDteTimeout_rxHandler : s.armDteTimeout.rxHandler = s.rxHandler := rfl
@[simp] theorem State.armDteTimeout_txHandler : s.armDteTimeout.txHandler = s.txHandler := rfl
@[simp] theorem State.armDteTimeout_nextTxHandler : s.armDteTimeout.nextTxHandler = s.nextTxHandler := rfl
@[simp] theorem State.armDteTimeout_cfg : s.armDteTimeout.cfg = s.cfg := rfl
@[simp] theorem State.armDteTimeout_samples : s.armDteTimeout.samples = s.samples := rfl
@[simp] theorem State.armDteTimeout_callSamples : s.armDteTimeout.callSamples = s.callSamples := rfl
@[simp] theorem State.armDteTimeout_dteDataTimeout : s.armDteTimeout.dteDataTimeout = s.callSamples + 40000 := rfl
@[simp] theorem State.armDteTimeout_silenceHeard : s.armDteTimeout.silenceHeard = s.silenceHeard := rfl
@[simp] theorem State.armDteTimeout_silenceAwaited : s.armDteTimeout.silenceAwaited = s.silenceAwaited := rfl
@[simp] theorem State.armDteTimeout_silenceTxRemaining : s.armDteTimeout.silenceTxRemaining = s.silenceTxRemaining := rfl
@[simp] theorem State.armDteTimeout_qData : s.armDteTimeout.qData = s.qData := rfl
@[simp] theorem State.armDteTimeout_qIptr : s.armDteTimeout.qIptr = s.qIptr := rfl
@[simp] theorem State.armDteTimeout_qOptr : s.armDteTimeout.qOptr = s.qOptr := rfl
@[simp] theorem State.armDteTimeout_useTep : s.armDteTimeout.useTep = s.useTep := rfl
@[simp] theorem State.armDteTimeout_transmitOnIdle : s.armDteTimeout.transmitOnIdle = s.transmitOnIdle := rfl
@[simp] theorem State.armDteTimeout_adaptiveReceive : s.armDteTimeout.adaptiveReceive = s.adaptiveReceive := rfl
@[simp] theorem State.armDteTimeout_s7 : s.armDteTimeout.s7 = s.s7 := rfl
@[simp] theorem State.armDteTimeout_dteTx : s.armDteTimeout.dteTx = s.dteTx := rfl
@[simp] theorem State.armDteTimeout_atCmd : s.armDteTimeout.atCmd = s.atCmd := rfl
@[simp] theorem State.armDteTimeout_modemCtrl : s.armDteTimeout.modemCtrl = s.modemCtrl := rfl
@[simp] theorem State.armDteTimeout_frameOut : s.armDteTimeout.frameOut = s.frameOut := rfl
@[simp] theorem State.armDteTimeout_log : s.armDteTimeout.log = s.log := rfl
@[simp] theorem State.armDteTimeout_ret : s.armDteTimeout.ret = s.ret := rfl
@[simp] theorem State.armDteTimeout_cmdIn : s.armDteTimeout.cmdIn = s.cmdIn := rfl
@[simp] theorem State.armDteTimeout_frameIn : s.armDteTimeout.frameIn = s.frameIn := rfl
@[simp] theorem State.armDteTimeout_dspIn : s.armDteTimeout.dspIn = s.dspIn := rfl
@[simp] theorem State.armDteTimeout_params : s.armDteTimeout.params = s.params := rfl
@[simp] theorem State.armDteTimeout_draws : s.armDteTimeout.draws = s.draws := rfl

end

section
variable (s : State) (m : Option Mode)

@[simp] theorem State.setModem_session : (s.setModem m).session = s.session := rfl
@[simp] theorem State.setModem_t38Mode : (s.setModem m).t38Mode = s.t38Mode := rfl
@[simp] theorem State.setModem_modem : (s.setModem m).modem = m := rfl
@[simp] theorem State.setModem_bitRate : (s.setModem m).bitRate = s.bitRate := rfl
@[simp] theorem State.setModem_shortTrain : (s.setModem m).shortTrain = s.shortTrain := rfl
@[simp] theorem State.setModem_atRxMode : (s.setModem m).atRxMode = s.atRxMode := rfl
@[simp] theorem State.setModem_transmit : (s.setModem m).transmit = s.transmit := rfl
@[simp] theorem State.setModem_dteIsWaiting : (s.setModem m).dteIsWaiting = s.dteIsWaiting := rfl
@[simp] theorem State.setModem_okIsPending : (s.setModem m).okIsPending = s.okIsPending := rfl
@[simp] theorem State.setModem_rxSignalPresent : (s.setModem m).rxSignalPresent = s.rxSignalPresent := rfl
@[simp] theorem State.setModem_rxTrained : (s.setModem m).rxTrained = s.rxTrained := rfl
@[simp] theorem State.setModem_dataFinal : (s.setModem m).dataFinal = s.dataFinal := rfl
@[simp] theorem State.setModem_rxMessageReceived : (s.setModem m).rxMessageReceived = s.rxMessageReceived := rfl
@[simp] theorem State.setModem_txData : (s.setModem m).txData = s.txData := rfl
@[simp] theorem State.setModem_txInBytes : (s.setModem m).txInBytes = s.txInBytes := rfl
@[simp] theorem State.setModem_txOutBytes : (s.setModem m).txOutBytes = s.txOutBytes := rfl
@[simp] theorem State.setModem_txHolding : (s.setModem m).txHolding = s.txHolding := rfl
@[simp] theorem State.setModem_txCurrentByte : (s.setModem m).txCurrentByte = s.txCurrentByte := rfl
@[simp] theorem State.setModem_txBitNo : (s.setModem m).txBitNo = s.txBitNo := rfl
@[simp] theorem State.setModem_txDataStarted : (s.setModem m).txDataStarted = s.txDataStarted := rfl
@[simp] theorem State.setModem_rxCurrentByte : (s.setModem m).rxCurrentByte = s.rxCurrentByte := rfl
@[simp] theorem State.setModem_rxBitNo : (s.setModem m).rxBitNo = s.rxBitNo := rfl
@[simp] theorem State.setModem_dled : (s.setModem m).dled = s.dled := rfl
@[simp] theorem State.setModem_hdlcTxBuf : (s.setModem m).hdlcTxBuf = s.hdlcTxBuf := rfl
@[simp] theorem State.setModem_hdlcTxLen : (s.setModem m).hdlcTxLen = s.hdlcTxLen := rfl
@[simp] theorem State.setModem_hdlcTxPtr : (s.setModem m).hdlcTxPtr = s.hdlcTxPtr := rfl
@[simp] theorem State.setModem_hdlcFinal : (s.setModem m).hdlcFinal = s.hdlcFinal := rfl
@[simp] theorem State.setModem_hdlcRxBuf : (s.setModem m).hdlcRxBuf = s.hdlcRxBuf := rfl
@[simp] theorem State.setModem_hdlcRxLen : (s.setModem m).hdlcRxLen = s.hdlcRxLen := rfl
@[simp] theorem State.setModem_missingData : (s.setModem m).missingData = s.missingData := rfl
@[simp] theorem State.setModem_rxHandler : (s.setModem m).rxHandler = s.rxHandler := rfl
@[simp] theorem State.setModem_txHandler : (s.setModem m).txHandler = s.txHandler := rfl
@[simp] theorem State.setModem_nextTxHandler : (s.setModem m).nextTxHandler = s.nextTxHandler := rfl
@[simp] theorem State.setModem_cfg : (s.setModem m).cfg = cfgUnder m s.cfg (Config.freeCfg s.draws) := rfl
@[simp] theorem State.setModem_samples : (s.setModem m).samples = s.samples := rfl
@[simp] theorem State.setModem_callSamples : (s.setModem m).callSamples = s.callSamples := rfl
@[simp] theorem State.setModem_dteDataTimeout : (s.setModem m).dteDataTimeout = s.dteDataTimeout := rfl
@[simp] theorem State.setModem_silenceHeard : (s.setModem m).silenceHeard = s.silenceHeard := rfl
@[simp] theorem State.setModem_silenceAwaited : (s.setModem m).silenceAwaited = s.silenceAwaited := rfl
@[simp] theorem State.setModem_silenceTxRemaining : (s.setModem m).silenceTxRemaining = s.silenceTxRemaining := rfl
@[simp] theorem State.setModem_qData : (s.setModem m).qData = s.qData := rfl
@[simp] theorem State.setModem_qIptr : (s.setModem m).qIptr = s.qIptr := rfl
@[simp] theorem State.setModem_qOptr : (s.setModem m).qOptr = s.qOptr := rfl
@[simp] theorem State.setModem_useTep : (s.setModem m).useTep = s.useTep := rfl
@[simp] theorem State.setModem_transmitOnIdle : (s.setModem m).transmitOnIdle = s.transmitOnIdle := rfl
@[simp] theorem State.setModem_adaptiveReceive : (s.setModem m).adaptiveReceive = s.adaptiveReceive := rfl
@[simp] theorem State.setModem_s7 : (s.setModem m).s7 = s.s7 := rfl
@[simp] theorem State.setModem_dteTx : (s.setModem m).dteTx = s.dteTx := rfl
@[simp] theorem State.setModem_atCmd : (s.setModem m).atCmd = s.atCmd := rfl
@[simp] theorem State.setModem_modemCtrl : (s.setModem m).modemCtrl = s.modemCtrl := rfl
@[simp] theorem State.setModem_frameOut : (s.setModem m).frameOut = s.frameOut := rfl
@[simp] theorem State.setModem_log : (s.setModem m).log = s.log := rfl
@[simp] theorem State.setModem_ret : (s.setModem m).ret = s.ret := rfl
@[simp] theorem State.setModem_cmdIn : (s.setModem m).cmdIn = s.cmdIn := rfl
@[simp] theorem State.setModem_frameIn : (s.setModem m).frameIn = s.frameIn := rfl
@[simp] theorem State.setModem_dspIn : (s.setModem m).dspIn = s.dspIn := rfl
@[simp] theorem State.setModem_params : (s.setModem m).params = s.params := rfl
@[simp] theorem State.setModem_draws : (s.setModem m).draws = s.draws + 1 := rfl

end

section
variable (s : State)

@[simp] theorem State.queueFlush_session : s.queueFlush.session = s.session := rfl
@[simp] theorem State.queueFlush_t38Mode : s.queueFlush.t38Mode = s.t38Mode := rfl
@[simp] theorem State.queueFlush_modem : s.queueFlush.modem = s.modem := rfl
@[simp] theorem State.queueFlush_bitRate : s.queueFlush.bitRate = s.bitRate := rfl
@[simp] theorem State.queueFlush_shortTrain : s.queueFlush.shortTrain = s.shortTrain := rfl
@[simp] theorem State.queueFlush_atRxMode : s.queueFlush.atRxMode = s.atRxMode := rfl
@[simp] theorem State.queueFlush_transmit : s.queueFlush.transmit = s.transmit := rfl
@[simp] theorem State.queueFlush_dteIsWaiting : s.queueFlush.dteIsWaiting = s.dteIsWaiting := rfl
@[simp] theorem State.queueFlush_okIsPending : s.queueFlush.okIsPending = s.okIsPending := rfl
@[simp] theorem State.queueFlush_rxSignalPresent : s.queueFlush.rxSignalPresent = s.rxSignalPresent := rfl
@[simp] theorem State.queueFlush_rxTrained : s.queueFlush.rxTrained = s.rxTrained := rfl
@[simp] theorem State.queueFlush_dataFinal : s.queueFlush.dataFinal = s.dataFinal := rfl
@[simp] theorem State.queueFlush_rxMessageReceived : s.queueFlush.rxMessageReceived = s.rxMessageReceived := rfl
@[simp] theorem State.queueFlush_txData : s.queueFlush.txData = s.txData := rfl
@[simp] theorem State.queueFlush_txInBytes : s.queueFlush.txInBytes = s.txInBytes := rfl
@[simp] theorem State.queueFlush_txOutBytes : s.queueFlush.txOutBytes = s.txOutBytes := rfl
@[simp] theorem State.queueFlush_txHolding : s.queueFlush.txHolding = s.txHolding := rfl
@[simp] theorem State.queueFlush_txCurrentByte : s.queueFlush.txCurrentByte = s.txCurrentByte := rfl
@[simp] theorem State.queueFlush_txBitNo : s.queueFlush.txBitNo = s.txBitNo := rfl
@[simp] theorem State.queueFlush_txDataStarted : s.queueFlush.txDataStarted = s.txDataStarted := rfl
@[simp] theorem State.queueFlush_rxCurrentByte : s.queueFlush.rxCurrentByte = s.rxCurrentByte := rfl
@[simp] theorem State.queueFlush_rxBitNo : s.queueFlush.rxBitNo = s.rxBitNo := rfl
@[simp] theorem State.queueFlush_dled : s.queueFlush.dled = s.dled := rfl
@[simp] theorem State.queueFlush_hdlcTxBuf : s.queueFlush.hdlcTxBuf = s.hdlcTxBuf := rfl
@[simp] theorem State.queueFlush_hdlcTxLen : s.queueFlush.hdlcTxLen = s.hdlcTxLen := rfl
@[simp] theorem State.queueFlush_hdlcTxPtr : s.queueFlush.hdlcTxPtr = s.hdlcTxPtr := rfl
@[simp] theorem State.queueFlush_hdlcFinal : s.queueFlush.hdlcFinal = s.hdlcFinal := rfl
@[simp] theorem State.queueFlush_hdlcRxBuf : s.queueFlush.hdlcRxBuf = s.hdlcRxBuf := rfl
@[simp] theorem State.queueFlush_hdlcRxLen : s.queueFlush.hdlcRxLen = s.hdlcRxLen := rfl
@[simp] theorem State.queueFlush_missingData : s.queueFlush.missingData = s.missingData := rfl
@[simp] theorem State.queueFlush_rxHandler : s.queueFlush.rxHandler = s.rxHandler := rfl
@[simp] theorem State.queueFlush_txHandler : s.queueFlush.txHandler = s.txHandler := rfl
@[simp] theorem State.queueFlush_nextTxHandler : s.queueFlush.nextTxHandler = s.nextTxHandler := rfl
@[simp] theorem State.queueFlush_cfg : s.queueFlush.cfg = s.cfg := rfl
@[simp] theorem State.queueFlush_samples : s.queueFlush.samples = s.samples := rfl
@[simp] theorem State.queueFlush_callSamples : s.queueFlush.callSamples = s.callSamples := rfl
@[simp] theorem State.queueFlush_dteDataTimeout : s.queueFlush.dteDataTimeout = s.dteDataTimeout := rfl
@[simp] theorem State.queueFlush_silenceHeard : s.queueFlush.silenceHeard = s.silenceHeard := rfl
@[simp] theorem State.queueFlush_silenceAwaited : s.queueFlush.silenceAwaited = s.silenceAwaited := rfl
@[simp] theorem State.queueFlush_silenceTxRemaining : s.queueFlush.silenceTxRemaining = s.silenceTxRemaining := rfl
@[simp] theorem State.queueFlush_qData : s.queueFlush.qData = s.qData := rfl
@[simp] theorem State.queueFlush_qIptr : s.queueFlush.qIptr = 0 := rfl
@[simp] theorem State.queueFlush_qOptr : s.queueFlush.qOptr = 0 := rfl
@[simp] theorem State.queueFlush_useTep : s.queueFlush.useTep = s.useTep := rfl
@[simp] theorem State.queueFlush_transmitOnIdle : s.queueFlush.transmitOnIdle = s.transmitOnIdle := rfl
@[simp] theorem State.queueFlush_adaptiveReceive : s.queueFlush.adaptiveReceive = s.adaptiveReceive := rfl
@[simp] theorem State.queueFlush_s7 : s.queueFlush.s7 = s.s7 := rfl
@[simp] theorem State.queueFlush_dteTx : s.queueFlush.dteTx = s.dteTx := rfl
@[simp] theorem State.queueFlush_atCmd : s.queueFlush.atCmd = s.atCmd := rfl
@[simp] theorem State.queueFlush_modemCtrl : s.queueFlush.modemCtrl = s.modemCtrl := rfl
@[simp] theorem State.queueFlush_frameOut : s.queueFlush.frameOut = s.frameOut := rfl
@[simp] theorem State.queueFlush_log : s.queueFlush.log = s.log := rfl
@[simp] theorem State.queueFlush_ret : s.queueFlush.ret = s.ret := rfl
@[simp] theorem State.queueFlush_cmdIn : s.queueFlush.cmdIn = s.cmdIn := rfl
@[simp] theorem State.queueFlush_frameIn : s.queueFlush.frameIn = s.frameIn := rfl
@[simp] theorem State.queueFlush_dspIn : s.queueFlush.dspIn = s.dspIn := rfl
@[simp] theorem State.queueFlush_params : s.queueFlush.params = s.params := rfl
@[simp] theorem State.queueFlush_draws : s.queueFlush.draws = s.draws := rfl

end

end Sys2Proof.Machine
end

