-- ==== Sys2Proof/Laws/Ops.lean ====
section
/-! SUPPORT. One lemma for each shared operation that says once everything it can do, for the proofs to cite
instead of unfolding it. -/

namespace Sys2Proof.Machine

/-- An operation other than INIT runs its body, or is refused (00 R9, 70 R330, 40 R142). -/
theorem operation_cases (s : State) (body : State → State) :
    (s.live = true ∧ operation s body = .next (body s)) ∨
      (s.live = false ∧ operation s body = .next s.refuse) := by
  cases h : s.live <;> simp [operation, h]

theorem operation_live {s : State} (body : State → State) (h : s.live = true) :
    operation s body = .next (body s) := by simp [operation, h]

theorem operation_dead {s : State} (body : State → State) (h : s.live = false) :
    operation s body = .next s.refuse := by simp [operation, h]

theorem operationFaulting_live {s : State} (body : State → Host.Outcome State Fault Refusal)
    (h : s.live = true) : operationFaulting s body = body s := by simp [operationFaulting, h]

theorem operationFaulting_dead {s : State} (body : State → Host.Outcome State Fault Refusal)
    (h : s.live = false) : operationFaulting s body = .next s.refuse := by simp [operationFaulting, h]

theorem live_iff (s : State) : s.live = true ↔ s.session = true ∧ s.t38Mode = false := by
  simp [State.live]

/-- The fields of `cfg` that a wiring writes are what its rule says, whatever the record was before. -/
theorem cfgOf_cfgWire (m : Mode) (rate : BitRate) (short : Bool) (c : DspCfg) :
    CfgOf m rate short (cfgWire m rate short c) := by
  constructor <;> intro h
  · subst h; simp [cfgWire]
  · subst h; simp [cfgWire]
  · rcases h with rfl | rfl | rfl | rfl | rfl | rfl <;> simp [cfgWire, cfgReceiver, cfgFast]
  · subst h; simp [cfgWire]
  · rcases h with (rfl | rfl | rfl) | rfl | rfl | rfl <;> simp [cfgWire, cfgFast]

/-- Everything the sub-step RESTART can do: nothing where the mode is active, else the prologue and the mode's
row (40 R120 to R135). -/
theorem restart_spec (m : Mode) (s : State) : Restarted m s (s.restart m) := by
  by_cases h : s.modem = some m
  · exact .inl ⟨h, by simp [State.restart, h]⟩
  · refine .inr ⟨h, _, s.draws + 1, cfgOf_cfgWire m s.bitRate s.shortTrain
      (cfgUnder (some m) s.cfg (Config.freeCfg s.draws)), ?_⟩
    simp only [State.restart, if_neg h]
    cases m <;>
      simp [State.wire, State.wireMode, State.wireHandlers, State.resetTransmitBuffer, State.setModem,
        State.prologue, State.queueFlush, afterRestart, modeRow, Mode.isFastTx]

/-- A waiting answer of a DSP primitive lies between 0 and the number of samples asked for (45 R278). -/
theorem dspProduced_spec (s : State) (h : TxHandler) (k : Nat) :
    (s.dspProduced h k).1 ≤ k ∧
      (s.dspProduced h k).2 =
        { s with dspIn := (s.dspProduced h k).2.dspIn, draws := (s.dspProduced h k).2.draws } := by
  unfold State.dspProduced
  split
  · exact ⟨Nat.min_le_right _ _, rfl⟩
  · exact ⟨Nat.min_le_right _ _, rfl⟩

/-- A handler yields at most what it is asked for, and only the silence counter, DSP_IN and the count of free
values move (45 R278). -/
theorem produce_spec (s : State) (h : TxHandler) (k : Nat) :
    (s.produce h k).1 ≤ k ∧
      (s.produce h k).2 =
        { s with
          silenceTxRemaining := (s.produce h k).2.silenceTxRemaining
          dspIn := (s.produce h k).2.dspIn
          draws := (s.produce h k).2.draws } := by
  cases h
  case none => exact ⟨Nat.zero_le _, rfl⟩
  case silence =>
    simp only [State.produce]
    cases s.silenceTxRemaining with
    | idle => exact ⟨Nat.le_refl _, rfl⟩
    | samples n => exact ⟨Nat.min_le_left _ _, rfl⟩
  all_goals
    simp only [State.produce]
    obtain ⟨h1, h2⟩ := dspProduced_spec s _ k
    exact ⟨h1, by rw [h2]⟩

/-- A record queued from inside the block is appended, or lost with BufferExhausted raised (44 R243). -/
theorem enqueue_spec {s : State} {rxq : List (List Byte)} (h : RingHolds s rxq) (rec : List Byte)
    (hrec : 1 ≤ rec.length ∧ rec.length ≤ 257) :
    (rec.length + 2 ≤ 4095 - (queueBytes rxq).length ∧ RingHolds (s.enqueue rec) (rxq ++ [rec]) ∧
        s.enqueue rec = { s with qData := (s.enqueue rec).qData, qIptr := (s.enqueue rec).qIptr } ∧
        (s.qData.wf = true → (s.enqueue rec).qData.wf = true) ∧
        (s.qData.below 4096 → (s.enqueue rec).qData.below 4096)) ∨
      (¬ rec.length + 2 ≤ 4095 - (queueBytes rxq).length ∧ s.enqueue rec = s.raise .bufferExhausted) := by
  obtain ⟨h1, h2⟩ := queueWrite_spec h rec hrec
  by_cases hfit : rec.length + 2 ≤ 4095 - (queueBytes rxq).length
  · obtain ⟨t, ht, hr, he, hw, hb⟩ := h1 hfit
    have : s.enqueue rec = t := by simp [State.enqueue, ht]
    rw [this]
    exact .inl ⟨hfit, hr, he, hw, hb⟩
  · exact .inr ⟨hfit, by simp [State.enqueue, h2 hfit]⟩

end Sys2Proof.Machine
end

