-- ==== Sys2Proof/Laws/BitPump.lean ====
section
/-! SUPPORT. The two shifters of the bit pump: one step in numbers, eight steps in bytes, and bit reversal
(20 R62 to R64, 43 R210, R212). -/

namespace Sys2Proof.Machine

/-- One more bit in the receive shifter, in numbers (20 R63). -/
theorem shiftInBit_toNat (o : PutBitOrder) (c : Byte) (bit : Bool) :
    (o = .msbFirst → (shiftInBit o c bit).toNat = (2 * c.toNat + bit.toNat) % 256) ∧
      (o = .lsbFirst → (shiftInBit o c bit).toNat = c.toNat / 2 + 128 * bit.toNat) := by
  revert c bit; cases o
  · simp only [forall_const, reduceCtorEq, false_implies, and_true]; decide
  · simp only [forall_const, true_and, reduceCtorEq, false_implies]; decide

theorem byte_ext {v w : Byte} (h : ∀ i, i < 8 → v.getLsbD i = w.getLsbD i) : v = w :=
  BitVec.eq_of_getLsbD_eq h

theorem getLsbD_0x80 (b : Bool) (j : Nat) :
    (if b then (0x80 : Byte) else 0x00).getLsbD j = (decide (j = 7) && b) := by
  cases b
  · simp
  · by_cases h : j < 8
    · have : j = 0 ∨ j = 1 ∨ j = 2 ∨ j = 3 ∨ j = 4 ∨ j = 5 ∨ j = 6 ∨ j = 7 := by omega
      rcases this with rfl | rfl | rfl | rfl | rfl | rfl | rfl | rfl <;> decide
    · rw [BitVec.getLsbD_of_ge _ _ (by omega)]; simp; omega

theorem getLsbD_0x01 (b : Bool) (j : Nat) :
    (if b then (0x01 : Byte) else 0x00).getLsbD j = (decide (j = 0) && b) := by
  cases b
  · simp
  · by_cases h : j < 8
    · have : j = 0 ∨ j = 1 ∨ j = 2 ∨ j = 3 ∨ j = 4 ∨ j = 5 ∨ j = 6 ∨ j = 7 := by omega
      rcases this with rfl | rfl | rfl | rfl | rfl | rfl | rfl | rfl <;> decide
    · rw [BitVec.getLsbD_of_ge _ _ (by omega)]; simp; omega

/-- Eight bits shifted in under LSB_FIRST, least significant first, are the byte. -/
theorem shiftInBit_lsbFirst_bits (c v : Byte) : (bitsLsbFirst v).foldl (shiftInBit .lsbFirst) c = v := by
  apply byte_ext
  intro i hi
  simp only [bitsLsbFirst, List.foldl, shiftInBit]
  have : i = 0 ∨ i = 1 ∨ i = 2 ∨ i = 3 ∨ i = 4 ∨ i = 5 ∨ i = 6 ∨ i = 7 := by omega
  rcases this with rfl | rfl | rfl | rfl | rfl | rfl | rfl | rfl <;>
    simp only [BitVec.getLsbD_or, BitVec.getLsbD_ushiftRight, getLsbD_0x80] <;> simp [BitVec.getLsbD_of_ge]

/-- Eight bits shifted in under MSB_FIRST, most significant first, are the byte. -/
theorem shiftInBit_msbFirst_bits (c v : Byte) :
    (bitsLsbFirst v).reverse.foldl (shiftInBit .msbFirst) c = v := by
  apply byte_ext
  intro i hi
  simp only [bitsLsbFirst, List.reverse_cons, List.reverse_nil, List.nil_append, List.cons_append, List.foldl,
    shiftInBit]
  have : i = 0 ∨ i = 1 ∨ i = 2 ∨ i = 3 ∨ i = 4 ∨ i = 5 ∨ i = 6 ∨ i = 7 := by omega
  rcases this with rfl | rfl | rfl | rfl | rfl | rfl | rfl | rfl <;>
    simp only [BitVec.getLsbD_or, BitVec.getLsbD_shiftLeft, getLsbD_0x01] <;> simp

theorem bitsLsbFirst_reverse (v : Byte) : (bitsLsbFirst v).reverse = bitsLsbFirst (bitrev8 v) := by
  revert v; decide

/-- Bit reversal is an involution (20 R64). -/
theorem bitrev8_bitrev8 (v : Byte) : bitrev8 (bitrev8 v) = v := by revert v; decide

/-- GETBIT runs join: the values of the first run, then those of the second. -/
theorem getBits_add (a b : Nat) (s t : State) (l : List Ret) (h : getBits a s = some (l, t)) :
    getBits (a + b) s = (getBits b t).map fun r => (l ++ r.1, r.2) := by
  induction a generalizing s l with
  | zero =>
    simp only [getBits, Option.some.injEq, Prod.mk.injEq] at h
    obtain ⟨rfl, rfl⟩ := h
    simp
  | succ a ih =>
    rw [show a + 1 + b = (a + b) + 1 by omega]
    simp only [getBits] at h ⊢
    split at h
    · rename_i u _
      simp only [Option.map_eq_some_iff] at h
      obtain ⟨⟨l', t'⟩, h1, h2⟩ := h
      simp only [Prod.mk.injEq] at h2
      obtain ⟨rfl, rfl⟩ := h2
      rw [ih u l' h1]
      simp [Option.map_map, Function.comp_def]
    · cases h
    · cases h

end Sys2Proof.Machine
end

