-- ==== Sys2Proof/Laws/Dte.lean ====
section
/-! SUPPORT. What the inbound codec's shared operations do: bytes laid into a memory one after another, the two
byte rules as one fold over the unstuffed bytes, the high-water check, the submit of a frame; and how sequences of
operations join. -/

namespace Sys2Proof.Machine

theorem laidInto_nil (m : Memory) (n : Nat) : LaidInto m m n [] := by
  intro i; rw [if_neg (by simp)]

/-- A store at the start and the rest laid in after it. -/
theorem laidInto_cons {m m' : Memory} {n : Nat} {x : Byte} {xs : List Byte}
    (h : LaidInto (m.put n x) m' (n + 1) xs) : LaidInto m m' n (x :: xs) := by
  intro i
  have h := h i
  rw [Memory.byteAt_put] at h
  rw [h]
  by_cases h1 : n + 1 ≤ i ∧ i < n + 1 + xs.length
  · rw [if_pos h1, if_pos (by simp; omega), show i - n = (i - (n + 1)) + 1 by omega]; rfl
  · rw [if_neg h1]
    by_cases h2 : i = n
    · rw [if_pos h2, if_pos (by simp; omega), h2]; simp
    · rw [if_neg h2, if_neg (by simp; omega)]

theorem laidInto_append {a b c : Memory} {n : Nat} {x y : List Byte} (h : LaidInto a b n x)
    (h2 : LaidInto b c (n + x.length) y) : LaidInto a c n (x ++ y) := by
  intro i
  rw [h2 i]
  have h := h i
  simp only [List.length_append]
  by_cases h3 : n + x.length ≤ i ∧ i < n + x.length + y.length
  · rw [if_pos h3, if_pos (by omega), List.getElem?_append_right (by omega)]
    congr 1; omega
  · rw [if_neg h3, h]
    by_cases h4 : n ≤ i ∧ i < n + x.length
    · rw [if_pos h4, if_pos (by omega), List.getElem?_append_left (by omega)]
    · rw [if_neg h4, if_neg (by omega)]

/-- Everything a run of `append` can do in HDLC mode: what fits is laid in, the rest is dropped and logged
(42 R182, R191). -/
theorem hdlcAppend_foldl (xs : List Byte) (s : State) : ∃ t : State, xs.foldl State.hdlcAppend s = t ∧
    LaidInto s.hdlcTxBuf t.hdlcTxBuf s.hdlcTxLen (xs.take (s.params.hdlcTxBufLen - s.hdlcTxLen)) ∧
    t = { s with
      hdlcTxBuf := t.hdlcTxBuf
      hdlcTxLen := s.hdlcTxLen + (xs.take (s.params.hdlcTxBufLen - s.hdlcTxLen)).length
      log := s.log ++ List.replicate
        (xs.length - (xs.take (s.params.hdlcTxBufLen - s.hdlcTxLen)).length) .bufferExhausted } := by
  induction xs generalizing s with
  | nil => exact ⟨s, rfl, by simpa using laidInto_nil _ _, by simp⟩
  | cons x xs ih =>
    obtain ⟨t, h1, h2, h3⟩ := ih (s.hdlcAppend x)
    refine ⟨t, h1, ?_⟩
    by_cases h : s.hdlcTxLen < s.params.hdlcTxBufLen
    · have h0 : s.hdlcAppend x =
          { s with hdlcTxBuf := s.hdlcTxBuf.put s.hdlcTxLen x, hdlcTxLen := s.hdlcTxLen + 1 } := by
        rw [State.hdlcAppend, if_pos h]
      obtain ⟨k, hk⟩ : ∃ k, s.params.hdlcTxBufLen - s.hdlcTxLen = k + 1 :=
        ⟨s.params.hdlcTxBufLen - s.hdlcTxLen - 1, by omega⟩
      have hk2 : s.params.hdlcTxBufLen - (s.hdlcTxLen + 1) = k := by omega
      rw [h0] at h2 h3
      simp only [hk2] at h2 h3
      rw [hk, List.take_succ_cons]
      refine ⟨laidInto_cons h2, ?_⟩
      rw [h3]
      simp [Nat.add_assoc, Nat.add_comm 1]
    · have h0 : s.hdlcAppend x = s.raise .bufferExhausted := by
        rw [State.hdlcAppend, if_neg h]
      have hk : s.params.hdlcTxBufLen - s.hdlcTxLen = 0 := by omega
      rw [h0] at h2 h3
      simp only [State.raise, hk, List.take_zero] at h2 h3 ⊢
      refine ⟨h2, ?_⟩
      rw [h3]
      simp [List.replicate_succ]

/-- Everything a run of `store` can do in STUFFED mode: what fits is laid in, the rest is dropped and logged
(42 R184, R191). -/
theorem stuffedStore_foldl (xs : List Byte) (s : State) : ∃ t : State, xs.foldl State.stuffedStore s = t ∧
    LaidInto s.txData t.txData s.txInBytes (xs.take (s.params.txBufLen - s.txInBytes)) ∧
    t = { s with
      txData := t.txData
      txInBytes := s.txInBytes + (xs.take (s.params.txBufLen - s.txInBytes)).length
      log := s.log ++ List.replicate
        (xs.length - (xs.take (s.params.txBufLen - s.txInBytes)).length) .bufferExhausted } := by
  induction xs generalizing s with
  | nil => exact ⟨s, rfl, by simpa using laidInto_nil _ _, by simp⟩
  | cons x xs ih =>
    obtain ⟨t, h1, h2, h3⟩ := ih (s.stuffedStore x)
    refine ⟨t, h1, ?_⟩
    by_cases h : s.txInBytes < s.params.txBufLen
    · have h0 : s.stuffedStore x =
          { s with txData := s.txData.put s.txInBytes x, txInBytes := s.txInBytes + 1 } := by
        rw [State.stuffedStore, if_pos h]
      obtain ⟨k, hk⟩ : ∃ k, s.params.txBufLen - s.txInBytes = k + 1 :=
        ⟨s.params.txBufLen - s.txInBytes - 1, by omega⟩
      have hk2 : s.params.txBufLen - (s.txInBytes + 1) = k := by omega
      rw [h0] at h2 h3
      simp only [hk2] at h2 h3
      rw [hk, List.take_succ_cons]
      refine ⟨laidInto_cons h2, ?_⟩
      rw [h3]
      simp [Nat.add_assoc, Nat.add_comm 1]
    · have h0 : s.stuffedStore x = s.raise .bufferExhausted := by
        rw [State.stuffedStore, if_neg h]
      have hk : s.params.txBufLen - s.txInBytes = 0 := by omega
      rw [h0] at h2 h3
      simp only [State.raise, hk, List.take_zero] at h2 h3 ⊢
      refine ⟨h2, ?_⟩
      rw [h3]
      simp [List.replicate_succ]

/-- A byte in HDLC mode that does not end a frame, as a run of `append` (42 R182). -/
theorem hdlcByte_eq (s : State) (b : Byte) (h : ¬ (s.dled = true ∧ b = 0x03)) :
    s.hdlcByte b = .next ((unstuffed s.dled b).foldl State.hdlcAppend
      { s with dteDataTimeout := s.callSamples + 40000, dled := !s.dled && b == 0x10 }) := by
  unfold State.hdlcByte unstuffed
  have e : s.armDteTimeout.dled = s.dled := rfl
  by_cases hd : s.dled = true
  · have h3 : ¬ b = 0x03 := fun h0 => h ⟨hd, h0⟩
    have e2 : (!s.dled && b == 0x10) = false := by rw [hd]; rfl
    simp only [e, e2]
    rw [if_pos hd, if_pos hd]
    by_cases h1 : b = 0x1A
    · subst h1; rfl
    · rw [if_neg h3, if_neg h1, if_neg h1]; rfl
  · have hf : s.dled = false := by simpa using hd
    simp only [e]
    rw [if_neg hd, if_neg hd]
    by_cases h1 : b = 0x10
    · have e2 : (!s.dled && b == 0x10) = true := by rw [hf, h1]; rfl
      rw [if_pos h1, if_pos h1, e2]; rfl
    · have e2 : (!s.dled && b == 0x10) = s.dled := by rw [hf]; simpa using h1
      rw [if_neg h1, if_neg h1, e2]; rfl

/-- The ETX of a DLE-ETX in HDLC mode submits the buffer (42 R183). -/
theorem hdlcByte_etx (s : State) (hd : s.dled = true) (hl : s.hdlcTxLen ≤ s.params.hdlcTxBufLen) :
    s.hdlcByte 3 =
      .next ({ s with dteDataTimeout := s.callSamples + 40000, dled := false } : State).submitHdlc := by
  simp [State.hdlcByte, State.armDteTimeout, hd, ETX, hl]

/-- The poll/final bit is bit 4 of the octet (30 R101). -/
theorem pollFinalBit_eq (octet : Byte) : pollFinalBit octet = octet.getLsbD 4 := by
  revert octet; decide

/-- Everything the high-water check can do (42 R186). -/
theorem checkHighWater_eq (s : State) : s.checkHighWater =
    { s with
      txHolding := s.txHolding || (!s.txHolding && decide (s.params.txBufLen - 1024 < s.txInBytes))
      modemCtrl := s.modemCtrl ++
        (if (!s.txHolding && decide (s.params.txBufLen - 1024 < s.txInBytes)) then [.cts false] else []) } := by
  by_cases h : (!s.txHolding && decide (s.params.txBufLen - 1024 < s.txInBytes)) = true
  · simp only [State.checkHighWater, State.highWater, txMark, h, if_true, Bool.or_true]; rfl
  · rw [Bool.not_eq_true] at h
    simp only [State.checkHighWater, State.highWater, txMark, h, Bool.false_eq_true, if_false, Bool.or_false,
      List.append_nil]

/-- A byte in STUFFED mode that does not end the data, as a run of `store` and the high-water check (42 R184). -/
theorem stuffedByte_eq (s : State) (b : Byte) (h : ¬ (s.dled = true ∧ b = 0x03)) :
    s.stuffedByte b = ((unstuffed s.dled b).foldl State.stuffedStore
      { s with dled := !s.dled && b == 0x10 }).checkHighWater := by
  unfold State.stuffedByte unstuffed
  congr 1
  by_cases hd : s.dled = true
  · have h3 : ¬ b = 0x03 := fun h0 => h ⟨hd, h0⟩
    have e2 : (!s.dled && b == 0x10) = false := by rw [hd]; rfl
    simp only [e2]
    rw [if_pos hd, if_pos hd]
    by_cases h1 : b = 0x1A
    · subst h1; rfl
    · rw [if_neg h3, if_neg h1, if_neg h1]; rfl
  · have hf : s.dled = false := by simpa using hd
    rw [if_neg hd, if_neg hd]
    by_cases h1 : b = 0x10
    · have e2 : (!s.dled && b == 0x10) = true := by rw [hf, h1]; rfl
      rw [if_pos h1, if_pos h1, e2]; rfl
    · have e2 : (!s.dled && b == 0x10) = s.dled := by rw [hf]; simpa using h1
      rw [if_neg h1, if_neg h1, e2]; rfl

/-! ### Sequences of operations -/

theorem execAll_append (a b : List Instr) (s t : State) (h : execAll a s = .next t) :
    execAll (a ++ b) s = execAll b t := by
  induction a generalizing s with
  | nil => simp only [execAll, Host.Outcome.next.injEq] at h; subst h; rfl
  | cons i a ih =>
    simp only [List.cons_append, execAll] at h ⊢
    split at h <;> simp_all

theorem atRx_append (a b : List Byte) : atRx (a ++ b) = atRx a ++ atRx b := by simp [atRx]

theorem stuff_cons (x : Byte) (p : List Byte) :
    stuff (x :: p) = (if x = DLE then [DLE, x] else [x]) ++ stuff p := by simp [stuff]

theorem stuff_append (a b : List Byte) : stuff (a ++ b) = stuff a ++ stuff b := by simp [stuff]

end Sys2Proof.Machine
end

