-- ==== Sys2Proof/Laws/Line.lean ====
section
/-! SUPPORT. What each of the three checks of RXS, a pull from a handler and the transmit completion can do
(45 R277 to R279; 60 R291, R292). -/

namespace Sys2Proof.Machine

/-- Everything `check_silence` can do (45 R277). -/
theorem checkSilence_eq (a : State) : a.checkSilence =
    (if a.silenceAwaited ≠ 0 ∧ a.silenceAwaited ≤ a.silenceHeard then
      { a with
        dteTx := a.dteTx ++ [.resp 0], atRxMode := .offhookCommand, dteDataTimeout := 0
        silenceAwaited := 0, silenceHeard := 0 }
    else a) := by
  by_cases h : a.silenceAwaited ≠ 0 ∧ a.silenceAwaited ≤ a.silenceHeard
  · rw [if_pos h, State.checkSilence, if_pos (by simpa [State.silenceReached] using h)]; rfl
  · rw [if_neg h, State.checkSilence, if_neg (by simpa [State.silenceReached] using h)]

/-- Everything `check_dte_timeout` can do (60 R291). -/
theorem checkDteTimeout_spec (b : State) :
    if b.dteDataTimeout ≠ 0 ∧ b.dteDataTimeout < b.callSamples then
      Restarted .silenceTx
        { b with
          log := b.log ++ [.dteTimeout], dteDataTimeout := 0, atRxMode := .offhookCommand
          dteTx := b.dteTx ++ [.resp 4] } b.checkDteTimeout
    else b.checkDteTimeout = b := by
  by_cases h : b.dteDataTimeout ≠ 0 ∧ b.dteDataTimeout < b.callSamples
  · rw [if_pos h, State.checkDteTimeout, if_pos (by simpa [State.dteTimeoutDue] using h)]
    exact restart_spec .silenceTx _
  · rw [if_neg h, State.checkDteTimeout, if_neg (by simpa [State.dteTimeoutDue] using h)]

/-- Everything `check_no_carrier` can do (60 R292). -/
theorem checkNoCarrier_spec (c : State) :
    if (c.modem = some .cng ∨ c.modem = some .nocng) ∧ c.s7.toNat * 8000 < c.callSamples then
      ∃ r, Restarted .silenceTx
          { c with log := c.log ++ [.noCarrierOnAnswer], dteTx := c.dteTx ++ [.resp 3] } r ∧ c.checkNoCarrier =
        { r with
          modemCtrl := r.modemCtrl ++ [.hangup], atRxMode := .onhookCommand, dteDataTimeout := 0
          dteIsWaiting := false }
    else c.checkNoCarrier = c := by
  by_cases h : (c.modem = some .cng ∨ c.modem = some .nocng) ∧ c.s7.toNat * 8000 < c.callSamples
  · rw [if_pos h, State.checkNoCarrier, if_pos (by simpa [State.noCarrierDue, State.inCng] using h)]
    have := restart_spec .silenceTx ((c.raise .noCarrierOnAnswer).emitResp .noCarrier)
    generalize State.restart ((c.raise .noCarrierOnAnswer).emitResp .noCarrier) .silenceTx = r at *
    exact ⟨r, this, rfl⟩
  · rw [if_neg h, State.checkNoCarrier, if_neg (by simpa [State.noCarrierDue, State.inCng] using h)]

theorem dspProduced_produced (s : State) (h : TxHandler) (k : Nat) (h1 : h ≠ .silence) (h2 : h ≠ .none) :
    Produced s h k (s.dspProduced h k).1 (s.dspProduced h k).2 := by
  refine .inr (.inr (.inr ⟨h1, h2, ?_⟩))
  unfold State.dspProduced
  split
  · rename_i a r e
    refine ⟨Nat.min_le_right _ _, r, s.draws, rfl, fun a' r' e' => ?_⟩
    rw [e] at e'; cases e'; exact ⟨rfl, rfl⟩
  · rename_i e
    exact ⟨Nat.min_le_right _ _, s.dspIn, s.draws + 1, rfl, fun a' r' e' => by rw [e] at e'; cases e'⟩

/-- Everything a pull from a handler can do (45 R278). -/
theorem produce_produced (s : State) (h : TxHandler) (k : Nat) :
    Produced s h k (s.produce h k).1 (s.produce h k).2 := by
  cases h
  case silence =>
    cases e : s.silenceTxRemaining with
    | idle => exact .inl ⟨rfl, e, by simp [State.produce, e], by simp [State.produce, e]⟩
    | samples left =>
      exact .inr (.inl ⟨rfl, left, e, by simp [State.produce, e], by simp [State.produce, e]⟩)
  case none => exact .inr (.inr (.inl ⟨rfl, rfl, rfl⟩))
  all_goals exact dspProduced_produced _ _ _ (by simp) (by simp)

/-- What a pull leaves alone and the bound on what it yields (45 R278). -/
theorem Produced.frame {s t : State} {h : TxHandler} {k l : Nat} (p : Produced s h k l t) :
    t.nextTxHandler = s.nextTxHandler ∧ t.transmitOnIdle = s.transmitOnIdle ∧ l ≤ k := by
  rcases p with ⟨_, _, rfl, rfl⟩ | ⟨_, _, _, rfl, rfl⟩ | ⟨_, rfl, rfl⟩ | ⟨_, _, h, _, _, rfl, _⟩
  · exact ⟨rfl, rfl, Nat.le_refl _⟩
  · exact ⟨rfl, rfl, Nat.min_le_left _ _⟩
  · exact ⟨rfl, rfl, Nat.zero_le _⟩
  · exact ⟨rfl, rfl, h⟩

/-- Everything the transmit completion can do (45 R279). -/
theorem txComplete_completed (s : State) : Completed s s.txComplete := by
  unfold State.txComplete
  split
  · rename_i h; exact .inl ⟨h, _, _, rfl⟩
  · rename_i h
    have := restart_spec .v21Tx (s.setModem none)
    generalize State.restart (s.setModem none) .v21Tx = r at *
    have h2 : r.callSamples = s.callSamples := by
      rcases this with ⟨_, rfl⟩ | ⟨_, c, d, _, rfl⟩ <;> rfl
    refine .inr (.inl ⟨h, _, _, r, this, ?_⟩)
    rw [← h2]; rfl
  · rename_i h; exact .inr (.inr (.inl ⟨by simp [h], _, _, restart_spec .silenceTx _⟩))
  · rename_i h; exact .inr (.inr (.inl ⟨by simp [h], _, _, restart_spec .silenceTx _⟩))
  · rename_i h; exact .inr (.inr (.inl ⟨by simp [h], _, _, restart_spec .silenceTx _⟩))
  · rename_i h; exact .inr (.inr (.inl ⟨by simp [h], _, _, restart_spec .silenceTx _⟩))
  all_goals (rename_i h; exact .inr (.inr (.inr ⟨by simp [h, Mode.isFastRx], rfl⟩)))

theorem Completed.transmitOnIdle {u t : State} (h : Completed u t) : t.transmitOnIdle = u.transmitOnIdle := by
  rcases h with ⟨_, c, d, rfl⟩ | ⟨_, c, d, r, hr, rfl⟩ | ⟨_, c, d, hr⟩ | ⟨_, rfl⟩
  · rfl
  · rcases hr with ⟨_, rfl⟩ | ⟨_, c, d, _, rfl⟩ <;> rfl
  · rcases hr with ⟨_, rfl⟩ | ⟨_, c, d, _, rfl⟩ <;> rfl
  · rfl

end Sys2Proof.Machine
end

