-- ==== Sys2Proof/Laws/Queue.lean ====
section
/-! SUPPORT. The consumer of the queue, one record at a time, and everything `drain_queue` can do on the list of
records the ring holds (44 R251). -/

namespace Sys2Proof.Machine

/-- There are no more records than ring bytes. -/
theorem length_le_queueBytes (rxq : List (List Byte)) : rxq.length ≤ (queueBytes rxq).length := by
  induction rxq with
  | nil => simp
  | cons r rest ih => simp [queueBytes]; omega

theorem drainQueue_empty (f : Nat) (c : Bool) (u : State) (h : u.queueRead = none) :
    State.drainQueue (f + 1) c u = { u with dteIsWaiting := true } := by
  rw [State.drainQueue, h]

theorem drainQueue_connect (f : Nat) (c : Bool) (u t : State) (h : u.queueRead = some ([1], t)) :
    State.drainQueue (f + 1) c u = State.drainQueue f true
      { t with dteTx := t.dteTx ++ (if c then [] else [.resp 1]), rxMessageReceived := true } := by
  rw [State.drainQueue, h]
  cases c
  · rfl
  · show State.drainQueue f true { t with rxMessageReceived := true } = _
    simp

theorem drainQueue_code (f : Nat) (c : Bool) (u t : State) (code : Byte) (hc : code ≠ 1)
    (h : u.queueRead = some ([code], t)) : State.drainQueue (f + 1) c u =
      { t with
        dteTx := t.dteTx ++ [.resp code], dteIsWaiting := false, rxMessageReceived := false
        atRxMode := .offhookCommand, dteDataTimeout := 0 } := by
  rw [State.drainQueue, h]
  have : ¬ code = RespCode.connect.byte := hc
  show (if code = RespCode.connect.byte then _ else _) = _
  rw [if_neg this]; rfl

theorem drainQueue_frame (f : Nat) (c : Bool) (u t : State) (code b : Byte) (body : List Byte)
    (h : u.queueRead = some (code :: b :: body, t)) : State.drainQueue (f + 1) c u =
      { t with
        dteTx := t.dteTx ++ ((if c then [] else [.resp 1]) ++ (stuff (b :: body)).map .byte ++
          [.byte 0x10, .byte 0x03, .resp code])
        dteIsWaiting := false, rxMessageReceived := false, atRxMode := .offhookCommand, dteDataTimeout := 0 } := by
  rw [State.drainQueue, h]
  show (if body.length + 1 + 1 = 1 then _ else _) = _
  rw [if_neg (by omega)]
  have e4 : (if c = true then t else t.emitResp .connect) =
      { t with dteTx := t.dteTx ++ (if c then [] else [.resp 1]) } := by
    cases c
    · rfl
    · simp
  rw [State.deliverRecord]
  simp only [e4]
  simp [State.finishRx, State.emit, State.emitEndOfData, State.emitStuffed, State.emitBytes, State.setAtRxMode,
    DLE, ETX]

/-- A command that has had its CONNECT still has it when it ends up waiting. -/
theorem drain_connected (rest : List (List Byte)) :
    (drain true rest).waits = true → (drain true rest).connected = true := by
  induction rest with
  | nil => simp [drain]
  | cons r rest ih =>
    match r with
    | [] => simpa [drain] using ih
    | [x] => simp only [drain]; split <;> simp_all
    | x :: y :: z => simp [drain]

/-- Everything `drain_queue` can do: what `drain` says on the list of records, as long as the fuel exceeds their
number (44 R251). -/
theorem drainQueue_spec (rxq : List (List Byte)) (fuel : Nat) (c : Bool) (u : State) (hf : rxq.length < fuel)
    (hq : RingHolds u rxq) (hc : c = true → u.rxMessageReceived = true) :
    ∃ v, State.drainQueue fuel c u = v ∧ RingHolds v (drain c rxq).rest ∧ v =
      { u with
        dteTx := u.dteTx ++ (drain c rxq).items
        dteIsWaiting := (drain c rxq).waits
        rxMessageReceived := (drain c rxq).waits && ((drain c rxq).connected || u.rxMessageReceived)
        atRxMode := if (drain c rxq).waits then u.atRxMode else .offhookCommand
        dteDataTimeout := if (drain c rxq).waits then u.dteDataTimeout else 0
        qOptr := v.qOptr } := by
  induction rxq generalizing fuel c u with
  | nil =>
    obtain ⟨f, rfl⟩ : ∃ f, fuel = f + 1 := ⟨fuel - 1, by simp at hf; omega⟩
    rw [drainQueue_empty _ _ _ ((queueRead_spec hq).1 rfl)]
    refine ⟨_, rfl, hq.congr rfl rfl rfl, ?_⟩
    simp only [drain, List.append_nil, if_true, Bool.true_and]
    have : (c || u.rxMessageReceived) = u.rxMessageReceived := by
      cases c
      · rfl
      · simp [hc rfl]
    rw [this]
  | cons rec rest ih =>
    obtain ⟨f, rfl⟩ : ∃ f, fuel = f + 1 := ⟨fuel - 1, by simp at hf; omega⟩
    obtain ⟨t, e1, e2, e3⟩ := (queueRead_spec hq).2 rec rest rfl
    have hsz := hq.sizes rec (by simp)
    match rec, hsz with
    | [code], _ =>
      by_cases h1 : code = 1
      · subst h1
        rw [drainQueue_connect _ _ _ _ e1]
        obtain ⟨v, g1, g2, g3⟩ := ih f true
          { t with dteTx := t.dteTx ++ (if c then [] else [.resp 1]), rxMessageReceived := true }
          (by simp at hf; omega) (e2.congr rfl rfl rfl) (fun _ => rfl)
        have hd : drain c ([1] :: rest) =
            { drain true rest with items := (if c then [] else [.resp 1]) ++ (drain true rest).items } := by
          simp [drain]
        rw [hd]
        refine ⟨v, g1, g2, ?_⟩
        have hw : ∀ x, ((drain true rest).waits && ((drain true rest).connected || x)) =
            (drain true rest).waits := by
          intro x
          cases hw : (drain true rest).waits
          · rfl
          · simp [drain_connected rest hw]
        rw [g3, e3]
        simp only [hw]
        simp
      · rw [drainQueue_code _ _ _ _ _ h1 e1]
        have hd : drain c ([code] :: rest) = ⟨[.resp code], rest, false, c⟩ := by rw [drain, if_neg h1]
        rw [hd]
        refine ⟨_, rfl, e2.congr rfl rfl rfl, ?_⟩
        rw [e3]; simp
    | code :: b :: body, _ =>
      rw [drainQueue_frame _ _ _ _ _ _ _ e1]
      refine ⟨_, rfl, e2.congr rfl rfl rfl, ?_⟩
      rw [e3]; simp [drain]

end Sys2Proof.Machine
end

