-- ==== Sys2Proof/Laws/Frame.lean ====
section
/-! SUPPORT. What the shared operations leave alone: the registers only their own operations write, the codec's
buffers, the ring; and that they only add to the output traces. -/

namespace Sys2Proof.Machine

/-- From `s` to `t` no register with a writer of its own has moved, and the output traces have only grown. Every
field is found by itself where `t` is a record update of `s` that appends to traces at most. -/
structure Frame (s t : State) : Prop where
  t38Mode : t.t38Mode = s.t38Mode := by rfl
  adaptiveReceive : t.adaptiveReceive = s.adaptiveReceive := by rfl
  s7 : t.s7 = s.s7 := by rfl
  params : t.params = s.params := by rfl
  hdlcRxBuf : t.hdlcRxBuf = s.hdlcRxBuf := by rfl
  hdlcRxLen : t.hdlcRxLen = s.hdlcRxLen := by rfl
  missingData : t.missingData = s.missingData := by rfl
  hdlcTxPtr : t.hdlcTxPtr = s.hdlcTxPtr := by rfl
  bitRate : t.bitRate = s.bitRate := by rfl
  shortTrain : t.shortTrain = s.shortTrain := by rfl
  samples : t.samples = s.samples := by rfl
  callSamples : t.callSamples = s.callSamples := by rfl
  session : t.session = s.session := by rfl
  transmitOnIdle : t.transmitOnIdle = s.transmitOnIdle := by rfl
  useTep : t.useTep = s.useTep := by rfl
  dteTx : s.dteTx <+: t.dteTx := by first | exact List.prefix_rfl | exact List.prefix_append _ _
  atCmd : s.atCmd <+: t.atCmd := by first | exact List.prefix_rfl | exact List.prefix_append _ _
  modemCtrl : s.modemCtrl <+: t.modemCtrl := by first | exact List.prefix_rfl | exact List.prefix_append _ _
  frameOut : s.frameOut <+: t.frameOut := by first | exact List.prefix_rfl | exact List.prefix_append _ _
  log : s.log <+: t.log := by first | exact List.prefix_rfl | exact List.prefix_append _ _

theorem Frame.refl (s : State) : Frame s s := {}

theorem Frame.trans {a b c : State} (h : Frame a b) (g : Frame b c) : Frame a c where
  t38Mode := g.t38Mode.trans h.t38Mode
  adaptiveReceive := g.adaptiveReceive.trans h.adaptiveReceive
  s7 := g.s7.trans h.s7
  params := g.params.trans h.params
  hdlcRxBuf := g.hdlcRxBuf.trans h.hdlcRxBuf
  hdlcRxLen := g.hdlcRxLen.trans h.hdlcRxLen
  missingData := g.missingData.trans h.missingData
  hdlcTxPtr := g.hdlcTxPtr.trans h.hdlcTxPtr
  bitRate := g.bitRate.trans h.bitRate
  shortTrain := g.shortTrain.trans h.shortTrain
  samples := g.samples.trans h.samples
  callSamples := g.callSamples.trans h.callSamples
  session := g.session.trans h.session
  transmitOnIdle := g.transmitOnIdle.trans h.transmitOnIdle
  useTep := g.useTep.trans h.useTep
  dteTx := h.dteTx.trans g.dteTx
  atCmd := h.atCmd.trans g.atCmd
  modemCtrl := h.modemCtrl.trans g.modemCtrl
  frameOut := h.frameOut.trans g.frameOut
  log := h.log.trans g.log

/-- From `s` to `t` the codec's escape flag and buffers and the ring's storage have not moved. -/
structure SameBuffers (s t : State) : Prop where
  dled : t.dled = s.dled := by rfl
  txData : t.txData = s.txData := by rfl
  hdlcTxBuf : t.hdlcTxBuf = s.hdlcTxBuf := by rfl

theorem SameBuffers.trans {a b c : State} (h : SameBuffers a b) (g : SameBuffers b c) : SameBuffers a c :=
  ⟨g.dled.trans h.dled, g.txData.trans h.txData, g.hdlcTxBuf.trans h.hdlcTxBuf⟩

/-! ### One lemma for each shared operation -/

theorem frame_restart (m : Mode) (s : State) : Frame s (s.restart m) := by
  rcases restart_spec m s with ⟨_, h0⟩ | ⟨_, c, d, hc, h0⟩
  · rw [h0]; exact {}
  · rw [h0]; exact {}

theorem buffers_restart (m : Mode) (s : State) :
    SameBuffers s (s.restart m) ∧ (s.restart m).qData = s.qData := by
  rcases restart_spec m s with ⟨_, h0⟩ | ⟨_, c, d, hc, h0⟩
  · rw [h0]; exact ⟨{}, rfl⟩
  · rw [h0]; exact ⟨{}, rfl⟩

theorem frame_queueRead {s t : State} {r : List Byte} (h : s.queueRead = some (r, t)) :
    Frame s t ∧ SameBuffers s t ∧ t.qData = s.qData := by
  unfold State.queueRead at h
  split at h
  · cases h
  · cases h; exact ⟨{}, {}, rfl⟩

theorem frame_queueWrite {s t : State} {r : List Byte} (h : s.queueWrite r = some t) :
    Frame s t ∧ SameBuffers s t := by
  unfold State.queueWrite at h
  split at h
  · cases h; exact ⟨{}, {}⟩
  · cases h

theorem frame_enqueue (s : State) (r : List Byte) : Frame s (s.enqueue r) ∧ SameBuffers s (s.enqueue r) := by
  unfold State.enqueue
  split
  · rename_i h; exact frame_queueWrite h
  · exact ⟨{}, {}⟩

theorem frame_emitResp (s : State) (c : RespCode) : Frame s (s.emitResp c) := {}

theorem frame_finishRx (s : State) : Frame s s.finishRx := {}

theorem buffers_finishRx (s : State) : SameBuffers s s.finishRx ∧ s.finishRx.qData = s.qData := ⟨{}, rfl⟩

theorem frame_connect (c : Bool) (t : State) :
    Frame t (if c then t else t.emitResp .connect) ∧ SameBuffers t (if c then t else t.emitResp .connect) ∧
      (if c then t else t.emitResp .connect).qData = t.qData := by
  cases c
  · exact ⟨frame_emitResp _ _, {}, rfl⟩
  · exact ⟨Frame.refl _, {}, rfl⟩

theorem frame_deliverRecord (c : Bool) (code : Byte) (f : List Byte) (t : State) :
    Frame t (t.deliverRecord c code f) ∧ SameBuffers t (t.deliverRecord c code f) ∧
      (t.deliverRecord c code f).qData = t.qData := by
  have h := frame_connect c t
  unfold State.deliverRecord
  simp only []
  generalize (if c then t else t.emitResp .connect) = u at *
  have g : Frame u ((u.emitStuffed f).emitEndOfData.emit [.resp code]) :=
    Frame.trans (b := u.emitStuffed f) {} (Frame.trans (b := (u.emitStuffed f).emitEndOfData) {} {})
  have b : SameBuffers u ((u.emitStuffed f).emitEndOfData.emit [.resp code]) ∧
      ((u.emitStuffed f).emitEndOfData.emit [.resp code]).qData = u.qData :=
    ⟨⟨rfl, rfl, rfl⟩, rfl⟩
  generalize (u.emitStuffed f).emitEndOfData.emit [.resp code] = v at *
  have k := buffers_finishRx v
  exact ⟨h.1.trans (g.trans (frame_finishRx v)), h.2.1.trans (b.1.trans k.1), k.2.trans (b.2.trans h.2.2)⟩

theorem frame_drainQueue (f : Nat) (c : Bool) (s : State) :
    Frame s (State.drainQueue f c s) ∧ SameBuffers s (State.drainQueue f c s) ∧
      (State.drainQueue f c s).qData = s.qData := by
  induction f generalizing c s with
  | zero => exact ⟨{}, {}, rfl⟩
  | succ f ih =>
    rw [State.drainQueue]
    split
    · exact ⟨{}, {}, rfl⟩
    · rename_i rec t h
      have hk := frame_queueRead h
      have hc := frame_connect c t
      simp only []
      split
      · split
        · generalize (if c then t else t.emitResp .connect) = u at *
          have := ih true { u with rxMessageReceived := true }
          have e : Frame u { u with rxMessageReceived := true } := {}
          have e2 : SameBuffers u { u with rxMessageReceived := true } := {}
          generalize State.drainQueue f true { u with rxMessageReceived := true } = v at *
          exact ⟨hk.1.trans (hc.1.trans (e.trans this.1)), hk.2.1.trans (hc.2.1.trans (e2.trans this.2.1)),
            this.2.2.trans (hc.2.2.trans hk.2.2)⟩
        · generalize rec.headD _ = code
          have e : Frame t (t.emit [.resp code]) := {}
          have b : SameBuffers t (t.emit [.resp code]) ∧ (t.emit [.resp code]).qData = t.qData := ⟨{}, rfl⟩
          generalize t.emit [.resp code] = v at *
          have k := buffers_finishRx v
          exact ⟨hk.1.trans (e.trans (frame_finishRx v)), hk.2.1.trans (b.1.trans k.1),
            k.2.trans (b.2.trans hk.2.2)⟩
      · generalize rec.headD _ = code
        have := frame_deliverRecord c code (rec.drop 1) t
        exact ⟨hk.1.trans this.1, hk.2.1.trans this.2.1, this.2.2.trans hk.2.2⟩

theorem frame_hdlcAppend (s : State) (x : Byte) :
    Frame s (s.hdlcAppend x) ∧ (s.hdlcAppend x).txData = s.txData ∧ (s.hdlcAppend x).qData = s.qData := by
  unfold State.hdlcAppend; split <;> exact ⟨{}, rfl, rfl⟩

theorem frame_stuffedStore (s : State) (x : Byte) :
    Frame s (s.stuffedStore x) ∧ (s.stuffedStore x).hdlcTxBuf = s.hdlcTxBuf ∧
      (s.stuffedStore x).qData = s.qData := by
  unfold State.stuffedStore; split <;> exact ⟨{}, rfl, rfl⟩

theorem frame_checkHighWater (s : State) :
    Frame s s.checkHighWater ∧ SameBuffers s s.checkHighWater ∧ s.checkHighWater.qData = s.qData := by
  unfold State.checkHighWater; split <;> exact ⟨{}, {}, rfl⟩

theorem frame_checkLowWater (s : State) :
    Frame s s.checkLowWater ∧ SameBuffers s s.checkLowWater ∧ s.checkLowWater.qData = s.qData := by
  unfold State.checkLowWater; split <;> exact ⟨{}, {}, rfl⟩

theorem frame_abortDelivery (s : State) :
    Frame s s.abortDelivery ∧ SameBuffers s s.abortDelivery ∧ s.abortDelivery.qData = s.qData := by
  unfold State.abortDelivery
  have h0 : Frame s (if s.rxSignalPresent then s.emitEndOfData else s) ∧
      SameBuffers s (if s.rxSignalPresent then s.emitEndOfData else s) ∧
      (if s.rxSignalPresent then s.emitEndOfData else s).qData = s.qData := by
    split <;> exact ⟨{}, {}, rfl⟩
  simp only []
  generalize (if s.rxSignalPresent then s.emitEndOfData else s) = u at *
  have hr := frame_restart .silenceTx u
  have hb := buffers_restart .silenceTx u
  generalize u.restart .silenceTx = v at *
  exact ⟨h0.1.trans (hr.trans {}), h0.2.1.trans (hb.1.trans {}), hb.2.trans h0.2.2⟩

theorem frame_produce (s : State) (h : TxHandler) (k : Nat) :
    Frame s (s.produce h k).2 ∧ SameBuffers s (s.produce h k).2 ∧ (s.produce h k).2.qData = s.qData := by
  rw [(produce_spec s h k).2]; exact ⟨{}, {}, rfl⟩

theorem frame_txComplete (s : State) :
    Frame s s.txComplete ∧ SameBuffers s s.txComplete ∧ s.txComplete.qData = s.qData := by
  have e : Frame s (((s.setModem none).emitResp .ok).setAtRxMode .offhookCommand) := {}
  have hr := fun u : State => frame_restart .silenceTx u
  have hb := fun u : State => buffers_restart .silenceTx u
  unfold State.txComplete
  split
  · exact ⟨e, {}, rfl⟩
  · have e0 : Frame s (s.setModem none) := {}
    have h1 := frame_restart .v21Tx (s.setModem none)
    have h2 := buffers_restart .v21Tx (s.setModem none)
    simp only []
    generalize (s.setModem none).restart .v21Tx = r at *
    exact ⟨e0.trans (h1.trans {}), SameBuffers.trans (b := s.setModem none) {} (h2.1.trans {}), h2.2⟩
  · exact ⟨e.trans (hr _), SameBuffers.trans {} (hb _).1, (hb _).2⟩
  · exact ⟨e.trans (hr _), SameBuffers.trans {} (hb _).1, (hb _).2⟩
  · exact ⟨e.trans (hr _), SameBuffers.trans {} (hb _).1, (hb _).2⟩
  · exact ⟨e.trans (hr _), SameBuffers.trans {} (hb _).1, (hb _).2⟩
  all_goals exact ⟨{}, {}, rfl⟩

theorem frame_checkSilence (s : State) :
    Frame s s.checkSilence ∧ SameBuffers s s.checkSilence ∧ s.checkSilence.qData = s.qData := by
  unfold State.checkSilence; split <;> exact ⟨{}, {}, rfl⟩

theorem frame_checkDteTimeout (s : State) :
    Frame s s.checkDteTimeout ∧ SameBuffers s s.checkDteTimeout ∧ s.checkDteTimeout.qData = s.qData := by
  unfold State.checkDteTimeout; split
  · have e : Frame s ((({ s.raise .dteTimeout with dteDataTimeout := 0 } : State).setAtRxMode
        .offhookCommand).emitResp .error) := {}
    have e2 : SameBuffers s ((({ s.raise .dteTimeout with dteDataTimeout := 0 } : State).setAtRxMode
        .offhookCommand).emitResp .error) := {}
    exact ⟨e.trans (frame_restart _ _), e2.trans (buffers_restart _ _).1, (buffers_restart _ _).2⟩
  · exact ⟨{}, {}, rfl⟩

theorem frame_checkNoCarrier (s : State) :
    Frame s s.checkNoCarrier ∧ SameBuffers s s.checkNoCarrier ∧ s.checkNoCarrier.qData = s.qData := by
  unfold State.checkNoCarrier; split
  · have e : Frame s ((s.raise .noCarrierOnAnswer).emitResp .noCarrier) := {}
    have e2 : SameBuffers s ((s.raise .noCarrierOnAnswer).emitResp .noCarrier) := {}
    have hr := frame_restart .silenceTx ((s.raise .noCarrierOnAnswer).emitResp .noCarrier)
    have hb := buffers_restart .silenceTx ((s.raise .noCarrierOnAnswer).emitResp .noCarrier)
    simp only []
    generalize ((s.raise .noCarrierOnAnswer).emitResp .noCarrier).restart .silenceTx = u at *
    exact ⟨e.trans (hr.trans {}), e2.trans (hb.1.trans {}), hb.2⟩
  · exact ⟨{}, {}, rfl⟩

end Sys2Proof.Machine
end

