-- ==== Sys2Proof/Laws/Invariant.lean ====
section
/-! SUPPORT. The invariant under the shared operations: one lemma for each, so that the invariant of a meaning is
the composition of them. -/

namespace Sys2Proof.Machine

/-- The two readings of the table of legal pairs agree (40 R143). -/
theorem legalPair_iff (m : Mode) (r : BitRate) (b : Bool) : legalPair m r b = true ↔ pairAllowed m r b := by
  cases m <;> cases r <;> cases b <;> simp [legalPair, pairAllowed, BitRate.bps]

/-- `t` differs from `s` only in fields the invariant does not speak of, and in the DTE deadline, which is kept,
disarmed or armed. Every field is found by `rfl` where `t` is a record update of `s`. -/
structure SameForInv (s t : State) : Prop where
  params : t.params = s.params := by rfl
  t38Mode : t.t38Mode = s.t38Mode := by rfl
  txData : t.txData = s.txData := by rfl
  hdlcTxBuf : t.hdlcTxBuf = s.hdlcTxBuf := by rfl
  hdlcRxBuf : t.hdlcRxBuf = s.hdlcRxBuf := by rfl
  qData : t.qData = s.qData := by rfl
  qIptr : t.qIptr = s.qIptr := by rfl
  qOptr : t.qOptr = s.qOptr := by rfl
  txOutBytes : t.txOutBytes = s.txOutBytes := by rfl
  txInBytes : t.txInBytes = s.txInBytes := by rfl
  hdlcTxLen : t.hdlcTxLen = s.hdlcTxLen := by rfl
  hdlcRxLen : t.hdlcRxLen = s.hdlcRxLen := by rfl
  txBitNo : t.txBitNo = s.txBitNo := by rfl
  rxBitNo : t.rxBitNo = s.rxBitNo := by rfl
  rxHandler : t.rxHandler = s.rxHandler := by rfl
  modem : t.modem = s.modem := by rfl
  rxTrained : t.rxTrained = s.rxTrained := by rfl
  cfg : t.cfg = s.cfg := by rfl
  silenceAwaited : t.silenceAwaited = s.silenceAwaited := by rfl
  silenceTxRemaining : t.silenceTxRemaining = s.silenceTxRemaining := by rfl
  callSamples : t.callSamples = s.callSamples := by rfl
  samples : t.samples = s.samples := by rfl
  deadline : t.dteDataTimeout = s.dteDataTimeout ∨ t.dteDataTimeout = 0 ∨
    t.dteDataTimeout = s.callSamples + 40000 := by exact .inl rfl

theorem SameForInv.inv {s t : State} (e : SameForInv s t) (h : StateInv s) : StateInv t where
  params := by rw [e.params]; exact h.params
  t38Mode := by rw [e.t38Mode]; exact h.t38Mode
  canonical := by
    intro m; cases m
    · simp only [State.memory, e.txData]; exact h.canonical .txData
    · simp only [State.memory, e.hdlcTxBuf]; exact h.canonical .hdlcTxBuf
    · simp only [State.memory, e.hdlcRxBuf]; exact h.canonical .hdlcRxBuf
    · simp only [State.memory, e.qData]; exact h.canonical .qData
  bounded := by
    intro m; cases m
    · simp only [State.memory, State.memorySize, e.txData, e.params]; exact h.bounded .txData
    · simp only [State.memory, State.memorySize, e.hdlcTxBuf, e.params]; exact h.bounded .hdlcTxBuf
    · simp only [State.memory, State.memorySize, e.hdlcRxBuf]; exact h.bounded .hdlcRxBuf
    · simp only [State.memory, State.memorySize, e.qData]; exact h.bounded .qData
  txCursors := by rw [e.txOutBytes, e.txInBytes, e.params]; exact h.txCursors
  txWritten := by rw [e.txData, e.txInBytes]; exact h.txWritten
  hdlcTx := by rw [e.hdlcTxLen, e.params, e.hdlcTxBuf]; exact h.hdlcTx
  hdlcRx := by rw [e.hdlcRxLen]; exact h.hdlcRx
  bitCounters := by rw [e.txBitNo, e.rxBitNo]; exact h.bitCounters
  queue := h.queue.imp fun _ q => q.congr e.qData e.qIptr e.qOptr
  early := by rw [e.rxHandler, e.modem, e.rxTrained]; exact h.early
  fastRate := by rw [e.modem, e.cfg]; exact h.fastRate
  silence := by rw [e.silenceAwaited, e.silenceTxRemaining]; exact h.silence
  clocks := by rw [e.callSamples, e.samples]; exact h.clocks
  deadline := by
    rw [e.callSamples]
    have := h.deadline
    rcases e.deadline with h1 | h1 | h1 <;> omega

/-! ### The output primitives and the small registers -/

theorem StateInv.emit {s : State} (h : StateInv s) (l : List DteItem) : StateInv (s.emit l) :=
  SameForInv.inv {} h

theorem StateInv.emitResp {s : State} (h : StateInv s) (c : RespCode) : StateInv (s.emitResp c) := h.emit _

theorem StateInv.emitStuffed {s : State} (h : StateInv s) (l : List Byte) : StateInv (s.emitStuffed l) := h.emit _

theorem StateInv.emitEndOfData {s : State} (h : StateInv s) : StateInv s.emitEndOfData := h.emit _

theorem StateInv.ctrl {s : State} (h : StateInv s) (i : CtrlItem) : StateInv (s.ctrl i) := SameForInv.inv {} h

theorem StateInv.submit {s : State} (h : StateInv s) (i : FrameOutItem) : StateInv (s.submit i) :=
  SameForInv.inv {} h

theorem StateInv.returns {s : State} (h : StateInv s) (r : Ret) : StateInv (s.returns r) := SameForInv.inv {} h

theorem StateInv.refuse {s : State} (h : StateInv s) : StateInv s.refuse := SameForInv.inv {} h

theorem StateInv.raise {s : State} (h : StateInv s) (k : ErrorKind) : StateInv (s.raise k) := SameForInv.inv {} h

theorem StateInv.armDteTimeout {s : State} (h : StateInv s) : StateInv s.armDteTimeout :=
  SameForInv.inv { deadline := .inr (.inr rfl) } h

theorem StateInv.setAtRxMode {s : State} (h : StateInv s) (m : AtRxMode) : StateInv (s.setAtRxMode m) :=
  SameForInv.inv { deadline := by simp only [State.setAtRxMode]; split <;> simp } h

theorem StateInv.finishRx {s : State} (h : StateInv s) : StateInv s.finishRx :=
  StateInv.setAtRxMode (s := { s with dteIsWaiting := false, rxMessageReceived := false }) (SameForInv.inv {} h) _

theorem StateInv.loadRate {s : State} (h : StateInv s) (r : BitRate) (b : Bool) : StateInv (s.loadRate r b) :=
  SameForInv.inv {} h

theorem StateInv.present {s : State} (h : StateInv s) (c : Command) (rest : List Command) :
    StateInv (s.present c rest) := SameForInv.inv {} h

theorem StateInv.txBitNo {s : State} (h : StateInv s) {n : Nat} (hn : n ≤ 8) : StateInv { s with txBitNo := n } :=
  { h with
    canonical := fun m => by have := h.canonical m; cases m <;> exact this
    bounded := fun m => by have := h.bounded m; cases m <;> exact this
    bitCounters := ⟨hn, h.bitCounters.2⟩
    queue := h.queue.imp fun _ q => q.congr rfl rfl rfl }

theorem StateInv.rxBitNo {s : State} (h : StateInv s) {n : Nat} (hn : n ≤ 7) : StateInv { s with rxBitNo := n } :=
  { h with
    canonical := fun m => by have := h.canonical m; cases m <;> exact this
    bounded := fun m => by have := h.bounded m; cases m <;> exact this
    bitCounters := ⟨h.bitCounters.1, hn⟩
    queue := h.queue.imp fun _ q => q.congr rfl rfl rfl }

theorem StateInv.clearRxShifter {s : State} (h : StateInv s) : StateInv s.clearRxShifter :=
  SameForInv.inv (s := { s with rxBitNo := 0 }) {} (h.rxBitNo (by omega))

theorem StateInv.silenceAwaited {s : State} (h : StateInv s) {n : Nat} (hn : n ≤ 20400) :
    StateInv { s with silenceAwaited := n } :=
  { h with
    canonical := fun m => by have := h.canonical m; cases m <;> exact this
    bounded := fun m => by have := h.bounded m; cases m <;> exact this
    silence := ⟨hn, h.silence.2⟩
    queue := h.queue.imp fun _ q => q.congr rfl rfl rfl }

theorem StateInv.silenceTxRemaining {s : State} (h : StateInv s) {x : SilenceLeft}
    (hx : ∀ n, x = .samples n → n ≤ 20400) : StateInv { s with silenceTxRemaining := x } :=
  { h with
    canonical := fun m => by have := h.canonical m; cases m <;> exact this
    bounded := fun m => by have := h.bounded m; cases m <;> exact this
    silence := ⟨h.silence.1, hx⟩
    queue := h.queue.imp fun _ q => q.congr rfl rfl rfl }

/-- A class-1 duration is at most 20400 samples (30 R95). -/
theorem silenceSamples_le (v : Byte) : silenceSamples v ≤ 20400 := by
  have := v.isLt
  unfold silenceSamples
  omega

theorem StateInv.clearHdlcTxLen {s : State} (h : StateInv s) : StateInv { s with hdlcTxLen := 0 } :=
  { h with
    canonical := fun m => by have := h.canonical m; cases m <;> exact this
    bounded := fun m => by have := h.bounded m; cases m <;> exact this
    hdlcTx := ⟨Nat.zero_le _, fun i hi => by cases hi⟩
    queue := h.queue.imp fun _ q => q.congr rfl rfl rfl }

theorem StateInv.advanceTxOut {s : State} (h : StateInv s) (hlt : s.txOutBytes < s.txInBytes) :
    StateInv { s with txOutBytes := s.txOutBytes + 1 } :=
  { h with
    canonical := fun m => by have := h.canonical m; cases m <;> exact this
    bounded := fun m => by have := h.bounded m; cases m <;> exact this
    txCursors := ⟨hlt, h.txCursors.2⟩
    queue := h.queue.imp fun _ q => q.congr rfl rfl rfl }

theorem StateInv.clearRxTrained {s : State} (h : StateInv s) : StateInv { s with rxTrained := false } :=
  { h with
    canonical := fun m => by have := h.canonical m; cases m <;> exact this
    bounded := fun m => by have := h.bounded m; cases m <;> exact this
    early := fun he => ⟨(h.early he).1, rfl⟩
    queue := h.queue.imp fun _ q => q.congr rfl rfl rfl }

/-! ### The codec and the watermarks -/

theorem StateInv.hdlcAppend {s : State} (h : StateInv s) (x : Byte) : StateInv (s.hdlcAppend x) := by
  unfold State.hdlcAppend
  split
  · rename_i hl
    exact
      { h with
        canonical := fun m => by
          have := h.canonical m
          cases m
          · exact this
          · exact Memory.put_wf _ _ _ this
          · exact this
          · exact this
        bounded := fun m => by
          have := h.bounded m
          cases m
          · exact this
          · exact Memory.put_below _ _ this hl
          · exact this
          · exact this
        hdlcTx := ⟨hl, Memory.put_filled _ _ h.hdlcTx.2⟩
        queue := h.queue.imp fun _ q => q.congr rfl rfl rfl }
  · exact h.raise _

theorem StateInv.stuffedStore {s : State} (h : StateInv s) (x : Byte) : StateInv (s.stuffedStore x) := by
  unfold State.stuffedStore
  split
  · rename_i hl
    exact
      { h with
        canonical := fun m => by
          have := h.canonical m
          cases m
          · exact Memory.put_wf _ _ _ this
          · exact this
          · exact this
          · exact this
        bounded := fun m => by
          have := h.bounded m
          cases m
          · exact Memory.put_below _ _ this hl
          · exact this
          · exact this
          · exact this
        txCursors := ⟨Nat.le_succ_of_le h.txCursors.1, hl⟩
        txWritten := Memory.put_filled _ _ h.txWritten
        queue := h.queue.imp fun _ q => q.congr rfl rfl rfl }
  · exact h.raise _

theorem StateInv.checkHighWater {s : State} (h : StateInv s) : StateInv s.checkHighWater := by
  unfold State.checkHighWater; split
  · exact SameForInv.inv (s := s) {} h
  · exact h

theorem StateInv.checkLowWater {s : State} (h : StateInv s) : StateInv s.checkLowWater := by
  unfold State.checkLowWater; split
  · exact SameForInv.inv (s := s) {} h
  · exact h

/-! ### RESTART and the writes of `modem` -/

theorem StateInv.afterRestart {s : State} (h : StateInv s) (m : Mode) (c : DspCfg) (d : Nat)
    (hc : CfgOf m s.bitRate s.shortTrain c)
    (hl : m.usesFast = true → legalPair m s.bitRate s.shortTrain = true) : StateInv (afterRestart m s c d) where
  params := h.params
  t38Mode := h.t38Mode
  canonical := fun n => by have := h.canonical n; cases n <;> exact this
  bounded := fun n => by have := h.bounded n; cases n <;> exact this
  txCursors := by
    simp only [Machine.afterRestart]; split
    · simp
    · exact h.txCursors
  txWritten := by
    simp only [Machine.afterRestart]; split
    · intro i hi; omega
    · exact h.txWritten
  hdlcTx := by
    simp only [Machine.afterRestart]; split
    · exact ⟨by simp, fun i hi => by omega⟩
    · exact h.hdlcTx
  hdlcRx := h.hdlcRx
  bitCounters := by
    simp only [Machine.afterRestart]; split
    · simp
    · exact ⟨h.bitCounters.1, by simp⟩
  queue := ⟨[], by simp, by simp [queueBytes], by simp [queueBytes], by simp [queueBytes, Machine.afterRestart]⟩
  early := by
    intro he
    simp only [Machine.afterRestart] at he ⊢
    cases m <;> simp_all [modeRow, RxHandler.isEarly, earlyMode]
  fastRate := by
    intro m' hm hf
    simp only [Machine.afterRestart, Option.some.injEq] at hm; subst hm
    have := hc.fast (by cases m <;> simp_all [Mode.usesFast, Mode.isFastTx, Mode.isFastRx, startsFastTransmit])
    simp only [Machine.afterRestart, this]
    exact hl hf
  silence := by
    refine ⟨h.silence.1, fun n hn => ?_⟩
    simp only [Machine.afterRestart] at hn
    have := h.silence.2 n
    cases m <;> simp only [modeRow, Option.getD_some, Option.getD_none] at hn <;>
      first | (cases hn; done) | exact this hn | (cases hn; decide)
  clocks := h.clocks
  deadline := h.deadline

/-- The sub-step RESTART keeps the invariant where a fast mode is asked for at a rate of its family. -/
theorem StateInv.restart {s : State} (h : StateInv s) (m : Mode)
    (hl : m.usesFast = true → legalPair m s.bitRate s.shortTrain = true) : StateInv (s.restart m) := by
  rcases restart_spec m s with ⟨_, h0⟩ | ⟨_, c, d, hc, h0⟩
  · rw [h0]; exact h
  · rw [h0]; exact h.afterRestart m c d hc hl

theorem StateInv.restartSlow {s : State} (h : StateInv s) (m : Mode) (hm : m.usesFast = false) :
    StateInv (s.restart m) := h.restart m fun h' => by rw [hm] at h'; cases h'

/-- Every pair the class-1 table holds is legal in both directions (30 R94, 40 R143). -/
theorem class1Table_legal {v : Byte} {f : Family} {r : BitRate} {b : Bool} (h : class1Table v = some (f, r, b)) :
    legalPair f.txMode r b = true ∧ legalPair f.rxMode r b = true := by
  unfold class1Table at h
  split at h <;> cases h <;> exact ⟨rfl, rfl⟩

/-- The mode becomes NONE where it was no fast receive mode (45 R279). -/
theorem StateInv.setModemNone {s : State} (h : StateInv s) (hf : ∃ m, s.modem = some m ∧ m.isFastRx = false) :
    StateInv (s.setModem none) :=
  { h with
    canonical := fun m => by have := h.canonical m; cases m <;> exact this
    bounded := fun m => by have := h.bounded m; cases m <;> exact this
    early := fun he => by
      obtain ⟨m, hm, hf⟩ := hf
      have := (h.early he).1
      rw [hm] at this
      have he' : s.rxHandler.isEarly = true := he
      cases hr : s.rxHandler <;> rw [hr] at he' this <;>
        first | (cases he'; done) | (simp only [earlyMode, Option.some.injEq] at this; subst this; cases hf)
    fastRate := fun m hm _ => by cases hm
    queue := h.queue.imp fun _ q => q.congr rfl rfl rfl }

theorem StateInv.listenFsk {s : State} (h : StateInv s) : StateInv { s with rxHandler := .fsk } :=
  { h with
    canonical := fun n => by have := h.canonical n; cases n <;> exact this
    bounded := fun n => by have := h.bounded n; cases n <;> exact this
    early := fun he => by cases he
    queue := h.queue.imp fun _ q => q.congr rfl rfl rfl }

/-- The mode becomes one without a fast modem while no Early tag stands (40 R139). -/
theorem StateInv.setModemSlow {s : State} (h : StateInv s) (m : Mode) (hm : m.usesFast = false)
    (hr : s.rxHandler.isEarly = false) : StateInv (s.setModem (some m)) :=
  { h with
    canonical := fun n => by have := h.canonical n; cases n <;> exact this
    bounded := fun n => by have := h.bounded n; cases n <;> exact this
    early := fun he => by rw [show s.rxHandler.isEarly = true from he] at hr; cases hr
    fastRate := fun m' hm' hf => by cases hm'; rw [hm] at hf; cases hf
    queue := h.queue.imp fun _ q => q.congr rfl rfl rfl }

theorem StateInv.cngDrop {s : State} (h : StateInv s) : StateInv s.cngDrop :=
  { h with
    canonical := fun n => by have := h.canonical n; cases n <;> exact this
    bounded := fun n => by have := h.bounded n; cases n <;> exact this
    early := fun he => by cases he
    fastRate := fun m' hm' hf => by cases hm'; cases hf
    silence := ⟨h.silence.1, fun n hn => by cases hn⟩
    queue := h.queue.imp fun _ q => q.congr rfl rfl rfl }

/-! ### The queue -/

theorem StateInv.enqueue {s : State} (h : StateInv s) (rec : List Byte)
    (hr : 1 ≤ rec.length ∧ rec.length ≤ 257) : StateInv (s.enqueue rec) := by
  obtain ⟨rxq, hq⟩ := h.queue
  rcases enqueue_spec hq rec hr with ⟨_, h2, h3, h4, h5⟩ | ⟨_, h2⟩
  · generalize s.enqueue rec = t at *
    refine ⟨by rw [h3]; exact h.params, by rw [h3]; exact h.t38Mode, fun n => ?_, fun n => ?_,
      by rw [h3]; exact h.txCursors, by rw [h3]; exact h.txWritten, by rw [h3]; exact h.hdlcTx,
      by rw [h3]; exact h.hdlcRx, by rw [h3]; exact h.bitCounters, ⟨_, h2⟩, by rw [h3]; exact h.early,
      by rw [h3]; exact h.fastRate, by rw [h3]; exact h.silence, by rw [h3]; exact h.clocks,
      by rw [h3]; exact h.deadline⟩
    · cases n
      · rw [h3]; exact h.canonical .txData
      · rw [h3]; exact h.canonical .hdlcTxBuf
      · rw [h3]; exact h.canonical .hdlcRxBuf
      · exact h4 (h.canonical .qData)
    · cases n
      · rw [h3]; exact h.bounded .txData
      · rw [h3]; exact h.bounded .hdlcTxBuf
      · rw [h3]; exact h.bounded .hdlcRxBuf
      · exact h5 (h.bounded .qData)
  · rw [h2]; exact h.raise _

/-- A state after a record was read, the ring holding the rest. -/
theorem StateInv.dequeue {s t : State} (h : StateInv s) {rest : List (List Byte)} (h2 : RingHolds t rest)
    (h3 : t = { s with qOptr := t.qOptr }) : StateInv t := by
  refine ⟨by rw [h3]; exact h.params, by rw [h3]; exact h.t38Mode, fun n => ?_, fun n => ?_,
    by rw [h3]; exact h.txCursors, by rw [h3]; exact h.txWritten, by rw [h3]; exact h.hdlcTx,
    by rw [h3]; exact h.hdlcRx, by rw [h3]; exact h.bitCounters, ⟨_, h2⟩, by rw [h3]; exact h.early,
    by rw [h3]; exact h.fastRate, by rw [h3]; exact h.silence, by rw [h3]; exact h.clocks,
    by rw [h3]; exact h.deadline⟩
  · rw [h3]; have := h.canonical n; cases n <;> exact this
  · rw [h3]; have := h.bounded n; cases n <;> exact this

theorem StateInv.queueFlush {s : State} (h : StateInv s) : StateInv s.queueFlush :=
  { h with
    canonical := fun n => by have := h.canonical n; cases n <;> exact this
    bounded := fun n => by have := h.bounded n; cases n <;> exact this
    queue := ⟨[], ringHolds_flush s⟩ }

theorem StateInv.drainQueue {s : State} (h : StateInv s) (fuel : Nat) (c : Bool) :
    StateInv (State.drainQueue fuel c s) := by
  induction fuel generalizing c s with
  | zero => exact h
  | succ f ih =>
    obtain ⟨rxq, hq⟩ := h.queue
    rw [State.drainQueue]
    cases rxq with
    | nil => rw [(queueRead_spec hq).1 rfl]; exact SameForInv.inv (s := s) {} h
    | cons rec rest =>
      obtain ⟨t, e1, e2, e3⟩ := (queueRead_spec hq).2 rec rest rfl
      have ht := h.dequeue e2 e3
      have hu : StateInv (if c then t else t.emitResp .connect) := by
        split
        · exact ht
        · exact ht.emitResp _
      rw [e1]
      simp only []
      split
      · split
        · exact ih (SameForInv.inv (s := if c then t else t.emitResp .connect) {} hu) _
        · exact (ht.emit _).finishRx
      · unfold State.deliverRecord
        simp only []
        generalize (if c then t else t.emitResp .connect) = u at *
        exact ((hu.emitStuffed _).emitEndOfData.emit _).finishRx

/-! ### The line -/

theorem StateInv.produce {s : State} (h : StateInv s) (hd : TxHandler) (k : Nat) : StateInv (s.produce hd k).2 := by
  have hdsp : ∀ x, StateInv (s.dspProduced x k).2 := by
    intro x; unfold State.dspProduced; split <;> exact SameForInv.inv (s := s) {} h
  unfold State.produce
  split
  · split
    · exact h
    · rename_i left hl
      exact h.silenceTxRemaining (by intro n hn; cases hn; have := h.silence.2 left hl; omega)
  · exact h
  all_goals exact hdsp _

theorem StateInv.countSample {s : State} (h : StateInv s) (quiet : Bool) : StateInv (s.countSample quiet) :=
  { h with
    canonical := fun n => by have := h.canonical n; cases n <;> exact this
    bounded := fun n => by have := h.bounded n; cases n <;> exact this
    clocks := Nat.succ_le_succ h.clocks
    deadline := by have := h.deadline; show s.dteDataTimeout ≤ s.callSamples + 1 + 40000; omega
    queue := h.queue.imp fun _ q => q.congr rfl rfl rfl }

end Sys2Proof.Machine
end

