-- ==== Sys2Proof/Laws/PerInstr.lean ====
section
/-! SUPPORT. For each operation: its word agrees with the match and mask of its row of spec/opcode_table.json. -/

namespace Sys2Proof.Laws.TableRow

/-- The `mask` and the `match` of the row of an operation, as the opcode table writes them. -/
def row : Instr → CmdWord × CmdWord
  | .init => (0xFFFF, 0x0000)
  | .release => (0xFFFF, 0x0100)
  | .setToi _ => (0xFFFE, 0x0200)
  | .setTep _ => (0xFFFE, 0x0300)
  | .callevRing => (0xFFFF, 0x0400)
  | .callevAnswer => (0xFFFF, 0x0401)
  | .callevHangup => (0xFFFF, 0x0402)
  | .setT38 _ => (0xFFFE, 0x0500)
  | .t38Tick _ => (0xFF00, 0x0600)
  | .restartFlush => (0xFFFF, 0x1000)
  | .restartSilenceTx => (0xFFFF, 0x1100)
  | .restartSilenceRx => (0xFFFF, 0x1200)
  | .restartCed => (0xFFFF, 0x1300)
  | .restartCng => (0xFFFF, 0x1400)
  | .restartNocng => (0xFFFF, 0x1500)
  | .restartV21Tx => (0xFFFF, 0x1600)
  | .restartV17Tx => (0xFFFF, 0x1700)
  | .restartV27terTx => (0xFFFF, 0x1800)
  | .restartV29Tx => (0xFFFF, 0x1900)
  | .restartV21Rx => (0xFFFF, 0x1A00)
  | .restartV17Rx => (0xFFFF, 0x1B00)
  | .restartV27terRx => (0xFFFF, 0x1C00)
  | .restartV29Rx => (0xFFFF, 0x1D00)
  | .frs _ => (0xFF00, 0x2000)
  | .fts _ => (0xFF00, 0x2100)
  | .frh _ => (0xFF00, 0x2200)
  | .fth _ => (0xFF00, 0x2300)
  | .frm _ => (0xFF00, 0x2400)
  | .ftm _ => (0xFF00, 0x2500)
  | .dte _ => (0xFF00, 0x3000)
  | .getBit => (0xFFFF, 0x4000)
  | .putBit _ => (0xFFFE, 0x5000)
  | .putBitCarrierDown => (0xFFFF, 0x50FF)
  | .putBitCarrierUp => (0xFFFF, 0x50FE)
  | .putBitTrainingInProgress => (0xFFFF, 0x50FD)
  | .putBitTrainingSucceeded => (0xFFFF, 0x50FC)
  | .putBitTrainingFailed => (0xFFFF, 0x50FB)
  | .putBitOther _ => (0xFF00, 0x5000)
  | .hdlcRx _ => (0xFFFE, 0x6000)
  | .hdlcEvFramingOk => (0xFFFF, 0x61FA)
  | .hdlcEvCarrierDown => (0xFFFF, 0x61FF)
  | .hdlcEvCarrierUp => (0xFFFF, 0x61FE)
  | .hdlcEvOther _ => (0xFF00, 0x6100)
  | .hdlcTxu => (0xFFFF, 0x7000)
  | .rxs _ => (0xFFFE, 0x8000)
  | .txs _ => (0xFF00, 0x8100)
  | .qWrite => (0xFFFF, 0x9000)
  | .qRead => (0xFFFF, 0x9100)
  | .qFlush => (0xFFFF, 0x9200)

/-- The word of a well-formed operation carries the match of its row under the mask of its row. -/
def Statement (i : Instr) : Prop := i.wellFormed = true → encode i &&& (row i).1 = (row i).2

/-- The word of an operation whose row leaves `arg` free. -/
theorem packWord_and_high (cls sub : BitVec 4) (arg : Byte) :
    packWord cls sub arg &&& 0xFF00 = packWord cls sub 0 := by
  show ((cls ++ sub) ++ arg : BitVec (4 + 4 + 8)) &&& ((0xFF : BitVec (4 + 4)) ++ (0 : BitVec 8)) =
    (cls ++ sub) ++ (0 : BitVec 8)
  rw [BitVec.and_append]
  congr 1
  · exact BitVec.and_allOnes
  · exact BitVec.and_zero

theorem init : Statement .init := fun _ => by decide
theorem release : Statement .release := fun _ => by decide
theorem setToi (b : Bool) : Statement (.setToi b) := fun _ => by cases b <;> decide
theorem setTep (b : Bool) : Statement (.setTep b) := fun _ => by cases b <;> decide
theorem callevRing : Statement .callevRing := fun _ => by decide
theorem callevAnswer : Statement .callevAnswer := fun _ => by decide
theorem callevHangup : Statement .callevHangup := fun _ => by decide
theorem setT38 (b : Bool) : Statement (.setT38 b) := fun _ => by cases b <;> decide
theorem t38Tick (n : Byte) : Statement (.t38Tick n) := fun _ => packWord_and_high _ _ _
theorem restartFlush : Statement .restartFlush := fun _ => by decide
theorem restartSilenceTx : Statement .restartSilenceTx := fun _ => by decide
theorem restartSilenceRx : Statement .restartSilenceRx := fun _ => by decide
theorem restartCed : Statement .restartCed := fun _ => by decide
theorem restartCng : Statement .restartCng := fun _ => by decide
theorem restartNocng : Statement .restartNocng := fun _ => by decide
theorem restartV21Tx : Statement .restartV21Tx := fun _ => by decide
theorem restartV17Tx : Statement .restartV17Tx := fun _ => by decide
theorem restartV27terTx : Statement .restartV27terTx := fun _ => by decide
theorem restartV29Tx : Statement .restartV29Tx := fun _ => by decide
theorem restartV21Rx : Statement .restartV21Rx := fun _ => by decide
theorem restartV17Rx : Statement .restartV17Rx := fun _ => by decide
theorem restartV27terRx : Statement .restartV27terRx := fun _ => by decide
theorem restartV29Rx : Statement .restartV29Rx := fun _ => by decide
theorem frs (v : Byte) : Statement (.frs v) := fun _ => packWord_and_high _ _ _
theorem fts (v : Byte) : Statement (.fts v) := fun _ => packWord_and_high _ _ _
theorem frh (v : Byte) : Statement (.frh v) := fun _ => packWord_and_high _ _ _
theorem fth (v : Byte) : Statement (.fth v) := fun _ => packWord_and_high _ _ _
theorem frm (v : Byte) : Statement (.frm v) := fun _ => packWord_and_high _ _ _
theorem ftm (v : Byte) : Statement (.ftm v) := fun _ => packWord_and_high _ _ _
theorem dte (b : Byte) : Statement (.dte b) := fun _ => packWord_and_high _ _ _
theorem getBit : Statement .getBit := fun _ => by decide
theorem putBit (bit : Bool) : Statement (.putBit bit) := fun _ => by cases bit <;> decide
theorem putBitCarrierDown : Statement .putBitCarrierDown := fun _ => by decide
theorem putBitCarrierUp : Statement .putBitCarrierUp := fun _ => by decide
theorem putBitTrainingInProgress : Statement .putBitTrainingInProgress := fun _ => by decide
theorem putBitTrainingSucceeded : Statement .putBitTrainingSucceeded := fun _ => by decide
theorem putBitTrainingFailed : Statement .putBitTrainingFailed := fun _ => by decide
theorem putBitOther (v : Byte) : Statement (.putBitOther v) := fun _ => packWord_and_high _ _ _
theorem hdlcRx (ok : Bool) : Statement (.hdlcRx ok) := fun _ => by cases ok <;> decide
theorem hdlcEvFramingOk : Statement .hdlcEvFramingOk := fun _ => by decide
theorem hdlcEvCarrierDown : Statement .hdlcEvCarrierDown := fun _ => by decide
theorem hdlcEvCarrierUp : Statement .hdlcEvCarrierUp := fun _ => by decide
theorem hdlcEvOther (v : Byte) : Statement (.hdlcEvOther v) := fun _ => packWord_and_high _ _ _
theorem hdlcTxu : Statement .hdlcTxu := fun _ => by decide
theorem rxs (quiet : Bool) : Statement (.rxs quiet) := fun _ => by cases quiet <;> decide
theorem txs (n : Byte) : Statement (.txs n) := fun _ => packWord_and_high _ _ _
theorem qWrite : Statement .qWrite := fun _ => by decide
theorem qRead : Statement .qRead := fun _ => by decide
theorem qFlush : Statement .qFlush := fun _ => by decide

end Sys2Proof.Laws.TableRow
end

