-- ==== Sys2Proof/Tests/Slice0.lean ====
section
/-! SUPPORT. The author's own tests: ill-formed terms are refused, every operation's word decodes to it, single
steps on small states with results taken from spec/95_test_vectors.md, and for each statement with hypotheses a
state that meets them. -/

namespace Sys2Proof.Tests

open Sys2Proof Sys2Proof.Machine

/-! ### WellFormed: the two catch-all rows refuse the values of the rows above them -/

theorem test_putBitOther_refuses_bit_0 : (Instr.putBitOther 0x00).wellFormed = false := by decide
theorem test_putBitOther_refuses_bit_1 : (Instr.putBitOther 0x01).wellFormed = false := by decide
theorem test_putBitOther_refuses_carrier_down : (Instr.putBitOther 0xFF).wellFormed = false := by decide
theorem test_putBitOther_refuses_training_failed : (Instr.putBitOther 0xFB).wellFormed = false := by decide
theorem test_hdlcEvOther_refuses_framing_ok : (Instr.hdlcEvOther 0xFA).wellFormed = false := by decide
theorem test_hdlcEvOther_refuses_carrier_down : (Instr.hdlcEvOther 0xFF).wellFormed = false := by decide
theorem test_hdlcEvOther_refuses_carrier_up : (Instr.hdlcEvOther 0xFE).wellFormed = false := by decide
theorem test_putBitOther_takes_2 : (Instr.putBitOther 0x02).wellFormed = true := by decide
theorem test_hdlcEvOther_takes_0xFD : (Instr.hdlcEvOther 0xFD).wellFormed = true := by decide

/-! ### Decode: the words of 30 R104 and of the class-1, mode and status tables, written out -/

theorem test_decode_init : decode 0x0000 = .ok (.init) := by decide
theorem test_decode_release : decode 0x0100 = .ok (.release) := by decide
theorem test_decode_setToi : decode 0x0201 = .ok (.setToi true) := by decide
theorem test_decode_setTep : decode 0x0300 = .ok (.setTep false) := by decide
theorem test_decode_callevRing : decode 0x0400 = .ok (.callevRing) := by decide
theorem test_decode_callevAnswer : decode 0x0401 = .ok (.callevAnswer) := by decide
theorem test_decode_callevHangup : decode 0x0402 = .ok (.callevHangup) := by decide
theorem test_decode_setT38 : decode 0x0501 = .ok (.setT38 true) := by decide
theorem test_decode_t38Tick : decode 0x0605 = .ok (.t38Tick 5) := by decide
theorem test_decode_restartFlush : decode 0x1000 = .ok (.restartFlush) := by decide
theorem test_decode_restartSilenceTx : decode 0x1100 = .ok (.restartSilenceTx) := by decide
theorem test_decode_restartSilenceRx : decode 0x1200 = .ok (.restartSilenceRx) := by decide
theorem test_decode_restartCed : decode 0x1300 = .ok (.restartCed) := by decide
theorem test_decode_restartCng : decode 0x1400 = .ok (.restartCng) := by decide
theorem test_decode_restartNocng : decode 0x1500 = .ok (.restartNocng) := by decide
theorem test_decode_restartV21Tx : decode 0x1600 = .ok (.restartV21Tx) := by decide
theorem test_decode_restartV17Tx : decode 0x1700 = .ok (.restartV17Tx) := by decide
theorem test_decode_restartV27terTx : decode 0x1800 = .ok (.restartV27terTx) := by decide
theorem test_decode_restartV29Tx : decode 0x1900 = .ok (.restartV29Tx) := by decide
theorem test_decode_restartV21Rx : decode 0x1A00 = .ok (.restartV21Rx) := by decide
theorem test_decode_restartV17Rx : decode 0x1B00 = .ok (.restartV17Rx) := by decide
theorem test_decode_restartV27terRx : decode 0x1C00 = .ok (.restartV27terRx) := by decide
theorem test_decode_restartV29Rx : decode 0x1D00 = .ok (.restartV29Rx) := by decide
theorem test_decode_frs : decode 0x200A = .ok (.frs 10) := by decide
theorem test_decode_fts : decode 0x2150 = .ok (.fts 80) := by decide
theorem test_decode_frh : decode 0x2203 = .ok (.frh 3) := by decide
theorem test_decode_fth : decode 0x2303 = .ok (.fth 3) := by decide
theorem test_decode_frm : decode 0x2460 = .ok (.frm 96) := by decide
theorem test_decode_ftm : decode 0x2592 = .ok (.ftm 146) := by decide
theorem test_decode_dte : decode 0x30A5 = .ok (.dte 0xA5) := by decide
theorem test_decode_getBit : decode 0x4000 = .ok (.getBit) := by decide
theorem test_decode_putBit : decode 0x5001 = .ok (.putBit true) := by decide
theorem test_decode_putBitCarrierDown : decode 0x50FF = .ok (.putBitCarrierDown) := by decide
theorem test_decode_putBitCarrierUp : decode 0x50FE = .ok (.putBitCarrierUp) := by decide
theorem test_decode_putBitTrainingInProgress : decode 0x50FD = .ok (.putBitTrainingInProgress) := by decide
theorem test_decode_putBitTrainingSucceeded : decode 0x50FC = .ok (.putBitTrainingSucceeded) := by decide
theorem test_decode_putBitTrainingFailed : decode 0x50FB = .ok (.putBitTrainingFailed) := by decide
theorem test_decode_putBitOther : decode 0x50FA = .ok (.putBitOther 0xFA) := by decide
theorem test_decode_hdlcRx : decode 0x6001 = .ok (.hdlcRx true) := by decide
theorem test_decode_hdlcEvFramingOk : decode 0x61FA = .ok (.hdlcEvFramingOk) := by decide
theorem test_decode_hdlcEvCarrierDown : decode 0x61FF = .ok (.hdlcEvCarrierDown) := by decide
theorem test_decode_hdlcEvCarrierUp : decode 0x61FE = .ok (.hdlcEvCarrierUp) := by decide
theorem test_decode_hdlcEvOther : decode 0x61FD = .ok (.hdlcEvOther 0xFD) := by decide
theorem test_decode_hdlcTxu : decode 0x7000 = .ok (.hdlcTxu) := by decide
theorem test_decode_rxs : decode 0x8001 = .ok (.rxs true) := by decide
theorem test_decode_txs : decode 0x81A0 = .ok (.txs 160) := by decide
theorem test_decode_qWrite : decode 0x9000 = .ok (.qWrite) := by decide
theorem test_decode_qRead : decode 0x9100 = .ok (.qRead) := by decide
theorem test_decode_qFlush : decode 0x9200 = .ok (.qFlush) := by decide

/-- Reserved words are refused by the name of the field that is reserved (30 R102, vectors M10, S9, L9). -/
theorem test_decode_reserved : decode 0xA000 = .error .reservedClass ∧ decode 0x1E00 = .error .reservedSub ∧
    decode 0x1F00 = .error .reservedSub ∧ decode 0x1001 = .error .reservedArg ∧
    decode 0x0403 = .error .reservedArg ∧ decode 0x0700 = .error .reservedSub ∧
    decode 0x8002 = .error .reservedArg ∧ decode 0x8200 = .error .reservedSub := by decide

theorem test_decodeTableWord : decodeTableWord 16 0x2460 = some (.frm 96) ∧ decodeTableWord 16 0xF000 = none := by
  decide

/-! ### Single steps -/

/-- The state an operation leaves, where it leaves one. -/
def after (i : Instr) (s : State) : Option State :=
  match exec i s with
  | .next t => some t
  | .fault _ => none
  | .refused _ => none

/-- The state after reset in a mode, with the DTE inbound mode given. -/
def inMode (m : Mode) (d : AtRxMode) : State := { State.reset with modem := some m, atRxMode := d }

/-- The frame `FF 03 2F` with FCS `AB 10` (95 P3). -/
def frameA : FrameInput := { len := 3, bytes := [0xFF, 0x03, 0x2F, 0xAB, 0x10] }

/-- A receive command waits in V21_RX with its CONNECT given, and FRAME_IN carries `frameA` (95 V1). -/
def receiving : State :=
  { inMode .v21Rx .delivery with
    rxHandler := .fsk, dteIsWaiting := true, rxMessageReceived := true, rxSignalPresent := true, frameIn := frameA }

/-- The ring holds one record, the bare CONNECT, from index 0 on (95 P4, step 4). -/
def ringOne : State := { inMode .v21Rx .offhookCommand with qData := [(0, 1), (1, 0), (2, 1)], qIptr := 3 }

/-- 95 S2, K5: the word 0x21FF put on CMD is the next step. -/
theorem test_step_fts :
    (match step (State.reset.withFetchWord 16 0x21FF) with
      | .next t => some (t.modem, t.silenceTxRemaining, t.cmdIn)
      | _ => none) = some (some .silenceTx, .samples 20400, []) := by decide

/-- 95 S2: INIT from a busy state. -/
theorem test_init_resets :
    (after .init { receiving with session := false }).map (fun t =>
      (t.session, t.modem, t.dteIsWaiting, t.txCurrentByte)) = some (true, none, false, 0xFF) := by decide

/-- 95 S2. -/
theorem test_init_empties_the_traces :
    (after .init { State.reset with dteTx := [.resp 1], log := [.carrierError], s7 := 9 }).map (fun t =>
      (t.dteTx, t.log, t.s7)) = some ([], [], 9) := by decide

/-- 95 S3: FTS after RELEASE is refused. -/
theorem test_release :
    ((after .release State.reset).bind (after (.fts 80))).map (fun t => (t.session, t.modem, t.ret)) =
      some (false, none, .refused) := by decide

/-- 95 S5. -/
theorem test_setToi :
    (after (.setToi true) State.reset).map (fun t => (t.transmitOnIdle, t.useTep)) = some (true, false) := by decide

/-- 95 S6. -/
theorem test_setTep :
    (after (.setTep true) State.reset).map (fun t => (t.transmitOnIdle, t.useTep)) = some (false, true) := by decide

/-- 95 S10. -/
theorem test_callevRing :
    (after .callevRing State.reset) = some State.reset := by decide

/-- 95 S7. -/
theorem test_callevAnswer :
    (after .callevAnswer { inMode .v21Tx .hdlc with callSamples := 5, dteDataTimeout := 9 }).map (fun t =>
      (t.callSamples, t.atRxMode, t.dteDataTimeout)) = some (0, .offhookCommand, 0) := by decide

/-- 95 S8. -/
theorem test_callevHangup :
    (after .callevHangup { receiving with qIptr := 3 }).map (fun t =>
      (t.modem, t.atRxMode, t.dteIsWaiting, t.qIptr)) =
      some (some .silenceTx, .onhookCommand, false, 0) := by decide

/-- 95 S9. -/
theorem test_setT38 :
    (after (.setT38 true) State.reset).map (fun t => (t.ret, t.t38Mode)) = some (.refused, false) := by decide

/-- 95 S9. -/
theorem test_t38Tick :
    (after (.t38Tick 5) State.reset).map (fun t => t.ret) = some .refused := by decide

/-- 95 M0. -/
theorem test_restartFlush :
    (after .restartFlush State.reset).map (fun t =>
      (t.modem, t.txHandler, t.nextTxHandler, t.rxHandler, t.transmit, t.silenceTxRemaining)) =
      some (some .flush, .silence, .none, .dummy, true, .samples 1600) := by decide

/-- 95 M1. -/
theorem test_restartSilenceTx :
    (after .restartSilenceTx State.reset).map (fun t =>
      (t.modem, t.txHandler, t.nextTxHandler, t.rxHandler, t.transmit, t.silenceTxRemaining)) =
      some (some .silenceTx, .silence, .none, .dummy, false, .idle) := by decide

/-- 95 M2. -/
theorem test_restartSilenceRx :
    (after .restartSilenceRx State.reset).map (fun t =>
      (t.modem, t.txHandler, t.nextTxHandler, t.rxHandler, t.transmit, t.silenceTxRemaining)) =
      some (some .silenceRx, .silence, .none, .silence, false, .idle) := by decide

/-- 95 M3. -/
theorem test_restartCed :
    (after .restartCed State.reset).map (fun t =>
      (t.modem, t.txHandler, t.nextTxHandler, t.rxHandler, t.transmit, t.silenceTxRemaining)) =
      some (some .ced, .silence, .toneCed, .dummy, true, .samples 1600) := by decide

/-- 95 M4. -/
theorem test_restartCng :
    (after .restartCng State.reset).map (fun t =>
      (t.modem, t.txHandler, t.nextTxHandler, t.rxHandler, t.transmit, t.silenceTxRemaining)) =
      some (some .cng, .toneCng, .none, .cng, true, .idle) := by decide

/-- 95 M5. -/
theorem test_restartNocng :
    (after .restartNocng State.reset).map (fun t =>
      (t.modem, t.txHandler, t.nextTxHandler, t.rxHandler, t.transmit, t.silenceTxRemaining)) =
      some (some .nocng, .silence, .none, .cng, true, .idle) := by decide

/-- 95 M6. -/
theorem test_restartV21Tx :
    (after .restartV21Tx State.reset).map (fun t =>
      (t.modem, t.txHandler, t.nextTxHandler, t.rxHandler, t.transmit, t.silenceTxRemaining)) =
      some (some .v21Tx, .fsk, .none, .dummy, true, .idle) := by decide

/-- 95 M8. -/
theorem test_restartV21Rx :
    (after .restartV21Rx State.reset).map (fun t =>
      (t.modem, t.txHandler, t.nextTxHandler, t.rxHandler, t.transmit, t.silenceTxRemaining)) =
      some (some .v21Rx, .silence, .none, .fsk, false, .idle) := by decide

/-- 40 R129; 9600 is a V.17 rate. -/
theorem test_restartV17Tx :
    (after .restartV17Tx { State.reset with bitRate := .r9600, shortTrain := true, txInBytes := 7 }).map (fun t =>
      (t.modem, t.txHandler, t.cfg.fastBitRate, t.cfg.fastShortTrain, t.txInBytes)) =
      some (some .v17Tx, .v17, .r9600, true, 0) := by decide

/-- 95 M7. -/
theorem test_restartV17Tx_at_300 :
    (after .restartV17Tx State.reset).map (fun t => (t.ret, t.modem)) = some (.refused, none) := by decide

/-- 40 R130. -/
theorem test_restartV27terTx :
    (after .restartV27terTx { State.reset with bitRate := .r4800 }).map (fun t =>
      (t.modem, t.txHandler, t.cfg.fastBitRate, t.transmit)) = some (some .v27terTx, .v27ter, .r4800, true) := by decide

/-- 95 M11. -/
theorem test_restartV29Tx :
    (after .restartV29Tx { State.reset with bitRate := .r9600, txBitNo := 3, txDataStarted := true }).map (fun t =>
      (t.modem, t.txHandler, t.cfg.fastBitRate, t.txBitNo, t.txDataStarted)) =
      some (some .v29Tx, .v29, .r9600, 0, false) := by decide

/-- 95 M14. -/
theorem test_restartV17Rx :
    (after .restartV17Rx { State.reset with bitRate := .r9600 }).map (fun t =>
      (t.modem, t.rxHandler, t.cfg.v21RxCutoffCentiDbm0)) = some (some .v17Rx, .earlyV17, -3909) := by decide

/-- 95 M15. -/
theorem test_restartV27terRx_at_9600 :
    (after .restartV27terRx { State.reset with bitRate := .r9600 }).map (fun t => (t.ret, t.modem)) =
      some (.refused, none) := by decide

/-- 40 R134. -/
theorem test_restartV27terRx :
    (after .restartV27terRx { State.reset with bitRate := .r2400 }).map (fun t =>
      (t.modem, t.rxHandler, t.transmit)) = some (some .v27terRx, .earlyV27ter, false) := by decide

/-- 95 M13. -/
theorem test_restartV29Rx :
    (after .restartV29Rx { inMode .silenceTx .stuffed with bitRate := .r9600, dataFinal := true, qOptr := 1 }).map
      (fun t => (t.modem, t.rxHandler, t.dataFinal, t.qOptr)) = some (some .v29Rx, .earlyV29, false, 0) := by decide

/-- 95 M16. -/
theorem test_restart_prologue :
    (after .restartSilenceTx { receiving with qIptr := 6, rxTrained := true, dataFinal := true, rxBitNo := 3, dled := true }).map
      (fun t => (t.qIptr, t.rxTrained, t.rxBitNo, t.dteIsWaiting, t.dled)) =
      some (0, false, 0, true, true) := by decide

/-- 95, the class-1 table: FRM 96 on DSP_CFG has the mode code 13, the tags 8, 1, 0 and the rate code 4. -/
theorem test_dspCfgPort :
    (after (.frm 96) State.reset).map (fun t =>
      (t.dspCfgPort.1, t.dspCfgPort.2.1, t.dspCfgPort.2.2.1, t.dspCfgPort.2.2.2.1, t.dspCfgPort.2.2.2.2.1)) =
      some (13, 8, 1, 0, 4) := by decide

/-- 95 K6. -/
theorem test_frs_0 :
    (after (.frs 0) { State.reset with atRxMode := .offhookCommand }).map (fun t =>
      (t.modem, t.dteTx, t.atRxMode, t.silenceAwaited)) =
      some (some .silenceRx, [.resp 0], .offhookCommand, 0) := by decide

/-- 95 K7. -/
theorem test_frs_10 :
    (after (.frs 10) State.reset).map (fun t => (t.rxHandler, t.dteTx, t.atRxMode, t.silenceAwaited)) =
      some (.silence, [], .delivery, 800) := by decide

/-- 95 K4. -/
theorem test_fts_0 :
    ((after (.fts 0) State.reset).bind (after (.txs 1))).map (fun t => (t.ret, t.dteTx, t.modem, t.transmit)) =
      some (.value 0, [.resp 0], none, true) := by decide

/-- 95 P3, step 3. -/
theorem test_frh_3 :
    (after (.frh 3) State.reset).map (fun t => (t.modem, t.atRxMode, t.dteIsWaiting, t.dteTx)) =
      some (some .v21Rx, .delivery, true, []) := by decide

/-- 95 K2. -/
theorem test_frh_unknown :
    (after (.frh 24) State.reset).map (fun t => (t.ret, t.log, t.modem)) =
      some (.value (-1), [.unknownClass1Val], none) := by decide

/-- 95 K3. -/
theorem test_fth_3 :
    (after (.fth 3) State.reset).map (fun t => (t.modem, t.atRxMode, t.dteDataTimeout, t.dteTx, t.bitRate)) =
      some (some .v21Tx, .hdlc, 40000, [.resp 1], .r300) := by decide

/-- 95 K2. -/
theorem test_fth_4 :
    (after (.fth 4) State.reset).map (fun t => (t.ret, t.log, t.dteTx)) =
      some (.value (-1), [.unknownClass1Val], []) := by decide

/-- 95, the class-1 table. -/
theorem test_frm_146 :
    (after (.frm 146) State.reset).map (fun t =>
      (t.modem, t.bitRate, t.shortTrain, t.rxHandler, t.atRxMode, t.dteIsWaiting)) =
      some (some .v17Rx, .r14400, true, .earlyV17, .delivery, true) := by decide

/-- 95 K8. -/
theorem test_frm_idempotent :
    ((after (.frm 96) State.reset).bind (after (.frm 72))).map (fun t => (t.bitRate, t.cfg.fastBitRate)) =
      some (.r7200, .r9600) := by decide

/-- 95, the class-1 table. -/
theorem test_ftm_24 :
    (after (.ftm 24) State.reset).map (fun t =>
      (t.modem, t.bitRate, t.txHandler, t.dteTx)) =
      some (some .v27terTx, .r2400, .v27ter, [.resp 1]) := by decide

/-- 95 K1. -/
theorem test_ftm_95 :
    (after (.ftm 95) State.reset).map (fun t => (t.ret, t.log, t.modem, t.dteTx)) =
      some (.value (-1), [.unknownClass1Val], none, []) := by decide

/-- 95 H8: one 0x10 stored, one dropped. -/
theorem test_dte_hdlc_sub :
    (after (.dte 0x1A) { inMode .v21Tx .hdlc with dled := true, hdlcTxLen := 255 }).map (fun t =>
      (t.hdlcTxLen, t.hdlcTxBuf, t.log, t.dled)) = some (256, [(255, 0x10)], [.bufferExhausted], false) := by decide

/-- 95 H5. -/
theorem test_dte_hdlc_etx :
    (after (.dte 0x03) { inMode .v21Tx .hdlc with dled := true, hdlcTxLen := 2, hdlcTxBuf := [(0, 0xFF), (1, 0x03)] }).map
      (fun t => (t.frameOut, t.hdlcFinal, t.hdlcTxLen, t.dteDataTimeout)) =
      some ([.frame [0xFF, 0x03]], false, 0, 0) := by decide

/-- 95 G2: the first bit of A5. -/
theorem test_getBit_loads :
    (after .getBit { inMode .v29Tx .stuffed with txData := [(0, 0xA5)], txInBytes := 1 }).map (fun t =>
      (t.ret, t.txCurrentByte, t.txBitNo, t.txOutBytes, t.txDataStarted)) = some (.value 1, 0x52, 7, 1, true) := by decide

/-- 95 G4. -/
theorem test_getBit_end :
    (after .getBit { inMode .v29Tx .stuffed with dataFinal := true }).map (fun t =>
      (t.ret, t.dataFinal, t.txBitNo)) = some (.value (-7), false, 0) := by decide

/-- 95 B1: the eighth bit of 0x10 under MSB_FIRST. -/
theorem test_putBit_eighth :
    (after (.putBit false) { State.reset with rxCurrentByte := 0x08, rxBitNo := 7 }).map (fun t =>
      (t.dteTx, t.rxBitNo, t.rxCurrentByte)) = some ([.byte 0x10, .byte 0x10], 0, 0) := by decide

/-- 95 P7, step 7 under LSB_FIRST: the third 1. -/
theorem test_putBit_lsb :
    (after (.putBit true) { State.reset with
      rxCurrentByte := 0xC0, rxBitNo := 2, params := { Config.defaults with putBitOrder := .lsbFirst } }).map (fun t =>
      (t.rxCurrentByte, t.rxBitNo)) = some (0xE0, 3) := by decide

/-- 95 B4. -/
theorem test_putBitCarrierDown :
    (after .putBitCarrierDown { inMode .v29Rx .delivery with dteIsWaiting := true, rxTrained := true, rxBitNo := 3 }).map
      (fun t => (t.dteTx, t.atRxMode, t.rxTrained, t.rxBitNo)) =
      some ([.byte 0x10, .byte 0x03, .resp 3], .offhookCommand, false, 0) := by decide

/-- 95 B7. -/
theorem test_putBitCarrierDown_guarded :
    (after .putBitCarrierDown { inMode .v29Rx .delivery with
      dteIsWaiting := true, params := { Config.defaults with carrierDownGuard := .signalPresent } }).map (fun t =>
      (t.dteTx, t.atRxMode, t.dteIsWaiting)) = some ([], .delivery, true) := by decide

/-- 95 B6. -/
theorem test_putBitCarrierUp :
    (after .putBitCarrierUp State.reset) = some State.reset := by decide

/-- 95 B5. -/
theorem test_putBitTrainingInProgress :
    (after .putBitTrainingInProgress State.reset) = some State.reset := by decide

/-- 95 P7, step 4. -/
theorem test_putBitTrainingSucceeded :
    (after .putBitTrainingSucceeded { inMode .v29Rx .delivery with rxHandler := .earlyV29 }).map (fun t =>
      (t.rxHandler, t.rxTrained, t.rxSignalPresent, t.dteTx)) = some (.v29, true, true, [.resp 1]) := by decide

/-- 95 B6. -/
theorem test_putBitTrainingFailed :
    (after .putBitTrainingFailed State.reset) = some State.reset := by decide

/-- 95 B5. -/
theorem test_putBitOther :
    (after (.putBitOther 0xFA) State.reset) = some State.reset := by decide

/-- 95 V1. -/
theorem test_hdlcRx_ok :
    (after (.hdlcRx true) receiving).map (fun t => (t.dteTx, t.atRxMode, t.dteIsWaiting)) =
      some ([.byte 0xFF, .byte 0x03, .byte 0x2F, .byte 0xAB, .byte 0x10, .byte 0x10, .byte 0x10, .byte 0x03,
        .resp 0], .offhookCommand, false) := by decide

/-- 95 V4. -/
theorem test_hdlcRx_deferred :
    (after (.hdlcRx true) { receiving with frameIn := { len := 0, bytes := [0x12, 0x13] } }).map (fun t =>
      (t.dteTx, t.okIsPending)) = some ([.byte 0x12, .byte 0x13, .byte 0x10, .byte 0x03], true) := by decide

/-- 95 P5, step 6. -/
theorem test_hdlcEvFramingOk_in_cng :
    (after .hdlcEvFramingOk { inMode .cng .offhookCommand with txHandler := .toneCng, rxHandler := .cng, transmit := true }).map
      (fun t => (t.modem, t.rxHandler, t.transmit, t.qData)) =
      some (some .v21Rx, .fsk, false, [(0, 1), (1, 0), (2, 1)]) := by decide

/-- 95 P8, step 4, adaptive receive off. -/
theorem test_hdlcEvFramingOk_carrier_error :
    (after .hdlcEvFramingOk { inMode .v29Rx .delivery with rxHandler := .earlyV29, dteIsWaiting := true }).map (fun t =>
      (t.modem, t.rxHandler, t.log, t.dteTx)) =
      some (some .silenceTx, .fsk, [.carrierError], [.resp 8]) := by decide

/-- 95 V6. -/
theorem test_hdlcEvCarrierDown :
    (after .hdlcEvCarrierDown { receiving with okIsPending := true }).map (fun t =>
      (t.dteTx, t.okIsPending, t.dteIsWaiting, t.atRxMode)) = some ([.resp 0], false, false, .offhookCommand) := by decide

/-- 95 V10. -/
theorem test_hdlcEvCarrierDown_queued :
    (after .hdlcEvCarrierDown { receiving with dteIsWaiting := false }).map (fun t =>
      (t.dteTx, t.qData, t.rxMessageReceived)) = some ([], [(0, 1), (1, 0), (2, 3)], false) := by decide

/-- 95 V12. -/
theorem test_hdlcEvCarrierUp :
    (after .hdlcEvCarrierUp State.reset) = some State.reset := by decide

/-- 95 V12. -/
theorem test_hdlcEvOther :
    (after (.hdlcEvOther 0xFD) State.reset) = some State.reset := by decide

/-- 95 X1. -/
theorem test_hdlcTxu_invites :
    (after .hdlcTxu { inMode .v21Tx .hdlc with callSamples := 7 }).map (fun t => (t.dteTx, t.dteDataTimeout)) =
      some ([.resp 1], 40007) := by decide

/-- 95 X2. -/
theorem test_hdlcTxu_ends :
    (after .hdlcTxu { inMode .v21Tx .hdlc with hdlcFinal := true }).map (fun t => (t.frameOut, t.hdlcFinal, t.dteTx)) =
      some ([.theEnd], false, []) := by decide

/-- 95 E2. -/
theorem test_rxs_timeout :
    (after (.rxs true) { inMode .v21Tx .hdlc with callSamples := 40000, dteDataTimeout := 40000 }).map (fun t =>
      (t.log, t.dteTx, t.modem, t.atRxMode, t.dteDataTimeout)) =
      some ([.dteTimeout], [.resp 4], some .silenceTx, .offhookCommand, 0) := by decide

/-- 95 E5, the 480001st sample. -/
theorem test_rxs_no_carrier :
    (after (.rxs false) { inMode .cng .offhookCommand with callSamples := 480000 }).map (fun t =>
      (t.log, t.dteTx, t.modem, t.modemCtrl, t.atRxMode)) =
      some ([.noCarrierOnAnswer], [.resp 3], some .silenceTx, [.hangup], .onhookCommand) := by decide

/-- 95 L7, pull 9. -/
theorem test_txs_ced_switches :
    (after (.txs 200) { inMode .ced .offhookCommand with
      transmit := true, txHandler := .silence, nextTxHandler := .toneCed, silenceTxRemaining := .samples 0, dspIn := [200] }).map
      (fun t => (t.ret, t.txHandler, t.nextTxHandler, t.modem)) = some (.value 200, .toneCed, .none, some .ced) := by decide

/-- 95 L7, pull 113. -/
theorem test_txs_ced_completes :
    (after (.txs 200) { inMode .ced .offhookCommand with transmit := true, txHandler := .toneCed, dspIn := [0] }).map
      (fun t => (t.modem, t.atRxMode, t.dteDataTimeout, t.dteTx)) =
      some (some .v21Tx, .hdlc, 40000, []) := by decide

/-- 95 Q4. -/
theorem test_qWrite :
    (after .qWrite { State.reset with frameIn := { len := 0, bytes := [0x00, 0xFF, 0x13, 0x12, 0x34] }, qIptr := 3, qOptr := 3 }).map
      (fun t => (t.qData, t.qIptr, t.ret)) =
      some ([(3, 5), (4, 0), (5, 0x00), (6, 0xFF), (7, 0x13), (8, 0x12), (9, 0x34)], 10, .value 5) := by decide

/-- 95 Q9: no byte is free. -/
theorem test_qWrite_full :
    (after .qWrite { State.reset with frameIn := { len := 0, bytes := [1] }, qIptr := 4095 }).map (fun t =>
      (t.ret, t.qData, t.qIptr)) = some (.value (-1), [], 4095) := by decide

/-- 95 Q10: a record across the end of the ring. -/
theorem test_qRead :
    (after .qRead { State.reset with
      qData := [(0, 0xAA), (1, 0xBB), (4094, 2), (4095, 0)], qIptr := 2, qOptr := 4094 }).map (fun t =>
      (t.ret, t.qOptr)) = some (.record [0xAA, 0xBB], 2) := by decide

/-- 95 Q3. -/
theorem test_qRead_empty :
    (after .qRead State.reset).map (fun t => (t.ret, t.qOptr)) = some (.value (-1), 0) := by decide

/-- 95 Q5. -/
theorem test_qFlush :
    (after .qFlush ringOne).map (fun t => (t.qIptr, t.qOptr)) = some (0, 0) := by decide

/-- 95, section 1.3. -/
theorem test_bitrev8 :
    bitrev8 0x13 = 0xC8 ∧ bitrev8 0xC8 = 0x13 ∧ bitrev8 0x10 = 0x08 := by decide

/-! ### Witnesses: for each statement with hypotheses, a state and operands that meet all of them together, and
for a statement of several clauses one for each, at a boundary of its range -/

theorem witness_DecodeOfEncode : ∃ i : Instr, i.wellFormed = true ∧ i = .putBitOther 0x02 :=
  ⟨_, by decide, rfl⟩

theorem witness_EncodeOfDecode : ∃ (w : CmdWord) (i : Instr), decode w = .ok i ∧ i = .hdlcEvOther 0xF9 :=
  ⟨0x61F9, _, by decide, rfl⟩

theorem witness_DecodeRefusesExactlyReservedWords :
    (∃ cls sub arg : Nat, cls < 16 ∧ sub < 16 ∧ arg < 256 ∧ ReservedWord cls sub arg ∧ cls = 15 ∧ sub = 15) ∧
    ∃ cls sub arg : Nat, cls < 16 ∧ sub < 16 ∧ arg < 256 ∧ ¬ ReservedWord cls sub arg ∧ cls = 0 ∧ arg = 2 :=
  ⟨⟨15, 15, 255, by decide, by decide, by decide, .inl (by decide), rfl, rfl⟩,
    ⟨0, 4, 2, by decide, by decide, by decide, by simp [ReservedWord], rfl, rfl⟩⟩

/-- A command with nothing on FRAME_IN and DSP_IN. -/
def command (w : CmdWord) : Command := { word := w, frame := { len := 0, bytes := [] }, dsp := [] }

theorem witness_StepRunsTheDecodedOperation : ∃ (s : State) (c : Command) (rest : List Command) (i : Instr),
    s.cmdIn = c :: rest ∧ decode c.word = .ok i ∧ i = .fts 80 :=
  ⟨{ State.reset with cmdIn := [command 0x2150, command 0x81A0] }, _, _, _, rfl, rfl, rfl⟩

theorem witness_StepWithoutAnOperation : State.reset.cmdIn = [] ∧
    ∃ (s : State) (c : Command) (rest : List Command) (e : DecodeError),
      s.cmdIn = c :: rest ∧ decode c.word = .error e ∧ e = .reservedClass :=
  ⟨rfl, { State.reset with cmdIn := [command 0xA000] }, _, _, _, rfl, rfl, rfl⟩

theorem witness_ReleaseEndsTheSession : receiving.live = true ∧ Instr.qFlush ≠ .init := by decide

theorem witness_RefusedWithoutSessionOrInT38Mode :
    (∃ (i : Instr) (s : State), i ≠ .init ∧ s.session = false ∧ i = .restartV21Rx) ∧
    ∃ (i : Instr) (s : State), i ≠ .init ∧ s.session = true ∧ s.t38Mode = true ∧ i = .dte 0x10 :=
  ⟨⟨_, { State.reset with session := false }, by decide, rfl, rfl⟩,
    ⟨_, { State.reset with t38Mode := true }, by decide, rfl, rfl, rfl⟩⟩

theorem witness_SetToiAndSetTepWriteTheirBit : State.reset.live = true := by decide

theorem witness_CallEventsTakeEffect : receiving.live = true := by decide

theorem witness_RestartWiresModesWithoutAFastModem : ∃ (s : State) (m : Mode), s.live = true ∧
    m.usesFast = false ∧ pairAllowed m s.bitRate s.shortTrain ∧ s.modem ≠ some m ∧ m = .v21Tx :=
  ⟨receiving, .v21Tx, by decide, by decide, ⟨rfl, rfl⟩, by decide, rfl⟩

theorem witness_RestartWiresFastModes : ∃ (s : State) (m : Mode), s.live = true ∧
    m.usesFast = true ∧ pairAllowed m s.bitRate s.shortTrain ∧ s.modem ≠ some m ∧ m = .v17Rx :=
  ⟨{ receiving with bitRate := .r14400, shortTrain := true }, .v17Rx, by decide, by decide,
    Or.inr (Or.inr (Or.inr rfl)), by decide, rfl⟩

theorem witness_RestartOfTheActiveModeIsIdle : ∃ (s : State) (m : Mode), s.live = true ∧
    pairAllowed m s.bitRate s.shortTrain ∧ s.modem = some m ∧ m = .v29Tx :=
  ⟨{ inMode .v29Tx .stuffed with bitRate := .r9600 }, .v29Tx, by decide, ⟨Or.inr rfl, rfl⟩, rfl, rfl⟩

theorem witness_RestartNeedsALegalPair :
    (∃ (s : State) (m : Mode), ¬ pairAllowed m s.bitRate s.shortTrain ∧ s.live = true ∧ m = .v27terRx) ∧
    ∃ row, row ∈ class1Rows ∧ row.1 = 146 :=
  ⟨⟨{ State.reset with bitRate := .r4800, shortTrain := true }, _, by simp [pairAllowed], by decide, rfl⟩,
    (146, .v17Tx, .v17Rx, .r14400, true), by decide, rfl⟩

theorem witness_RestartTwiceIsRestartOnce : ∃ (s t : State) (m : Mode),
    exec (restartInstr m) s = .next t ∧ t.ret = .value 0 ∧ m = .ced ∧ s.modem = none :=
  ⟨State.reset, _, .ced, rfl, rfl, rfl, rfl⟩

theorem witness_FtsTransmitsSilence : State.reset.live = true ∧ (0xFF : Byte).toNat * 80 = 20400 := by decide

theorem witness_FrsWaitsForSilence : State.reset.live = true ∧ (0 : Byte).toNat = 0 ∧ (1 : Byte).toNat ≠ 0 := by
  decide

theorem witness_FthEntersHdlcMode : (inMode .v21Rx .offhookCommand).live = true := by decide

theorem witness_FrhWaitsOnAnEmptyQueue :
    (State.reset.live = true ∧ State.reset.modem ≠ some .v21Rx) ∧
    receiving.live = true ∧ receiving.modem = some .v21Rx ∧ receiving.qIptr = receiving.qOptr := by decide

/-- The ring of `ringOne` holds the one record `[01]`. -/
theorem ringOne_holds : RingHolds ringOne [[1]] :=
  ⟨by decide, by decide, by decide, by decide⟩

/-- The empty ring of a state holds no record. -/
theorem ring_empty {s : State} (h : s.qIptr = s.qOptr) : RingHolds s [] :=
  ⟨by simp, by simp [queueBytes], by simp [queueBytes], by
    rw [h]; simp [queueBytes, Nat.mod_eq_of_lt s.qOptr.isLt]⟩

theorem witness_FrhDrainsTheQueue : ringOne.live = true ∧ ringOne.modem = some .v21Rx ∧ RingHolds ringOne [[1]] :=
  ⟨by decide, rfl, ringOne_holds⟩

theorem witness_FtmStartsImageTransmission : State.reset.live = true ∧
    (24, Mode.v27terTx, Mode.v27terRx, BitRate.r2400, false) ∈ class1Rows := by decide

theorem witness_FrmStartsImageReception : State.reset.live = true ∧
    (146, Mode.v17Tx, Mode.v17Rx, BitRate.r14400, true) ∈ class1Rows := by decide

theorem witness_UnknownClass1ValChangesNothing : State.reset.live = true ∧
    (∀ row ∈ class1Rows, row.1 ≠ (147 : Byte).toNat) ∧ (2 : Byte).toNat ≠ 3 := by decide

theorem witness_CommandModeForwardsTheByte : State.reset.live = true ∧ State.reset.atRxMode = .onhookCommand ∧
    (inMode .v21Rx .offhookCommand).atRxMode = .offhookCommand := by decide

/-- HDLC mode with a frame of two bytes and one DLE read (95 H5). -/
def hdlcTwo : State :=
  { inMode .v21Tx .hdlc with dled := true, hdlcTxLen := 2, hdlcTxBuf := [(0, 0xFF), (1, 0x03)] }

/-- STUFFED mode with `tx_data` one byte past the high-water mark and one DLE read. -/
def stuffedDled : State := { inMode .v29Tx .stuffed with dled := true, txInBytes := 3073 }

theorem witness_HdlcModeUnstuffsTheByte : hdlcTwo.live = true ∧ hdlcTwo.atRxMode = .hdlc ∧
    ¬ (hdlcTwo.dled = true ∧ (0x1A : Byte) = 0x03) := by decide

theorem witness_HdlcModeSubmitsTheFrame : hdlcTwo.live = true ∧ hdlcTwo.atRxMode = .hdlc ∧
    hdlcTwo.dled = true ∧ hdlcTwo.hdlcTxLen ≤ hdlcTwo.params.hdlcTxBufLen := by decide

theorem witness_StuffedModeUnstuffsTheByte : stuffedDled.live = true ∧ stuffedDled.atRxMode = .stuffed ∧
    ¬ (stuffedDled.dled = true ∧ (0x10 : Byte) = 0x03) := by decide

theorem witness_StuffedModeEndsTheData : stuffedDled.live = true ∧ stuffedDled.atRxMode = .stuffed ∧
    stuffedDled.dled = true := by decide

theorem witness_StuffedStreamRoundTrip : (inMode .v29Tx .stuffed).live = true ∧
    (inMode .v29Tx .stuffed).atRxMode = .stuffed ∧ (inMode .v29Tx .stuffed).dled = false ∧
    (inMode .v29Tx .stuffed).txInBytes = 0 ∧
    ([0x41, 0x10, 0x42] : List Byte).length ≤ (inMode .v29Tx .stuffed).params.txBufLen := by decide

theorem witness_HdlcStreamRoundTrip : (inMode .v21Tx .hdlc).live = true ∧
    (inMode .v21Tx .hdlc).atRxMode = .hdlc ∧ (inMode .v21Tx .hdlc).dled = false ∧
    (inMode .v21Tx .hdlc).hdlcTxLen = 0 ∧
    ([0xFF, 0x13, 0x10] : List Byte).length ≤ (inMode .v21Tx .hdlc).params.hdlcTxBufLen := by decide

theorem witness_DeliveryModeAborts : receiving.live = true ∧ receiving.atRxMode = .delivery ∧
    receiving.rxSignalPresent = true := by decide

/-- The last byte of `tx_data` is about to be sent. -/
def lastByte : State :=
  { inMode .v29Tx .stuffed with txData := [(4095, 0xA5)], txInBytes := 4096, txOutBytes := 4095, txHolding := true }

theorem witness_GetBitAnswersABit :
    (∃ s : State, s.live = true ∧ s.txBitNo ≠ 0 ∧ s.txBitNo = 1) ∧
    (lastByte.live = true ∧ lastByte.txBitNo = 0 ∧ lastByte.txOutBytes ≠ lastByte.txInBytes ∧
      lastByte.txOutBytes < lastByte.params.txBufLen) ∧
    (∃ s : State, s.live = true ∧ s.txBitNo = 0 ∧ s.txOutBytes = s.txInBytes ∧ s.dataFinal = true) ∧
    ∃ s : State, s.live = true ∧ s.txBitNo = 0 ∧ s.txOutBytes = s.txInBytes ∧ s.dataFinal = false :=
  ⟨⟨{ State.reset with txBitNo := 1 }, by decide⟩, by decide,
    ⟨{ State.reset with dataFinal := true }, by decide⟩, ⟨State.reset, by decide⟩⟩

theorem witness_EightGetBitsSendTheByte : ∃ v : Byte, lastByte.live = true ∧ lastByte.txBitNo = 0 ∧
    lastByte.txOutBytes ≠ lastByte.txInBytes ∧ lastByte.txOutBytes < lastByte.params.txBufLen ∧
    lastByte.txData.byteAt lastByte.txOutBytes = some v := ⟨0xA5, by decide⟩

theorem witness_PutBitShiftsTheBitIn : ∃ s : State, s.live = true ∧ s.rxBitNo = 7 ∧
    s.params.putBitOrder = .msbFirst := ⟨{ State.reset with rxBitNo := 7 }, by decide⟩

theorem witness_PutBitShiftsTheBitIn_lsb : ∃ s : State, s.live = true ∧ s.rxBitNo = 6 ∧
    s.params.putBitOrder = .lsbFirst :=
  ⟨{ State.reset with rxBitNo := 6, params := { Config.defaults with putBitOrder := .lsbFirst } }, by decide⟩

theorem witness_EightPutBitsDeliverTheByte : receiving.live = true ∧ receiving.rxBitNo = 0 := by decide

theorem witness_SentBytesArriveByBitOrder : ∃ (s r : State) (p : List Byte),
    s.live = true ∧ r.live = true ∧ s.txBitNo = 0 ∧ r.rxBitNo = 0 ∧
    s.txInBytes = s.txOutBytes + p.length ∧ s.txInBytes ≤ s.params.txBufLen ∧
    (∀ i, i < p.length → s.txData.byteAt (s.txOutBytes + i) = p[i]?) ∧ p.length = 2 :=
  ⟨{ lastByte with txOutBytes := 4094, txData := [(4094, 0x10), (4095, 0xA5)] }, State.reset, [0x10, 0xA5],
    by decide⟩

theorem witness_TrainingSucceededConnects : ∃ s : State, s.live = true ∧ s.rxHandler = .earlyV29 :=
  ⟨{ inMode .v29Rx .delivery with rxHandler := .earlyV29 }, by decide⟩

theorem witness_FastCarrierDownEndsTheData : State.reset.live = true ∧
    State.reset.params.carrierDownGuard = .noGuard := by decide

theorem witness_NotedValuesChangeNothing : receiving.live = true := by decide

theorem witness_HdlcUnderflowInvitesOrEnds : hdlcTwo.live = true ∧ hdlcTwo.modem = some .v21Tx ∧
    hdlcTwo.hdlcFinal = false ∧ ({ hdlcTwo with hdlcFinal := true } : State).hdlcFinal = true ∧
    receiving.modem ≠ some .v21Tx := by decide

theorem witness_FrameIsDeliveredToAWaitingCommand : receiving.live = true ∧ receiving.okIsPending = false ∧
    receiving.dteIsWaiting = true ∧ receiving.frameIn.len ≤ 254 ∧
    receiving.frameIn.len + 2 ≤ receiving.frameIn.bytes.length := by decide

theorem witness_FrameIsQueuedForNoCommand : ∃ (s : State) (rxq : List (List Byte)), s.live = true ∧
    s.okIsPending = false ∧ s.dteIsWaiting = false ∧ s.frameIn.len ≤ 254 ∧
    s.frameIn.len + 2 ≤ s.frameIn.bytes.length ∧ RingHolds s rxq ∧ rxq = [[1]] :=
  ⟨{ ringOne with frameIn := frameA }, _, by decide, by decide, by decide, by decide, by decide,
    ringOne_holds.congr rfl rfl rfl, rfl⟩

/-- A record of `n` bytes on FRAME_IN. -/
def record (n : Nat) : FrameInput := { len := 0, bytes := List.replicate n 0x55 }

theorem record_length (n : Nat) : (record n).bytes.length = n := List.length_replicate

theorem witness_FrameInputIsIgnoredOrRefused :
    (∃ s : State, s.live = true ∧ s.okIsPending = true ∧ s.frameIn.len ≤ 254 ∧
      s.frameIn.len + 2 ≤ s.frameIn.bytes.length) ∧
    (∃ s : State, s.live = true ∧ s.frameIn.len = 255 ∧ 254 < s.frameIn.len) ∧
    (∃ s : State, s.live = true ∧ s.frameIn.bytes.length < s.frameIn.len + 2 ∧ s.frameIn.bytes.length = 1) ∧
    (∃ s : State, s.live = true ∧ s.frameIn.bytes = []) ∧
    ∃ s : State, s.live = true ∧ 257 < s.frameIn.bytes.length ∧ s.frameIn.bytes.length = 258 :=
  ⟨⟨{ receiving with okIsPending := true }, by decide⟩,
    ⟨{ State.reset with frameIn := { len := 255, bytes := [] } }, by decide⟩,
    ⟨{ State.reset with frameIn := { len := 0, bytes := [0x12] } }, by decide⟩, ⟨State.reset, by decide⟩,
    ⟨{ State.reset with frameIn := record 258 }, rfl,
      Nat.lt_of_lt_of_eq (by decide : 257 < 258) (record_length 258).symm, record_length 258⟩⟩

theorem witness_FramingOkGivesConnectOnce :
    (∃ (s : State) (rxq : List (List Byte)), s.live = true ∧ s.modem = some .v21Rx ∧ RingHolds s rxq ∧
      s.rxMessageReceived = true) ∧
    (∃ (s : State) (rxq : List (List Byte)), s.live = true ∧ s.modem = some .nocng ∧ RingHolds s rxq ∧
      s.rxMessageReceived = false ∧ s.dteIsWaiting = true) ∧
    ∃ (s : State) (rxq : List (List Byte)), s.live = true ∧ s.modem = some .v21Rx ∧ RingHolds s rxq ∧
      s.rxMessageReceived = false ∧ s.dteIsWaiting = false ∧ rxq = [[1]] :=
  ⟨⟨receiving, [], by decide, rfl, ring_empty rfl, rfl⟩,
    ⟨{ inMode .nocng .delivery with dteIsWaiting := true }, [], by decide, rfl, ring_empty rfl, rfl, rfl⟩,
    ⟨ringOne, _, by decide, rfl, ringOne_holds, rfl, rfl, rfl⟩⟩

theorem witness_CarrierErrorDuringFastReceive : ∃ s : State, s.live = true ∧ s.modem = some .v27terRx ∧
    s.rxHandler.isEarly = true ∧ s.adaptiveReceive = true :=
  ⟨{ inMode .v27terRx .delivery with rxHandler := .earlyV27ter, adaptiveReceive := true }, by decide⟩

theorem witness_EventsWithoutACaseChangeNothing : ∃ s : State, s.live = true ∧ s.modem ≠ some .v21Rx ∧
    s.modem ≠ some .cng ∧ s.modem ≠ some .nocng ∧ s.rxHandler.isEarly = false ∧ s.modem = some .v17Rx :=
  ⟨{ inMode .v17Rx .delivery with rxHandler := .v17 }, by decide⟩

theorem witness_EventsWithoutACaseChangeNothing_early : ∃ s : State, s.live = true ∧ s.modem ≠ some .v21Rx ∧
    s.modem ≠ some .cng ∧ s.modem ≠ some .nocng ∧ s.modem = none ∧ s.rxHandler.isEarly = true :=
  ⟨{ State.reset with rxHandler := .earlyV17 }, by decide⟩

theorem witness_EventsWithoutACaseChangeNothing_unassigned : ∃ (s : State) (i : Instr), s.live = true ∧
    (i = .putBitTrainingInProgress ∨ i = .hdlcEvCarrierUp ∨ ∃ v, i = .putBitOther v ∨ i = .hdlcEvOther v) ∧
    i = .hdlcEvOther 0xFB :=
  ⟨receiving, _, by decide, .inr (.inr ⟨0xFB, .inr rfl⟩), rfl⟩

theorem witness_V21CarrierDownEndsTheReceive :
    (∃ (s : State) (rxq : List (List Byte)), s.live = true ∧ s.modem = some .v21Rx ∧ RingHolds s rxq ∧
      s.okIsPending = true) ∧
    (∃ (s : State) (rxq : List (List Byte)), s.live = true ∧ s.modem = some .cng ∧ RingHolds s rxq ∧
      s.okIsPending = false ∧ s.rxMessageReceived = true ∧ s.dteIsWaiting = true) ∧
    (∃ (s : State) (rxq : List (List Byte)), s.live = true ∧ s.modem = some .v21Rx ∧ RingHolds s rxq ∧
      s.okIsPending = false ∧ s.rxMessageReceived = true ∧ s.dteIsWaiting = false ∧ rxq = [[1]]) ∧
    ∃ (s : State) (rxq : List (List Byte)), s.live = true ∧ s.modem = some .nocng ∧ RingHolds s rxq ∧
      s.okIsPending = false ∧ s.rxMessageReceived = false :=
  ⟨⟨{ receiving with okIsPending := true }, [], by decide, rfl, ring_empty rfl, rfl⟩,
    ⟨{ receiving with modem := some .cng }, [], by decide, rfl, ring_empty rfl, rfl, rfl, rfl⟩,
    ⟨{ ringOne with rxMessageReceived := true }, _, by decide, rfl, ringOne_holds.congr rfl rfl rfl, rfl, rfl, rfl,
      rfl⟩,
    ⟨inMode .nocng .delivery, [], by decide, rfl, ring_empty rfl, rfl, rfl⟩⟩

theorem witness_RxsRunsItsChecksInOrder : (inMode .cng .offhookCommand).live = true := by decide

theorem witness_TxsPullsFromTheHandlers :
    (State.reset.live = true ∧ State.reset.transmit = false) ∧
    ∃ s : State, s.live = true ∧ s.transmit = true ∧ s.nextTxHandler ≠ .none ∧ s.silenceTxRemaining = .samples 1 :=
  ⟨by decide, { inMode .ced .offhookCommand with
    transmit := true, txHandler := .silence, nextTxHandler := .toneCed, silenceTxRemaining := .samples 1 },
    by decide⟩

theorem witness_RingIsABoundedQueueOfRecords :
    (∃ (s : State) (rxq : List (List Byte)), s.live = true ∧ RingHolds s rxq ∧ 1 ≤ s.frameIn.bytes.length ∧
      s.frameIn.bytes.length ≤ 257 ∧ s.frameIn.bytes.length = 257 ∧ ∃ rec rest, rxq = rec :: rest) ∧
    ∃ (s : State) (rxq : List (List Byte)), s.live = true ∧ RingHolds s rxq ∧ rxq = [] :=
  ⟨⟨{ ringOne with frameIn := record 257 }, _, rfl, ringOne_holds.congr rfl rfl rfl,
      Nat.lt_of_lt_of_eq (by decide : 0 < 257) (record_length 257).symm, Nat.le_of_eq (record_length 257),
      record_length 257, [1], [], rfl⟩,
    ⟨receiving, [], rfl, ring_empty rfl, rfl⟩⟩

/-- A fast receive at 9600 bit/s that has not trained, with image data and a queued record still held, and a
command pending. -/
def fastReceive : State :=
  { inMode .v29Rx .delivery with
    bitRate := .r9600
    rxHandler := .earlyV29
    txHandler := .silence
    dteIsWaiting := true
    txData := [(0, 0xA5), (1, 0x10)]
    txInBytes := 2
    txOutBytes := 1
    qData := [(0, 1), (1, 0), (2, 1)]
    qIptr := 3
    samples := 20
    callSamples := 10
    cfg := { State.reset.cfg with fastBitRate := .r9600 }
    cmdIn := [command 0x8000] }

theorem fastReceive_inv : StateInv fastReceive where
  params := by decide
  t38Mode := rfl
  canonical := by intro m; cases m <;> decide
  bounded := by
    intro m i hi
    cases m
    · simp only [State.memory, fastReceive, Memory.byteAt] at hi
      split at hi
      · subst_vars; decide
      · split at hi
        · subst_vars; decide
        · cases hi
    · cases hi
    · cases hi
    · simp only [State.memory, fastReceive, Memory.byteAt] at hi
      split at hi
      · subst_vars; decide
      · split at hi
        · subst_vars; decide
        · split at hi
          · subst_vars; decide
          · cases hi
  txCursors := by decide
  txWritten := by
    intro i hi
    have h : i = 0 ∨ i = 1 := by have : i < 2 := hi; omega
    rcases h with rfl | rfl <;> decide
  hdlcTx := ⟨by decide, fun i hi => absurd hi (Nat.not_lt_zero i)⟩
  hdlcRx := by decide
  bitCounters := by decide
  queue := ⟨[[1]], ringOne_holds.congr rfl rfl rfl⟩
  early := fun _ => ⟨rfl, rfl⟩
  fastRate := by
    intro m hm _
    cases hm
    decide
  silence := ⟨by decide, fun n hn => by cases hn⟩
  clocks := by decide
  deadline := by decide

theorem witness_StepKeepsInv : ∃ s t : State, StateInv s ∧ step s = .next t ∧ t.samples = 21 :=
  ⟨fastReceive, _, fastReceive_inv, rfl, rfl⟩

theorem witness_StepNeverStops : StateInv fastReceive ∧ fastReceive.cmdIn ≠ [] := ⟨fastReceive_inv, by decide⟩

theorem witness_OutOfRangeCursorsStop :
    (∃ s : State, s.live = true ∧ s.txBitNo = 0 ∧ s.txOutBytes ≠ s.txInBytes ∧
      s.params.txBufLen ≤ s.txOutBytes ∧ s.txOutBytes = 4096) ∧
    ∃ s : State, s.live = true ∧ s.atRxMode = .hdlc ∧ s.dled = true ∧
      s.params.hdlcTxBufLen < s.hdlcTxLen ∧ s.hdlcTxLen = 257 :=
  ⟨⟨{ State.reset with txOutBytes := 4096 }, by decide⟩, ⟨{ hdlcTwo with hdlcTxLen := 257 }, by decide⟩⟩

theorem witness_RegistersHaveTheirOwnWriters : ∃ s t : State, exec (.rxs true) s = .next t ∧
    (Instr.rxs true) ≠ .init ∧ t.samples ≠ s.samples ∧ t.callSamples ≠ s.callSamples :=
  ⟨fastReceive, _, rfl, by decide, by decide, by decide⟩

theorem witness_RegistersHaveTheirOwnWriters_loads : ∃ s t : State, exec (.frm 73) s = .next t ∧
    (Instr.frm 73) ≠ .init ∧ t.bitRate ≠ s.bitRate := ⟨State.reset, _, rfl, by decide, by decide⟩

theorem witness_RegistersHaveTheirOwnWriters_session : ∃ s t : State, exec .release s = .next t ∧
    t.session ≠ s.session := ⟨State.reset, _, rfl, by decide⟩

theorem witness_RegistersHaveTheirOwnWriters_flags :
    (∃ s t : State, exec (.setToi true) s = .next t ∧ t.transmitOnIdle ≠ s.transmitOnIdle) ∧
    ∃ s t : State, exec (.setTep true) s = .next t ∧ t.useTep ≠ s.useTep :=
  ⟨⟨State.reset, _, rfl, by decide⟩, ⟨State.reset, _, rfl, by decide⟩⟩

theorem witness_RegistersHaveTheirOwnWriters_memories :
    (∃ s t : State, exec (.dte 0x41) s = .next t ∧ t.dled ≠ s.dled ∧ t.txData ≠ s.txData) ∧
    (∃ s t : State, exec (.dte 0x41) s = .next t ∧ t.hdlcTxBuf ≠ s.hdlcTxBuf) ∧
    ∃ s t : State, exec .qWrite s = .next t ∧ t.qData ≠ s.qData :=
  ⟨⟨stuffedDled, _, rfl, by decide, by decide⟩, ⟨hdlcTwo, _, rfl, by decide⟩,
    ⟨{ State.reset with frameIn := frameA }, _, rfl, by decide⟩⟩

theorem witness_ModemChangesOnlyByItsTransitions : ∃ s t : State, exec .hdlcEvFramingOk s = .next t ∧
    t.modem ≠ s.modem ∧ t.modem = some .silenceTx := ⟨fastReceive, _, rfl, by decide, rfl⟩

/-- 60 R292, 40 R141: with `s7` 60 the sample 480001 of the call ends CNG, the sample 480000 does not. -/
theorem witness_ModemChangesOnlyByItsTransitions_s7 :
    (after (.rxs false) { inMode .cng .delivery with callSamples := 480000 }).map (fun t => t.modem) =
      some (some .silenceTx) ∧
    (after (.rxs false) { inMode .cng .delivery with callSamples := 479999 }).map (fun t => t.modem) =
      some (some .cng) := by decide

/-- 45 R278, 40 R141: TXS completes SILENCE_TX once `transmit` is set and its silence is over. -/
theorem witness_ModemChangesOnlyByItsTransitions_txs :
    (after (.txs 1) { inMode .silenceTx .offhookCommand with
      transmit := true, txHandler := .silence, silenceTxRemaining := .samples 0 }).map (fun t => t.modem) =
      some none := by decide

theorem witness_OutputTracesOnlyGrow : ∃ s t : State, exec (.hdlcRx true) s = .next t ∧
    (Instr.hdlcRx true) ≠ .init ∧ t.dteTx.length = s.dteTx.length + 9 := ⟨receiving, _, rfl, by decide, by decide⟩

theorem witness_DualRailEndsWithOneDemodulator : ∃ s t : State, StateInv s ∧ exec (.rxs false) s = .next t ∧
    t.rxHandler.isEarly = true ∧ s.live = true := ⟨fastReceive, _, fastReceive_inv, rfl, rfl, rfl⟩

theorem witness_DualRailEndsWithOneDemodulator_restart : ∃ s t : State, StateInv s ∧
    exec .restartV17Rx s = .next t ∧ t.rxHandler.isEarly = true ∧ t.rxHandler ≠ s.rxHandler :=
  ⟨fastReceive, _, fastReceive_inv, rfl, rfl, by decide⟩

end Sys2Proof.Tests
end

/-! ## Scope: the step and the output traces

The statements of 00_scope.md. `Frame` already says of most shared operations that they only add to the output
traces; the first part below says it of the remaining ones. The weaker relation `TracesGrow` then joins them with
the few updates that move a register of `Frame` (the rates, the sample counters, `session`, the setter bits). -/

namespace Sys2Proof.Machine

/-! ### The remaining shared operations only add to the traces -/

/-- A byte put out stuffed, or the bit only shifted in (43 R212). -/
theorem frame_putDataBit (s : State) (bit : Bool) : Frame s (s.putDataBit bit) := by
  unfold State.putDataBit
  simp only []
  split <;> exact {}

/-- A byte boundary with data (43 R210, R211). -/
theorem frame_loadTxByte (s : State) : Frame s s.loadTxByte := by
  obtain ⟨hlow, -, -⟩ := frame_checkLowWater
    { s with txCurrentByte := s.cell .txData s.txOutBytes, txOutBytes := s.txOutBytes + 1 }
  exact Frame.trans {} (hlow.trans {})

/-- A byte in HDLC mode, where the model does not stop (42 R182, R183). -/
theorem frame_hdlcByte {s t : State} {b : Byte} (h : s.hdlcByte b = .next t) : Frame s t := by
  have happend (u : State) (x : Byte) : Frame u (u.hdlcAppend x) := (frame_hdlcAppend u x).1
  unfold State.hdlcByte at h
  simp only [] at h
  split at h
  · have hclear : Frame s { s.armDteTimeout with dled := false } := {}
    generalize ({ s.armDteTimeout with dled := false } : State) = u at h hclear
    split at h
    · split at h
      · cases h; exact hclear.trans {}
      · cases h
    · split at h
      · cases h; exact hclear.trans ((happend _ _).trans (happend _ _))
      · cases h; exact hclear.trans (happend _ _)
  · split at h
    · cases h; exact {}
    · cases h; exact Frame.trans {} (happend _ _)

/-- A byte in STUFFED mode (42 R184 to R186). -/
theorem frame_stuffedByte (s : State) (b : Byte) : Frame s (s.stuffedByte b) := by
  have hstore (u : State) (x : Byte) : Frame u (u.stuffedStore x) := (frame_stuffedStore u x).1
  unfold State.stuffedByte
  refine Frame.trans ?_ (frame_checkHighWater _).1
  split
  · have hclear : Frame s { s with dled := false } := {}
    simp only []
    generalize ({ s with dled := false } : State) = u at hclear ⊢
    refine hclear.trans ?_
    split
    · exact {}
    · split
      · exact (hstore _ _).trans (hstore _ _)
      · exact hstore _ _
  · split
    · exact {}
    · exact hstore _ _

/-- A byte from the DTE, in each of the inbound modes (42 R180). -/
theorem frame_dteByte {s t : State} {b : Byte} (h : s.dteByte b = .next t) : Frame s t := by
  unfold State.dteByte at h
  split at h
  · cases h; exact {}
  · cases h; exact {}
  · exact frame_hdlcByte h
  · cases h; exact frame_stuffedByte s b
  · cases h; exact (frame_abortDelivery s).1

/-- A frame given to a waiting command (44 R241, R242). -/
theorem frame_deliverDirect (s : State) (msg : List Byte) (ok : Bool) : Frame s (s.deliverDirect msg ok) := by
  have hframe : Frame s (s.emitStuffed msg).emitEndOfData := Frame.trans (b := s.emitStuffed msg) {} {}
  unfold State.deliverDirect
  simp only []
  generalize (s.emitStuffed msg).emitEndOfData = u at hframe ⊢
  split <;> exact hframe.trans {}

/-- A received frame: dropped, delivered or queued (44 R240). -/
theorem frame_acceptFrame (s : State) (msg : List Byte) (ok : Bool) : Frame s (s.acceptFrame msg ok) := by
  unfold State.acceptFrame
  split
  · exact {}
  · split
    · refine Frame.trans ?_ (frame_deliverDirect _ msg ok)
      split <;> exact {}
    · exact (frame_enqueue s _).1

/-- The carrier error, with and without adaptive receive (44 R244). -/
theorem frame_carrierError (s : State) : Frame s s.carrierError := by
  have hraise : Frame s ({ s with rxHandler := .fsk }.raise .carrierError) := {}
  unfold State.carrierError
  simp only []
  generalize ({ s with rxHandler := .fsk } : State).raise .carrierError = u at hraise ⊢
  split
  · have hfrh3 (v : State) : Frame v ((v.emitResp .frh3).emitResp .connect) :=
      Frame.trans (b := v.emitResp .frh3) {} {}
    exact hraise.trans (Frame.trans {} (hfrh3 _))
  · exact hraise.trans {}

/-- A V.21 preamble in V21_RX (44 R244). -/
theorem frame_v21Preamble (s : State) : Frame s s.v21Preamble := by
  unfold State.v21Preamble
  simp only []
  split
  · exact {}
  · split
    · exact {}
    · exact Frame.trans {} (frame_enqueue _ _).1

/-- FRAMING_OK, after a CNG drop or without one (44 R244). -/
theorem frame_framingOk (s : State) : Frame s s.framingOk := by
  have hdrop : Frame s (if s.inCng then s.cngDrop else s) := by split <;> exact {}
  unfold State.framingOk
  simp only []
  generalize (if s.inCng then s.cngDrop else s) = u at hdrop ⊢
  split
  · exact hdrop.trans (frame_carrierError u)
  · split
    · exact hdrop.trans (frame_v21Preamble u)
    · exact hdrop

/-- A V.21 carrier that has gone (44 R245). -/
theorem frame_v21CarrierDown (s : State) : Frame s s.v21CarrierDown := by
  unfold State.v21CarrierDown
  refine Frame.trans (b := if s.okIsPending then _ else _) ?_ {}
  split
  · exact {}
  · split
    · refine Frame.trans (b := if s.dteIsWaiting then _ else _) ?_ {}
      split
      · exact {}
      · exact (frame_enqueue s _).1
    · exact {}

/-- The samples of a TXS: the active handler, its successor, the completion (45 R278, R279). -/
theorem frame_pullSamples (s : State) (n : Nat) : Frame s (s.pullSamples n).2 := by
  have hproduce (u : State) (h : TxHandler) (k : Nat) : Frame u (u.produce h k).2 := (frame_produce u h k).1
  have hcomplete (len : Nat) (u : State) : Frame u (if len < n then u.txComplete else u) := by
    split
    · exact (frame_txComplete u).1
    · exact {}
  unfold State.pullSamples
  simp only []
  refine Frame.trans ?_ (hcomplete _ _)
  refine (hproduce s s.txHandler n).trans ?_
  split
  · exact Frame.trans {} (hproduce _ _ _)
  · exact {}

/-! ### The relation every operation but INIT keeps -/

/-- From `s` to `t` each output trace has at most been added to (00 R8, 20 R73). -/
structure TracesGrow (s t : State) : Prop where
  dteTx : s.dteTx <+: t.dteTx
  atCmd : s.atCmd <+: t.atCmd
  modemCtrl : s.modemCtrl <+: t.modemCtrl
  frameOut : s.frameOut <+: t.frameOut
  log : s.log <+: t.log

theorem Frame.tracesGrow {s t : State} (f : Frame s t) : TracesGrow s t :=
  ⟨f.dteTx, f.atCmd, f.modemCtrl, f.frameOut, f.log⟩

theorem TracesGrow.trans {a b c : State} (h : TracesGrow a b) (g : TracesGrow b c) : TracesGrow a c :=
  ⟨h.dteTx.trans g.dteTx, h.atCmd.trans g.atCmd, h.modemCtrl.trans g.modemCtrl, h.frameOut.trans g.frameOut,
    h.log.trans g.log⟩

/-- An update of other fields leaves the traces alone; each equation is found by `rfl`. -/
theorem TracesGrow.of_eq {s t : State} (dteTx : s.dteTx = t.dteTx := by rfl) (atCmd : s.atCmd = t.atCmd := by rfl)
    (modemCtrl : s.modemCtrl = t.modemCtrl := by rfl) (frameOut : s.frameOut = t.frameOut := by rfl)
    (log : s.log = t.log := by rfl) : TracesGrow s t :=
  ⟨dteTx ▸ List.prefix_rfl, atCmd ▸ List.prefix_rfl, modemCtrl ▸ List.prefix_rfl, frameOut ▸ List.prefix_rfl,
    log ▸ List.prefix_rfl⟩

/-- RET is no trace (00 R7). -/
theorem TracesGrow.returns {s t : State} (g : TracesGrow s t) (r : Ret) : TracesGrow s (t.returns r) :=
  g.trans .of_eq

/-- A refused operation emits nothing, so only the body counts (00 R9). -/
theorem operation_tracesGrow {s t : State} {body : State → State} (h : operation s body = .next t)
    (g : TracesGrow s (body s)) : TracesGrow s t := by
  rcases operation_cases s body with ⟨_, hrun⟩ | ⟨_, hrefuse⟩
  · rw [hrun] at h; cases h; exact g
  · rw [hrefuse] at h; cases h; exact .of_eq

theorem operationFaulting_tracesGrow {s t : State} {body : State → Host.Outcome State Fault Refusal}
    (h : operationFaulting s body = .next t) (g : body s = .next t → TracesGrow s t) : TracesGrow s t := by
  unfold operationFaulting at h
  split at h
  · exact g h
  · cases h; exact .of_eq

/-! ### The meanings, one family at a time -/

theorem restartOperation_tracesGrow {s t : State} {m : Mode} (h : restartOperation m s = .next t) :
    TracesGrow s t := by
  refine operation_tracesGrow h ?_
  split
  · exact (frame_restart m s).tracesGrow.returns _
  · exact .of_eq

theorem execCallevHangup_tracesGrow {s t : State} (h : execCallevHangup s = .next t) : TracesGrow s t :=
  operation_tracesGrow h ((frame_restart .silenceTx s).tracesGrow.trans .of_eq)

theorem execFrs_tracesGrow {s t : State} {v : Byte} (h : execFrs v s = .next t) : TracesGrow s t := by
  refine operation_tracesGrow h ((frame_restart .silenceRx s).tracesGrow.trans ?_)
  split
  · exact (frame_emitResp _ _).tracesGrow.returns _
  · exact .of_eq

theorem execFts_tracesGrow {s t : State} {v : Byte} (h : execFts v s = .next t) : TracesGrow s t :=
  operation_tracesGrow h ((frame_restart .silenceTx s).tracesGrow.trans .of_eq)

/-- An unknown `val` is only logged (41 R167). -/
theorem unknownVal_tracesGrow (s : State) : TracesGrow s s.unknownVal :=
  Frame.tracesGrow {}

/-- What FRH, FTH, FRM and FTM begin with: the rate, then the sub-step RESTART (41 R160, R163 to R166). -/
theorem loadRate_restart_tracesGrow (s : State) (rate : BitRate) (short : Bool) (m : Mode) :
    TracesGrow s ((s.loadRate rate short).restart m) :=
  TracesGrow.trans .of_eq (frame_restart m _).tracesGrow

theorem execFrh_tracesGrow {s t : State} {v : Byte} (h : execFrh v s = .next t) : TracesGrow s t := by
  refine operation_tracesGrow h ?_
  split
  · have hwait := (loadRate_restart_tracesGrow s .r300 false .v21Rx).trans
      (.of_eq (t := ({ (s.loadRate .r300 false).restart .v21Rx with transmit := false }).setAtRxMode .delivery))
    exact (hwait.trans (frame_drainQueue _ _ _).1.tracesGrow).returns _
  · exact unknownVal_tracesGrow s

theorem execFth_tracesGrow {s t : State} {v : Byte} (h : execFth v s = .next t) : TracesGrow s t := by
  refine operation_tracesGrow h ?_
  split
  · have hstart := loadRate_restart_tracesGrow s .r300 false .v21Tx
    simp only []
    generalize (s.loadRate .r300 false).restart .v21Tx = u at hstart ⊢
    exact hstart.trans (Frame.tracesGrow {})
  · exact unknownVal_tracesGrow s

theorem execFrm_tracesGrow {s t : State} {v : Byte} (h : execFrm v s = .next t) : TracesGrow s t := by
  refine operation_tracesGrow h ?_
  split
  · exact (loadRate_restart_tracesGrow s _ _ _).trans .of_eq
  · exact unknownVal_tracesGrow s

theorem execFtm_tracesGrow {s t : State} {v : Byte} (h : execFtm v s = .next t) : TracesGrow s t := by
  refine operation_tracesGrow h ?_
  split
  · exact (loadRate_restart_tracesGrow s _ _ _).trans (Frame.tracesGrow {})
  · exact unknownVal_tracesGrow s

theorem execDte_tracesGrow {s t : State} {b : Byte} (h : execDte b s = .next t) : TracesGrow s t := by
  refine operationFaulting_tracesGrow h fun hbody => ?_
  cases hbyte : s.dteByte b with
  | next u =>
    rw [hbyte] at hbody; cases hbody
    exact (frame_dteByte hbyte).tracesGrow.returns _
  | fault f => rw [hbyte] at hbody; cases hbody
  | refused r => rw [hbyte] at hbody; cases hbody

theorem execGetBit_tracesGrow {s t : State} (h : execGetBit s = .next t) : TracesGrow s t := by
  refine operationFaulting_tracesGrow h fun hbody => ?_
  split at hbody
  · split at hbody
    · split at hbody
      · cases hbody; exact (frame_loadTxByte s).tracesGrow.trans .of_eq
      · cases hbody
    · split at hbody
      · cases hbody; exact .of_eq
      · cases hbody; exact .of_eq
  · cases hbody; exact .of_eq

/-- With and without the guard: DLE-ETX and NO_CARRIER, or nothing (43 R214). -/
theorem execPutBitCarrierDown_tracesGrow {s t : State} (h : execPutBitCarrierDown s = .next t) :
    TracesGrow s t := by
  refine operation_tracesGrow h (TracesGrow.trans (b := if _ then _ else _) ?_ .of_eq)
  split
  · exact (Frame.trans (b := s.emitEndOfData) {} {}).tracesGrow
  · exact .of_eq

theorem execHdlcTxu_tracesGrow {s t : State} (h : execHdlcTxu s = .next t) : TracesGrow s t := by
  refine operation_tracesGrow h ?_
  split
  · split <;> exact Frame.tracesGrow {}
  · exact .of_eq

theorem execHdlcRx_tracesGrow {s t : State} {ok : Bool} (h : execHdlcRx ok s = .next t) : TracesGrow s t := by
  refine operation_tracesGrow h ?_
  split
  · exact (frame_acceptFrame s _ ok).tracesGrow.returns _
  · exact .of_eq

theorem execHdlcEvCarrierDown_tracesGrow {s t : State} (h : execHdlcEvCarrierDown s = .next t) :
    TracesGrow s t := by
  refine operation_tracesGrow h (TracesGrow.returns ?_ _)
  split
  · exact (frame_v21CarrierDown s).tracesGrow
  · exact .of_eq

/-- The counters move, then the three checks (45 R276). -/
theorem execRxs_tracesGrow {s t : State} {quiet : Bool} (h : execRxs quiet s = .next t) : TracesGrow s t := by
  have hcount : TracesGrow s (s.countSample quiet) := .of_eq
  have hchecks : Frame (s.countSample quiet) _ :=
    (frame_checkSilence _).1.trans ((frame_checkDteTimeout _).1.trans (frame_checkNoCarrier _).1)
  exact operation_tracesGrow h ((hcount.trans hchecks.tracesGrow).returns _)

theorem execTxs_tracesGrow {s t : State} {n : Byte} (h : execTxs n s = .next t) : TracesGrow s t := by
  refine operation_tracesGrow h
    (TracesGrow.returns (t := (if s.transmit then s.pullSamples n.toNat else (0, s)).2) ?_ _)
  split
  · exact (frame_pullSamples s n.toNat).tracesGrow
  · exact .of_eq

theorem execQWrite_tracesGrow {s t : State} (h : execQWrite s = .next t) : TracesGrow s t := by
  refine operation_tracesGrow h ?_
  split
  · exact .of_eq
  · split
    next hwrite => exact (frame_queueWrite hwrite).1.tracesGrow.returns _
    next => exact .of_eq

theorem execQRead_tracesGrow {s t : State} (h : execQRead s = .next t) : TracesGrow s t := by
  refine operation_tracesGrow h ?_
  split
  next hread => exact (frame_queueRead hread).1.tracesGrow.returns _
  next => exact .of_eq

/-- One case per row of the opcode table; the operations without a lemma of their own are one update. -/
theorem exec_tracesGrow {i : Instr} {s t : State} (h : exec i s = .next t) (hi : i ≠ .init) : TracesGrow s t := by
  unfold exec at h
  cases i with
  | init => exact absurd rfl hi
  | release | setToi | setTep | callevRing | callevAnswer | setT38 | t38Tick
  | putBitCarrierUp | putBitTrainingInProgress | putBitTrainingFailed | putBitOther
  | hdlcEvCarrierUp | hdlcEvOther | qFlush => exact operation_tracesGrow h .of_eq
  | restartFlush | restartSilenceTx | restartSilenceRx | restartCed | restartCng | restartNocng
  | restartV21Tx | restartV17Tx | restartV27terTx | restartV29Tx
  | restartV21Rx | restartV17Rx | restartV27terRx | restartV29Rx => exact restartOperation_tracesGrow h
  | callevHangup => exact execCallevHangup_tracesGrow h
  | frs => exact execFrs_tracesGrow h
  | fts => exact execFts_tracesGrow h
  | frh => exact execFrh_tracesGrow h
  | fth => exact execFth_tracesGrow h
  | frm => exact execFrm_tracesGrow h
  | ftm => exact execFtm_tracesGrow h
  | dte => exact execDte_tracesGrow h
  | getBit => exact execGetBit_tracesGrow h
  | putBit bit => exact operation_tracesGrow h ((frame_putDataBit s bit).tracesGrow.returns _)
  | putBitCarrierDown => exact execPutBitCarrierDown_tracesGrow h
  | putBitTrainingSucceeded => exact operation_tracesGrow h (Frame.tracesGrow {})
  | hdlcRx => exact execHdlcRx_tracesGrow h
  | hdlcEvFramingOk => exact operation_tracesGrow h ((frame_framingOk s).tracesGrow.returns _)
  | hdlcEvCarrierDown => exact execHdlcEvCarrierDown_tracesGrow h
  | hdlcTxu => exact execHdlcTxu_tracesGrow h
  | rxs => exact execRxs_tracesGrow h
  | txs => exact execTxs_tracesGrow h
  | qWrite => exact execQWrite_tracesGrow h
  | qRead => exact execQRead_tracesGrow h

/-! ### The step -/

/-- The model's own presenting of a command and the claims' wording of it are one state (00 R4). -/
theorem present_eq_issued (s : State) (c : Command) (rest : List Command) : s.present c rest = issued s c rest :=
  rfl

/-! ### The statements -/

/-- Settles O59, by cases on the operation: each meaning is a chain of shared operations that add at the end of a
trace or leave it alone, and a refusal emits nothing. -/
theorem outputTracesOnlyGrow : Obligations.OutputTracesOnlyGrow := by
  intro i s t h hi
  obtain ⟨hdte, hat, hctrl, hframe, hlog⟩ := exec_tracesGrow h hi
  exact ⟨hdte, hat, hctrl, hframe, hlog⟩

/-- Settles O5: of the branches of `step`, the pending command and its decoded word choose the one that runs. -/
theorem stepRunsTheDecodedOperation : Obligations.StepRunsTheDecodedOperation := by
  intro s c rest i hcmd hdecode
  simp only [step, hcmd, hdecode, present_eq_issued]

end Sys2Proof.Machine

/-! ## State: the ring queue and the dual-rail listening

The statements of 10_state.md. The queue operations wrap the primitives of the ring, whose laws already speak of the
list of records. For the receive tag the relation `NoNewEarly` is kept by everything but the operations that start a
fast receive; the two events that end the dual-rail listening leave no Early tag at all. -/

namespace Sys2Proof.Machine

/-! ### The queue operations, by the answer of their primitive -/

section
variable {s t : State} {rec : List Byte} (hlive : s.live = true)
include hlive

/-- QWRITE of a record that fits (44 R247). -/
theorem exec_qWrite_some (hrec : recordOperand s.frameIn = some rec) (hwrite : s.queueWrite rec = some t) :
    exec .qWrite s = .next (t.returns (.value rec.length)) := by
  simp only [exec, execQWrite, operation_live _ hlive, hrec, hwrite]

/-- QWRITE of a record that does not fit (44 R247). -/
theorem exec_qWrite_none (hrec : recordOperand s.frameIn = some rec) (hwrite : s.queueWrite rec = none) :
    exec .qWrite s = .next (s.returns (.value (-1))) := by
  simp only [exec, execQWrite, operation_live _ hlive, hrec, hwrite]

/-- QREAD of a queue with a record (44 R248). -/
theorem exec_qRead_some (hread : s.queueRead = some (rec, t)) : exec .qRead s = .next (t.returns (.record rec)) := by
  simp only [exec, execQRead, operation_live _ hlive, hread]

/-- QREAD of an empty queue (44 R248). -/
theorem exec_qRead_none (hread : s.queueRead = none) : exec .qRead s = .next (s.returns (.value (-1))) := by
  simp only [exec, execQRead, operation_live _ hlive, hread]

/-- QFLUSH (44 R249). -/
theorem exec_qFlush_live : exec .qFlush s = .next (s.queueFlush.returns .nothing) := by
  simp only [exec, execQFlush, operation_live _ hlive]

end

/-- A record of 1 to 257 bytes is taken off FRAME_IN as it is (44 R247). -/
theorem recordOperand_eq_some {f : FrameInput} (hsize : 1 ≤ f.bytes.length ∧ f.bytes.length ≤ 257) :
    recordOperand f = some f.bytes := if_pos hsize

/-- RET is no part of the queue (20 R71). -/
theorem RingHolds.returns {s : State} {rxq : List (List Byte)} (h : RingHolds s rxq) (r : Ret) :
    RingHolds (s.returns r) rxq := h.congr rfl rfl rfl

/-! ### The relation that everything keeps but the start of a fast receive -/

/-- An Early tag in `t` was in `s` already (10 R35). -/
def NoNewEarly (s t : State) : Prop := t.rxHandler.isEarly = true → t.rxHandler = s.rxHandler

/-- An update that leaves the receive tag alone. -/
theorem NoNewEarly.of_eq {s t : State} (h : t.rxHandler = s.rxHandler) : NoNewEarly s t := fun _ => h

theorem NoNewEarly.of_not_early {s t : State} (h : t.rxHandler.isEarly = false) : NoNewEarly s t :=
  fun he => absurd he (by simp [h])

theorem NoNewEarly.trans {a b c : State} (hab : NoNewEarly a b) (hbc : NoNewEarly b c) : NoNewEarly a c := by
  intro hc
  have hcb : c.rxHandler = b.rxHandler := hbc hc
  exact hcb.trans (hab (hcb ▸ hc))

/-- Before the change from `b` to `c` the receive tag was left alone. -/
theorem NoNewEarly.congr_left {a b c : State} (hbc : NoNewEarly b c) (h : b.rxHandler = a.rxHandler) :
    NoNewEarly a c := (NoNewEarly.of_eq h).trans hbc

/-- After the change from `a` to `b` the receive tag is left alone. -/
theorem NoNewEarly.congr_right {a b c : State} (hab : NoNewEarly a b) (h : c.rxHandler = b.rxHandler) :
    NoNewEarly a c := hab.trans (.of_eq h)

/-- Only the body of an operation counts: a refusal moves no tag (00 R9). -/
theorem operation_noNewEarly {s t : State} {body : State → State} (h : operation s body = .next t)
    (hbody : NoNewEarly s (body s)) : NoNewEarly s t := by
  rcases operation_cases s body with ⟨_, hrun⟩ | ⟨_, hrefuse⟩
  · rw [hrun] at h; cases h; exact hbody
  · rw [hrefuse] at h; cases h; exact .of_eq rfl

theorem operationFaulting_noNewEarly {s t : State} {body : State → Host.Outcome State Fault Refusal}
    (h : operationFaulting s body = .next t) (hbody : body s = .next t → NoNewEarly s t) : NoNewEarly s t := by
  cases hlive : s.live with
  | true => rw [operationFaulting_live _ hlive] at h; exact hbody h
  | false => rw [operationFaulting_dead _ hlive] at h; cases h; exact .of_eq rfl

/-! ### The tag under RESTART and what is built on it -/

/-- The modes wired with an Early tag are the fast receive modes (40 R133 to R135). -/
theorem modeRow_rx_isEarly (m : Mode) : (modeRow m).rx.isEarly = m.isFastRx := by cases m <;> rfl

theorem Restarted.noNewEarly {m : Mode} {s t : State} (h : Restarted m s t) (hm : m.isFastRx = false) :
    NoNewEarly s t := by
  rcases h with ⟨_, rfl⟩ | ⟨_, c, d, _, rfl⟩
  · exact .of_eq rfl
  · exact .of_not_early ((modeRow_rx_isEarly m).trans hm)

theorem restart_noNewEarly (s : State) {m : Mode} (hm : m.isFastRx = false) : NoNewEarly s (s.restart m) :=
  (restart_spec m s).noNewEarly hm

theorem restartOperation_noNewEarly {m : Mode} {s t : State} (h : restartOperation m s = .next t)
    (hm : m.isFastRx = false) : NoNewEarly s t := by
  refine operation_noNewEarly h ?_
  split
  · exact (restart_noNewEarly s hm).congr_right rfl
  · exact .of_eq rfl

/-- What FRH, FTH and FTM begin with (41 R160). -/
theorem loadRate_restart_noNewEarly (s : State) (rate : BitRate) (short : Bool) {m : Mode}
    (hm : m.isFastRx = false) : NoNewEarly s ((s.loadRate rate short).restart m) :=
  (restart_noNewEarly _ hm).congr_left rfl

theorem checkDteTimeout_noNewEarly (s : State) : NoNewEarly s s.checkDteTimeout := by
  have hspec := checkDteTimeout_spec s
  split at hspec
  · exact (hspec.noNewEarly rfl).congr_left rfl
  · exact .of_eq (by rw [hspec])

theorem checkNoCarrier_noNewEarly (s : State) : NoNewEarly s s.checkNoCarrier := by
  have hspec := checkNoCarrier_spec s
  split at hspec
  · obtain ⟨r, hrestart, heq⟩ := hspec
    rw [heq]
    exact ((hrestart.noNewEarly rfl).congr_left rfl).congr_right rfl
  · exact .of_eq (by rw [hspec])

theorem abortDelivery_noNewEarly (s : State) : NoNewEarly s s.abortDelivery := by
  have hend : NoNewEarly s (if s.rxSignalPresent then s.emitEndOfData else s) := by split <;> exact .of_eq rfl
  exact (hend.trans (restart_noNewEarly _ rfl)).congr_right rfl

theorem Completed.noNewEarly {s t : State} (h : Completed s t) : NoNewEarly s t := by
  rcases h with ⟨_, c, d, rfl⟩ | ⟨_, c, d, r, hrestart, rfl⟩ | ⟨_, c, d, hrestart⟩ | ⟨_, rfl⟩
  · exact .of_eq rfl
  · exact ((hrestart.noNewEarly rfl).congr_left rfl).congr_right rfl
  · exact (hrestart.noNewEarly rfl).congr_left rfl
  · exact .of_eq rfl

theorem produce_rxHandler (s : State) (h : TxHandler) (k : Nat) : (s.produce h k).2.rxHandler = s.rxHandler := by
  rw [(produce_spec s h k).2]

/-- The active handler, its successor, the completion (45 R278, R279). -/
theorem pullSamples_noNewEarly (s : State) (n : Nat) : NoNewEarly s (s.pullSamples n).2 := by
  have hcomplete (len : Nat) (u : State) : NoNewEarly u (if len < n then u.txComplete else u) := by
    split
    · exact (txComplete_completed u).noNewEarly
    · exact .of_eq rfl
  unfold State.pullSamples
  simp only []
  refine NoNewEarly.trans ?_ (hcomplete _ _)
  refine NoNewEarly.congr_left ?_ (produce_rxHandler s s.txHandler n)
  split
  · exact .of_eq (produce_rxHandler _ _ _)
  · exact .of_eq rfl

/-! ### The operations that leave the tag alone -/

theorem checkHighWater_rxHandler (s : State) : s.checkHighWater.rxHandler = s.rxHandler := by
  rw [checkHighWater_eq]

theorem hdlcByte_rxHandler {s t : State} {b : Byte} (hlen : s.hdlcTxLen ≤ s.params.hdlcTxBufLen)
    (h : s.hdlcByte b = .next t) : t.rxHandler = s.rxHandler := by
  by_cases hetx : s.dled = true ∧ b = 0x03
  · obtain ⟨hdled, rfl⟩ := hetx
    rw [hdlcByte_etx s hdled hlen] at h
    cases h; rfl
  · rw [hdlcByte_eq s b hetx] at h
    obtain ⟨u, hfold, _, hu⟩ := hdlcAppend_foldl (unstuffed s.dled b)
      { s with dteDataTimeout := s.callSamples + 40000, dled := !s.dled && b == 0x10 }
    rw [hfold] at h
    cases h
    rw [hu]

theorem stuffedByte_rxHandler (s : State) (b : Byte) : (s.stuffedByte b).rxHandler = s.rxHandler := by
  by_cases hetx : s.dled = true ∧ b = 0x03
  · obtain ⟨hdled, rfl⟩ := hetx
    simp only [State.stuffedByte, hdled, if_true]
    exact checkHighWater_rxHandler _
  · obtain ⟨u, hfold, _, hu⟩ := stuffedStore_foldl (unstuffed s.dled b)
      { s with dled := !s.dled && b == 0x10 }
    rw [stuffedByte_eq s b hetx, hfold, checkHighWater_rxHandler, hu]

theorem enqueue_rxHandler (s : State) (rec : List Byte) : (s.enqueue rec).rxHandler = s.rxHandler := by
  unfold State.enqueue State.queueWrite
  by_cases hfit : rec.length + 2 ≤ s.queueFree <;> simp [hfit]

theorem deliverDirect_rxHandler (s : State) (msg : List Byte) (ok : Bool) :
    (s.deliverDirect msg ok).rxHandler = s.rxHandler := by
  have hframe : (s.emitStuffed msg).emitEndOfData.rxHandler = s.rxHandler := rfl
  unfold State.deliverDirect
  simp only []
  generalize (s.emitStuffed msg).emitEndOfData = u at hframe ⊢
  split <;> exact hframe

theorem acceptFrame_rxHandler (s : State) (msg : List Byte) (ok : Bool) :
    (s.acceptFrame msg ok).rxHandler = s.rxHandler := by
  unfold State.acceptFrame
  split
  · rfl
  · split
    · rw [deliverDirect_rxHandler]
      split <;> rfl
    · exact enqueue_rxHandler s _

theorem v21Preamble_rxHandler (s : State) : s.v21Preamble.rxHandler = s.rxHandler := by
  unfold State.v21Preamble
  simp only []
  split
  · rfl
  · split
    · rfl
    · exact enqueue_rxHandler _ _

theorem v21CarrierDown_rxHandler (s : State) : s.v21CarrierDown.rxHandler = s.rxHandler := by
  unfold State.v21CarrierDown
  simp only []
  split
  · rfl
  · split
    · simp only []
      split
      · rfl
      · exact enqueue_rxHandler s _
    · rfl

/-- The queue of a state that meets the invariant is drained without moving the tag (44 R251). -/
theorem drainQueue_rxHandler {s : State} (hinv : StateInv s) :
    (State.drainQueue queueLen false s).rxHandler = s.rxHandler := by
  obtain ⟨rxq, hring⟩ := hinv.queue
  have hfuel : rxq.length < queueLen :=
    Nat.lt_of_le_of_lt ((length_le_queueBytes rxq).trans hring.fits) (by decide)
  obtain ⟨v, hdrain, _, hv⟩ := drainQueue_spec rxq queueLen false s hfuel hring (by simp)
  rw [hdrain, hv]

theorem putDataBit_rxHandler (s : State) (bit : Bool) : (s.putDataBit bit).rxHandler = s.rxHandler := by
  unfold State.putDataBit
  simp only []
  split <;> rfl

theorem loadTxByte_rxHandler (s : State) : s.loadTxByte.rxHandler = s.rxHandler := by
  unfold State.loadTxByte State.checkLowWater
  split <;> rfl

/-! ### The meanings -/

theorem execFrs_noNewEarly {v : Byte} {s t : State} (h : execFrs v s = .next t) : NoNewEarly s t := by
  refine operation_noNewEarly h ((restart_noNewEarly s (m := .silenceRx) rfl).trans ?_)
  split <;> exact .of_eq rfl

theorem execFrh_noNewEarly {v : Byte} {s t : State} (hinv : StateInv s) (h : execFrh v s = .next t) :
    NoNewEarly s t := by
  refine operation_noNewEarly h ?_
  split
  · have hready : StateInv
        (({ (s.loadRate .r300 false).restart .v21Rx with transmit := false } : State).setAtRxMode .delivery) :=
      StateInv.setAtRxMode (SameForInv.inv {} ((hinv.loadRate .r300 false).restartSlow .v21Rx rfl)) _
    exact (loadRate_restart_noNewEarly s .r300 false rfl).congr_right (drainQueue_rxHandler hready)
  · exact .of_eq rfl

theorem execFth_noNewEarly {v : Byte} {s t : State} (h : execFth v s = .next t) : NoNewEarly s t := by
  refine operation_noNewEarly h ?_
  split
  · have hstart := loadRate_restart_noNewEarly s .r300 false (m := .v21Tx) rfl
    simp only []
    generalize (s.loadRate .r300 false).restart .v21Tx = u at hstart ⊢
    exact hstart.congr_right rfl
  · exact .of_eq rfl

theorem execFtm_noNewEarly {v : Byte} {s t : State} (h : execFtm v s = .next t) : NoNewEarly s t := by
  refine operation_noNewEarly h ?_
  split
  next family rate short _ =>
    have htx : family.txMode.isFastRx = false := by cases family <;> rfl
    exact (loadRate_restart_noNewEarly s rate short htx).congr_right rfl
  next => exact .of_eq rfl

theorem dteByte_noNewEarly {b : Byte} {s t : State} (hinv : StateInv s) (h : s.dteByte b = .next t) :
    NoNewEarly s t := by
  unfold State.dteByte at h
  split at h
  · cases h; exact .of_eq rfl
  · cases h; exact .of_eq rfl
  · exact .of_eq (hdlcByte_rxHandler hinv.hdlcTx.1 h)
  · cases h; exact .of_eq (stuffedByte_rxHandler s b)
  · cases h; exact abortDelivery_noNewEarly s

theorem execDte_noNewEarly {b : Byte} {s t : State} (hinv : StateInv s) (h : execDte b s = .next t) :
    NoNewEarly s t := by
  refine operationFaulting_noNewEarly h fun hbody => ?_
  cases hbyte : s.dteByte b with
  | next u =>
    rw [hbyte] at hbody; cases hbody
    exact (dteByte_noNewEarly hinv hbyte).congr_right rfl
  | fault f => rw [hbyte] at hbody; cases hbody
  | refused r => rw [hbyte] at hbody; cases hbody

theorem execGetBit_noNewEarly {s t : State} (h : execGetBit s = .next t) : NoNewEarly s t := by
  refine operationFaulting_noNewEarly h fun hbody => ?_
  split at hbody
  · split at hbody
    · split at hbody
      · cases hbody; exact .of_eq (loadTxByte_rxHandler s)
      · cases hbody
    · split at hbody <;> cases hbody <;> exact .of_eq rfl
  · cases hbody; exact .of_eq rfl

theorem execPutBitCarrierDown_noNewEarly {s t : State} (h : execPutBitCarrierDown s = .next t) :
    NoNewEarly s t := by
  refine operation_noNewEarly h (NoNewEarly.congr_right (b := if _ then _ else _) ?_ rfl)
  split <;> exact .of_eq rfl

theorem execHdlcTxu_noNewEarly {s t : State} (h : execHdlcTxu s = .next t) : NoNewEarly s t := by
  refine operation_noNewEarly h ?_
  split
  · split <;> exact .of_eq rfl
  · exact .of_eq rfl

theorem execHdlcRx_noNewEarly {ok : Bool} {s t : State} (h : execHdlcRx ok s = .next t) : NoNewEarly s t := by
  refine operation_noNewEarly h ?_
  split
  · exact .of_eq (acceptFrame_rxHandler s _ ok)
  · exact .of_eq rfl

theorem execHdlcEvCarrierDown_noNewEarly {s t : State} (h : execHdlcEvCarrierDown s = .next t) :
    NoNewEarly s t := by
  refine operation_noNewEarly h (NoNewEarly.congr_right (b := if _ then _ else _) ?_ rfl)
  split
  · exact .of_eq (v21CarrierDown_rxHandler s)
  · exact .of_eq rfl

/-- The counters move, then the three checks (45 R276). -/
theorem execRxs_noNewEarly {quiet : Bool} {s t : State} (h : execRxs quiet s = .next t) : NoNewEarly s t := by
  have hsilence (u : State) : NoNewEarly u u.checkSilence := by
    rw [checkSilence_eq]
    split <;> exact .of_eq rfl
  have hcount : NoNewEarly s (s.countSample quiet) := .of_eq rfl
  exact operation_noNewEarly h ((hcount.trans (hsilence _)).trans
    ((checkDteTimeout_noNewEarly _).trans ((checkNoCarrier_noNewEarly _).congr_right rfl)))

theorem execTxs_noNewEarly {n : Byte} {s t : State} (h : execTxs n s = .next t) : NoNewEarly s t := by
  refine operation_noNewEarly h
    (NoNewEarly.congr_right (b := (if s.transmit then s.pullSamples n.toNat else (0, s)).2) ?_ rfl)
  split
  · exact pullSamples_noNewEarly s n.toNat
  · exact .of_eq rfl

theorem execQWrite_noNewEarly {s t : State} (h : execQWrite s = .next t) : NoNewEarly s t := by
  refine operation_noNewEarly h ?_
  split
  · exact .of_eq rfl
  · unfold State.queueWrite
    split
    next hwrite => split at hwrite <;> cases hwrite; exact .of_eq rfl
    next => exact .of_eq rfl

theorem execQRead_noNewEarly {s t : State} (h : execQRead s = .next t) : NoNewEarly s t := by
  refine operation_noNewEarly h ?_
  unfold State.queueRead
  split
  next hread => split at hread <;> cases hread; exact .of_eq rfl
  next => exact .of_eq rfl

/-! ### The two events that end the dual-rail listening -/

theorem fastOnly_not_early (r : RxHandler) : r.fastOnly.isEarly = false := by cases r <;> rfl

/-- Training that succeeds leaves one demodulator, the fast one (40 R138, 43 R213). -/
theorem execPutBitTrainingSucceeded_not_early {s t : State} (hlive : s.live = true)
    (h : execPutBitTrainingSucceeded s = .next t) : t.rxHandler.isEarly = false := by
  rw [execPutBitTrainingSucceeded, operation_live _ hlive] at h
  cases h
  exact fastOnly_not_early s.rxHandler

theorem carrierError_rxHandler (s : State) : s.carrierError.rxHandler = .fsk := by
  unfold State.carrierError
  simp only []
  split <;> rfl

/-- An Early tag under the invariant stands in a fast receive mode (40 R133 to R135). -/
theorem StateInv.isFastRx_of_early {s : State} (hinv : StateInv s) (he : s.rxHandler.isEarly = true) :
    (s.modem.map Mode.isFastRx).getD false = true := by
  rw [(hinv.early he).1]
  revert he
  cases s.rxHandler <;> simp [RxHandler.isEarly, earlyMode, Mode.isFastRx]

/-- A V.21 preamble leaves at most the V.21 demodulator: the CNG drop and the carrier error wire it, and where
neither happens no Early tag stood (40 R139, R140; 44 R244). -/
theorem framingOk_not_early {s : State} (hinv : StateInv s) : s.framingOk.rxHandler.isEarly = false := by
  have hcases (u : State) (hu : StateInv u) :
      (if (u.modem.map Mode.isFastRx).getD false && u.rxHandler.isEarly then u.carrierError
        else if u.modem = some .v21Rx then u.v21Preamble else u).rxHandler.isEarly = false := by
    split
    · rw [carrierError_rxHandler]; rfl
    next hno =>
      have hnot : u.rxHandler.isEarly = false := by
        by_contra he
        rw [Bool.not_eq_false] at he
        exact hno (by rw [hu.isFastRx_of_early he, he]; rfl)
      split
      · rw [v21Preamble_rxHandler, hnot]
      · exact hnot
  unfold State.framingOk
  refine hcases _ ?_
  split
  · exact hinv.cngDrop
  · exact hinv

theorem execHdlcEvFramingOk_not_early {s t : State} (hinv : StateInv s) (hlive : s.live = true)
    (h : execHdlcEvFramingOk s = .next t) : t.rxHandler.isEarly = false := by
  rw [execHdlcEvFramingOk, operation_live _ hlive] at h
  cases h
  exact framingOk_not_early hinv

/-! ### Every operation -/

/-- The operations that wire both demodulators: RESTART into a fast receive mode, and FRM (40 R133 to R135). -/
def StartsDualRail (i : Instr) : Prop :=
  i = .restartV17Rx ∨ i = .restartV27terRx ∨ i = .restartV29Rx ∨ ∃ v, i = .frm v

/-- One case per row of the opcode table; the operations without a lemma of their own are one update. -/
theorem exec_noNewEarly {i : Instr} {s t : State} (hinv : StateInv s) (h : exec i s = .next t)
    (hi : ¬ StartsDualRail i) : NoNewEarly s t := by
  unfold exec at h
  cases i with
  | restartV17Rx | restartV27terRx | restartV29Rx | frm => exact absurd (by simp [StartsDualRail]) hi
  | init => cases h; exact .of_not_early rfl
  | release | setToi | setTep | callevRing | callevAnswer | setT38 | t38Tick
  | putBitCarrierUp | putBitTrainingInProgress | putBitTrainingFailed | putBitOther
  | hdlcEvCarrierUp | hdlcEvOther | qFlush => exact operation_noNewEarly h (.of_eq rfl)
  | restartFlush | restartSilenceTx | restartSilenceRx | restartCed | restartCng | restartNocng
  | restartV21Tx | restartV17Tx | restartV27terTx | restartV29Tx
  | restartV21Rx => exact restartOperation_noNewEarly h rfl
  | callevHangup | fts =>
    exact operation_noNewEarly h ((restart_noNewEarly s (m := .silenceTx) rfl).congr_right rfl)
  | frs => exact execFrs_noNewEarly h
  | frh => exact execFrh_noNewEarly hinv h
  | fth => exact execFth_noNewEarly h
  | ftm => exact execFtm_noNewEarly h
  | dte => exact execDte_noNewEarly hinv h
  | getBit => exact execGetBit_noNewEarly h
  | putBit bit => exact operation_noNewEarly h (.of_eq (putDataBit_rxHandler s bit))
  | putBitCarrierDown => exact execPutBitCarrierDown_noNewEarly h
  | putBitTrainingSucceeded => exact operation_noNewEarly h (.of_not_early (fastOnly_not_early s.rxHandler))
  | hdlcRx => exact execHdlcRx_noNewEarly h
  | hdlcEvFramingOk => exact operation_noNewEarly h (.of_not_early (framingOk_not_early hinv))
  | hdlcEvCarrierDown => exact execHdlcEvCarrierDown_noNewEarly h
  | hdlcTxu => exact execHdlcTxu_noNewEarly h
  | rxs => exact execRxs_noNewEarly h
  | txs => exact execTxs_noNewEarly h
  | qWrite => exact execQWrite_noNewEarly h
  | qRead => exact execQRead_noNewEarly h

/-! ### The statements -/

/-- Settles O52: each queue operation is its primitive, and the laws of the primitives speak of the list of records;
the test for room of the statement is that of QWRITE with the bytes in use moved to the other side. -/
theorem ringIsABoundedQueueOfRecords : Obligations.RingIsABoundedQueueOfRecords := by
  intro s rxq hlive hring
  refine ⟨fun hlow hhigh => ?_, fun rec rest hcons => ?_, fun hnil => ?_, ?_⟩
  · have hrec := recordOperand_eq_some ⟨hlow, hhigh⟩
    obtain ⟨happend, hfull⟩ := queueWrite_spec hring s.frameIn.bytes ⟨hlow, hhigh⟩
    split
    next hroom =>
      obtain ⟨t, hwrite, hholds, ht, _⟩ := happend (by omega)
      refine ⟨_, exec_qWrite_some hlive hrec hwrite, hholds.returns _, ?_⟩
      rw [ht]; rfl
    next hroom => exact exec_qWrite_none hlive hrec (hfull (by omega))
  · obtain ⟨t, hread, hholds, ht⟩ := (queueRead_spec hring).2 rec rest hcons
    refine ⟨_, exec_qRead_some hlive hread, hholds.returns _, ?_⟩
    rw [ht]; rfl
  · exact exec_qRead_none hlive ((queueRead_spec hring).1 hnil)
  · exact ⟨_, exec_qFlush_live hlive, (ringHolds_flush s).returns _, rfl⟩

/-- Settles O60: an operation that does not start a fast receive brings no new Early tag, and the success of training
and a V.21 preamble leave none. -/
theorem dualRailEndsWithOneDemodulator : Obligations.DualRailEndsWithOneDemodulator := by
  intro i s t hinv h hearly
  by_cases hi : StartsDualRail i
  · exact .inr hi
  · refine .inl ⟨exec_noNewEarly hinv h hi hearly, fun hlive => ⟨?_, ?_⟩⟩
    · rintro rfl
      simp [execPutBitTrainingSucceeded_not_early hlive h] at hearly
    · rintro rfl
      simp [execHdlcEvFramingOk_not_early hinv hlive h] at hearly

end Sys2Proof.Machine

/-! ## Memory: the invariant, the bytes of the bit pump, and the writers of the registers

The statements of 20_memory.md. The laws above say of most shared operations that they keep the invariant; the first
part below says it of the remaining ones, and then, in one statement for each operation, that it answers a next state
and that this state meets the invariant. The second part follows a byte through GETBIT and PUTBIT, bit by bit; the
third lists for each operation the registers it may write and shows that it keeps all the others. -/

namespace Sys2Proof.Machine

/-! ### Updates the invariant does not see -/

/-- The part of a state the invariant speaks of, every other field as after reset. -/
def State.invPart (s : State) : State :=
  { State.reset with
    params := s.params, t38Mode := s.t38Mode
    txData := s.txData, hdlcTxBuf := s.hdlcTxBuf, hdlcRxBuf := s.hdlcRxBuf, qData := s.qData
    qIptr := s.qIptr, qOptr := s.qOptr, txOutBytes := s.txOutBytes, txInBytes := s.txInBytes
    hdlcTxLen := s.hdlcTxLen, hdlcRxLen := s.hdlcRxLen, txBitNo := s.txBitNo, rxBitNo := s.rxBitNo
    rxHandler := s.rxHandler, modem := s.modem, rxTrained := s.rxTrained, cfg := s.cfg
    silenceAwaited := s.silenceAwaited, silenceTxRemaining := s.silenceTxRemaining
    callSamples := s.callSamples, samples := s.samples, dteDataTimeout := s.dteDataTimeout }

/-- A state with the same such part meets the invariant too; the equation is `rfl` where the one state is an update
of the other in other fields. -/
theorem StateInv.congr {s t : State} (h : StateInv s) (e : t.invPart = s.invPart) : StateInv t := by
  have hs : StateInv s.invPart := SameForInv.inv {} h
  rw [← e] at hs
  exact SameForInv.inv (s := t.invPart) {} hs

theorem StateInv.disarm {s : State} (h : StateInv s) : StateInv { s with dteDataTimeout := 0 } :=
  SameForInv.inv { deadline := .inr (.inl rfl) } h

/-! ### INIT and the answer to a call -/

/-- What INIT writes meets the invariant under any parameters in their ranges (10 R43). -/
theorem StateInv.init {s : State} (h : StateInv s) (cfg : DspCfg) (draws : Nat) :
    StateInv { State.reset with
      cfg := cfg, adaptiveReceive := s.adaptiveReceive, s7 := s.s7, ret := .value 0
      cmdIn := s.cmdIn, frameIn := s.frameIn, dspIn := s.dspIn, params := s.params, draws := draws } where
  params := h.params
  t38Mode := rfl
  canonical m := by cases m <;> rfl
  bounded m i hi := by cases m <;> cases hi
  txCursors := ⟨Nat.le_refl 0, Nat.zero_le _⟩
  txWritten i hi := absurd hi (Nat.not_lt_zero i)
  hdlcTx := ⟨Nat.zero_le _, fun i hi => absurd hi (Nat.not_lt_zero i)⟩
  hdlcRx := Nat.zero_le _
  bitCounters := ⟨Nat.zero_le _, Nat.zero_le _⟩
  queue := ⟨[], (ringHolds_flush State.reset).congr rfl rfl rfl⟩
  early he := by cases he
  fastRate m hm := by cases hm
  silence := ⟨Nat.zero_le _, fun n hn => by cases hn⟩
  clocks := Nat.le_refl 0
  deadline := Nat.zero_le _

/-- The call clock starts again while the deadline is disarmed (45 R274, 42 R190). -/
theorem StateInv.answerCall {s : State} (h : StateInv s) :
    StateInv ({ s with callSamples := 0 }.setAtRxMode .offhookCommand) :=
  { h with
    canonical := fun m => by have := h.canonical m; cases m <;> exact this
    bounded := fun m => by have := h.bounded m; cases m <;> exact this
    clocks := Nat.zero_le _
    deadline := Nat.zero_le _
    queue := h.queue.imp fun _ q => q.congr rfl rfl rfl }

/-! ### The codec -/

/-- The frame goes out and its buffer is empty (42 R183). -/
theorem StateInv.submitHdlc {s : State} (h : StateInv s) : StateInv s.submitHdlc :=
  StateInv.congr (s := { s with hdlcTxLen := 0, dteDataTimeout := 0 }) h.clearHdlcTxLen.disarm (by rfl)

theorem StateInv.setDled {s : State} (h : StateInv s) (b : Bool) : StateInv { s with dled := b } :=
  StateInv.congr h (by rfl)

theorem StateInv.endOfData {s : State} (h : StateInv s) : StateInv s.endOfData :=
  StateInv.setAtRxMode (s := { s with dataFinal := true }) (StateInv.congr h (by rfl)) _

theorem StateInv.stuffedByte {s : State} (h : StateInv s) (b : Byte) : StateInv (s.stuffedByte b) := by
  have hclear : StateInv { s with dled := false } := h.setDled false
  unfold State.stuffedByte
  refine StateInv.checkHighWater ?_
  split
  · simp only []
    split
    · exact hclear.endOfData
    · split
      · exact (hclear.stuffedStore DLE).stuffedStore DLE
      · exact hclear.stuffedStore b
  · split
    · exact h.setDled true
    · exact h.stuffedStore b

theorem StateInv.abortDelivery {s : State} (h : StateInv s) : StateInv s.abortDelivery := by
  have hend : StateInv (if s.rxSignalPresent then s.emitEndOfData else s) := by
    split
    · exact h.emitEndOfData
    · exact h
  unfold State.abortDelivery
  simp only []
  generalize (if s.rxSignalPresent then s.emitEndOfData else s) = u at hend ⊢
  have hsilent : StateInv { u.restart .silenceTx with silenceAwaited := 0 } :=
    (hend.restartSlow .silenceTx rfl).silenceAwaited (Nat.zero_le _)
  exact StateInv.emitResp (StateInv.setAtRxMode (StateInv.congr hsilent (by rfl)) _) _

/-! ### The bit pump -/

theorem StateInv.shiftOutBit {s : State} (h : StateInv s) : StateInv s.shiftOutBit :=
  StateInv.congr (s := { s with txBitNo := s.txBitNo - 1 })
    (h.txBitNo ((Nat.sub_le _ _).trans h.bitCounters.1)) (by rfl)

theorem StateInv.fillTxByte {s : State} (h : StateInv s) : StateInv s.fillTxByte :=
  StateInv.congr (s := { s with txBitNo := 8 }) (h.txBitNo (Nat.le_refl 8)) (by rfl)

/-- A byte is taken where one is left (43 R210, 20 R68). -/
theorem StateInv.loadTxByte {s : State} (h : StateInv s) (hleft : s.txOutBytes < s.txInBytes) :
    StateInv s.loadTxByte := by
  have htaken : StateInv
      { s with txCurrentByte := s.cell .txData s.txOutBytes, txOutBytes := s.txOutBytes + 1 } :=
    StateInv.congr (s := { s with txOutBytes := s.txOutBytes + 1 }) (h.advanceTxOut hleft) (by rfl)
  have hchecked := htaken.checkLowWater
  unfold State.loadTxByte
  generalize State.checkLowWater _ = u at hchecked ⊢
  exact StateInv.congr (s := { u with txBitNo := 8 }) (hchecked.txBitNo (Nat.le_refl 8)) (by rfl)

/-- The eighth bit clears the counter; every other one leaves it at 7 or below (43 R212). -/
theorem StateInv.putDataBit {s : State} (h : StateInv s) (bit : Bool) : StateInv (s.putDataBit bit) := by
  unfold State.putDataBit
  simp only []
  split
  · exact StateInv.congr (s := { s with rxBitNo := 0 }) (h.rxBitNo (Nat.zero_le 7)) (by rfl)
  next hpartial =>
    have hcount : s.rxBitNo + 1 ≤ 7 := by
      have := h.bitCounters.2
      change ¬ s.rxBitNo + 1 = 8 at hpartial
      omega
    exact StateInv.congr (s := { s with rxBitNo := s.rxBitNo + 1 }) (h.rxBitNo hcount) (by rfl)

theorem StateInv.trainingSucceeded {s : State} (h : StateInv s) :
    StateInv { s with rxTrained := true, rxHandler := s.rxHandler.fastOnly } :=
  { h with
    canonical := fun m => by have := h.canonical m; cases m <;> exact this
    bounded := fun m => by have := h.bounded m; cases m <;> exact this
    early := fun he => by rw [fastOnly_not_early] at he; cases he
    queue := h.queue.imp fun _ q => q.congr rfl rfl rfl }

/-! ### Received frames and the receiver's events -/

theorem StateInv.deliverDirect {s : State} (h : StateInv s) (msg : List Byte) (ok : Bool) :
    StateInv (s.deliverDirect msg ok) := by
  have hframe : StateInv (s.emitStuffed msg).emitEndOfData := (h.emitStuffed msg).emitEndOfData
  unfold State.deliverDirect
  simp only []
  generalize (s.emitStuffed msg).emitEndOfData = u at hframe ⊢
  split
  · exact StateInv.congr hframe (by rfl)
  · exact StateInv.setAtRxMode (StateInv.congr hframe (by rfl)) _

/-- The message of FRAME_IN has at most 256 bytes, its FCS included (20 R69). -/
theorem frameMsg_length_le {f : FrameInput} {msg : List Byte} (h : frameMsg f = some msg) : msg.length ≤ 256 := by
  simp only [frameMsg, Option.ite_none_right_eq_some, Option.some.injEq] at h
  obtain ⟨⟨hlen, -⟩, rfl⟩ := h
  simp only [maxFrameLen] at hlen
  rw [List.length_take]
  omega

theorem StateInv.acceptFrame {s : State} (h : StateInv s) {msg : List Byte} (hmsg : msg.length ≤ 256) (ok : Bool) :
    StateInv (s.acceptFrame msg ok) := by
  unfold State.acceptFrame
  split
  · exact h
  · split
    · refine StateInv.deliverDirect ?_ msg ok
      split
      · exact h
      · exact StateInv.congr (h.emitResp .connect) (by rfl)
    · exact h.enqueue _ (by simp only [List.length_cons]; omega)

/-- Either way the receiver listens to V.21 before the mode is written, so no Early tag is left (40 R139). -/
theorem StateInv.carrierError {s : State} (h : StateInv s) : StateInv s.carrierError := by
  have hraised : StateInv ({ s with rxHandler := .fsk }.raise .carrierError) := h.listenFsk.raise _
  have htag : ({ s with rxHandler := .fsk }.raise .carrierError).rxHandler.isEarly = false := rfl
  unfold State.carrierError
  simp only []
  generalize ({ s with rxHandler := .fsk } : State).raise .carrierError = u at hraised htag ⊢
  split
  · have hmode := hraised.setModemSlow .v21Rx rfl htag
    exact ((StateInv.setAtRxMode (StateInv.congr hmode (by rfl)) _).emitResp _).emitResp _
  · have hmode := hraised.setModemSlow .silenceTx rfl htag
    exact (StateInv.setAtRxMode (StateInv.congr hmode (by rfl)) _).emitResp _

theorem StateInv.v21Preamble {s : State} (h : StateInv s) : StateInv s.v21Preamble := by
  unfold State.v21Preamble
  simp only []
  split
  · exact StateInv.congr h (by rfl)
  · have hnoted : StateInv { s with rxSignalPresent := true, rxMessageReceived := true } := StateInv.congr h (by rfl)
    split
    · exact hnoted.emitResp _
    · exact hnoted.enqueue _ (by decide)

theorem StateInv.framingOk {s : State} (h : StateInv s) : StateInv s.framingOk := by
  have hdrop : StateInv (if s.inCng then s.cngDrop else s) := by
    split
    · exact h.cngDrop
    · exact h
  unfold State.framingOk
  simp only []
  generalize (if s.inCng then s.cngDrop else s) = u at hdrop ⊢
  split
  · exact hdrop.carrierError
  · split
    · exact hdrop.v21Preamble
    · exact hdrop

/-- A carrier that has gone clears both flags of the receiver (43 R214, 44 R245). -/
theorem StateInv.carrierLost {s : State} (h : StateInv s) :
    StateInv { s with rxSignalPresent := false, rxTrained := false } :=
  StateInv.congr (s := { s with rxTrained := false }) h.clearRxTrained (by rfl)

theorem StateInv.v21CarrierDown {s : State} (h : StateInv s) : StateInv s.v21CarrierDown := by
  have hforget {u : State} (hu : StateInv u) : StateInv { u with rxMessageReceived := false } :=
    StateInv.congr hu (by rfl)
  unfold State.v21CarrierDown
  refine StateInv.carrierLost ?_
  split
  · exact StateInv.finishRx (StateInv.congr (h.emitResp .ok) (by rfl))
  · split
    · refine hforget ?_
      split
      · exact (h.emitResp .noCarrier).finishRx
      · exact h.enqueue _ (by decide)
    · exact h

/-! ### The line -/

theorem StateInv.checkSilence {s : State} (h : StateInv s) : StateInv s.checkSilence := by
  unfold State.checkSilence
  split
  · have hanswered : StateInv { (s.emitResp .ok).setAtRxMode .offhookCommand with silenceAwaited := 0 } :=
      ((h.emitResp .ok).setAtRxMode .offhookCommand).silenceAwaited (Nat.zero_le _)
    exact hanswered.congr (by rfl)
  · exact h

theorem StateInv.checkDteTimeout {s : State} (h : StateInv s) : StateInv s.checkDteTimeout := by
  unfold State.checkDteTimeout
  split
  · have hdisarmed : StateInv { s.raise .dteTimeout with dteDataTimeout := 0 } :=
      (h.raise _).disarm
    exact ((hdisarmed.setAtRxMode .offhookCommand).emitResp .error).restartSlow .silenceTx rfl
  · exact h

theorem StateInv.checkNoCarrier {s : State} (h : StateInv s) : StateInv s.checkNoCarrier := by
  unfold State.checkNoCarrier
  split
  · have hhung : StateInv ((((s.raise .noCarrierOnAnswer).emitResp .noCarrier).restart .silenceTx).ctrl .hangup) :=
      (((h.raise _).emitResp _).restartSlow .silenceTx rfl).ctrl _
    exact StateInv.congr (hhung.setAtRxMode .onhookCommand) (by rfl)
  · exact h

/-- The mode register is read once; none of the modes that complete is a fast receive mode (45 R279). -/
theorem StateInv.txComplete {s : State} (h : StateInv s) : StateInv s.txComplete := by
  have hended {m : Mode} (hmode : s.modem = some m) (hm : m.isFastRx = false) :
      StateInv (((s.setModem none).emitResp .ok).setAtRxMode .offhookCommand) :=
    ((h.setModemNone ⟨m, hmode, hm⟩).emitResp .ok).setAtRxMode .offhookCommand
  unfold State.txComplete
  split
  next hmode => exact hended hmode rfl
  next hmode =>
    have hrestarted := (h.setModemNone ⟨_, hmode, rfl⟩).restartSlow .v21Tx rfl
    exact ((hrestarted.setAtRxMode .hdlc).clearHdlcTxLen).armDteTimeout
  case h_3 hmode | h_4 hmode | h_5 hmode | h_6 hmode => exact (hended hmode rfl).restartSlow .silenceTx rfl
  all_goals exact h

/-- The active handler, its successor, the completion (45 R278). -/
theorem StateInv.pullSamples {s : State} (h : StateInv s) (n : Nat) : StateInv (s.pullSamples n).2 := by
  have hcomplete (len : Nat) {u : State} (hu : StateInv u) : StateInv (if len < n then u.txComplete else u) := by
    split
    · exact hu.txComplete
    · exact hu
  have hfirst := h.produce s.txHandler n
  unfold State.pullSamples
  simp only []
  refine hcomplete _ ?_
  split
  · exact StateInv.produce (StateInv.congr hfirst (by rfl)) _ _
  · exact hfirst

/-! ### The operations: each answers a next state, and that state meets the invariant -/

/-- The operation does not stop and leaves a state that meets the invariant. -/
def AnswersInv (o : Host.Outcome State Fault Refusal) : Prop := ∃ t, o = .next t ∧ StateInv t

theorem AnswersInv.next {t : State} (h : StateInv t) : AnswersInv (.next t) := ⟨t, rfl, h⟩

theorem AnswersInv.returning {o : Host.Outcome State Fault Refusal} (h : AnswersInv o) (r : Ret) :
    AnswersInv (returning r o) := by
  obtain ⟨t, rfl, ht⟩ := h
  exact .next (ht.returns r)

/-- A refusal keeps the invariant, so only the body counts (00 R9). -/
theorem operation_answersInv {s : State} (h : StateInv s) {body : State → State} (hbody : StateInv (body s)) :
    AnswersInv (operation s body) := by
  rcases operation_cases s body with ⟨_, hrun⟩ | ⟨_, hrefuse⟩
  · rw [hrun]; exact .next hbody
  · rw [hrefuse]; exact .next h.refuse

theorem operationFaulting_answersInv {s : State} (h : StateInv s) {body : State → Host.Outcome State Fault Refusal}
    (hbody : AnswersInv (body s)) : AnswersInv (operationFaulting s body) := by
  cases hlive : s.live with
  | true => rw [operationFaulting_live _ hlive]; exact hbody
  | false => rw [operationFaulting_dead _ hlive]; exact .next h.refuse

section
variable {s : State} (h : StateInv s)
include h

theorem StateInv.unknownVal : StateInv s.unknownVal := (h.raise _).returns _

theorem execInit_answersInv : AnswersInv (execInit s) := .next (h.init _ _)

theorem execCallevAnswer_answersInv : AnswersInv (execCallevAnswer s) :=
  operation_answersInv h (h.answerCall.returns _)

theorem execCallevHangup_answersInv : AnswersInv (execCallevHangup s) := by
  have hidle := ((h.restartSlow .silenceTx rfl).setAtRxMode .onhookCommand).silenceAwaited (Nat.zero_le 20400)
  exact operation_answersInv h (StateInv.returns (StateInv.congr hidle (by rfl)) _)

theorem restartOperation_answersInv (m : Mode) : AnswersInv (restartOperation m s) := by
  refine operation_answersInv h ?_
  split
  next hlegal => exact (h.restart m fun _ => hlegal).returns _
  next => exact h.refuse

theorem execFrs_answersInv (v : Byte) : AnswersInv (execFrs v s) := by
  have hwired := h.restartSlow .silenceRx rfl
  refine operation_answersInv h ?_
  split
  · exact (hwired.emitResp _).returns _
  · exact ((hwired.silenceAwaited (silenceSamples_le v)).setAtRxMode _).returns _

theorem execFts_answersInv (v : Byte) : AnswersInv (execFts v s) := by
  have hsilent : StateInv { s.restart .silenceTx with silenceTxRemaining := .samples (silenceSamples v) } :=
    (h.restartSlow .silenceTx rfl).silenceTxRemaining fun n hn => by cases hn; exact silenceSamples_le v
  exact operation_answersInv h (StateInv.returns (StateInv.congr hsilent (by rfl)) _)

theorem execFrh_answersInv (v : Byte) : AnswersInv (execFrh v s) := by
  refine operation_answersInv h ?_
  split
  · have hwired := (h.loadRate .r300 false).restartSlow .v21Rx rfl
    exact (StateInv.drainQueue (StateInv.setAtRxMode (StateInv.congr hwired (by rfl)) _) _ _).returns _
  · exact h.unknownVal

theorem execFth_answersInv (v : Byte) : AnswersInv (execFth v s) := by
  refine operation_answersInv h ?_
  split
  · have hwired := (h.loadRate .r300 false).restartSlow .v21Tx rfl
    have hopen : StateInv (({ (s.loadRate .r300 false).restart .v21Tx with transmit := true }.emitResp
        .connect).setAtRxMode .hdlc) := StateInv.setAtRxMode (StateInv.emitResp (StateInv.congr hwired (by rfl)) _) _
    exact hopen.clearHdlcTxLen.armDteTimeout.returns _
  · exact h.unknownVal

theorem execFrm_answersInv (v : Byte) : AnswersInv (execFrm v s) := by
  refine operation_answersInv h ?_
  split
  next family rate short hrow =>
    have hwired := (h.loadRate rate short).restart family.rxMode fun _ => (class1Table_legal hrow).2
    have hheard : StateInv { (s.loadRate rate short).restart family.rxMode with transmit := false } :=
      StateInv.congr hwired (by rfl)
    exact StateInv.returns (StateInv.congr (hheard.setAtRxMode .delivery) (by rfl)) _
  next => exact h.unknownVal

theorem execFtm_answersInv (v : Byte) : AnswersInv (execFtm v s) := by
  refine operation_answersInv h ?_
  split
  next family rate short hrow =>
    have hwired := (h.loadRate rate short).restart family.txMode fun _ => (class1Table_legal hrow).1
    exact (StateInv.setAtRxMode (StateInv.emitResp (StateInv.congr hwired (by rfl)) _) _).returns _
  next => exact h.unknownVal

/-- The frame submitted lies within its buffer, so the byte that submits it does not stop (42 R182, 20 R70). -/
theorem hdlcByte_answersInv (b : Byte) : AnswersInv (s.hdlcByte b) := by
  have harmed := h.armDteTimeout
  unfold State.hdlcByte
  simp only []
  generalize s.armDteTimeout = u at harmed ⊢
  have hclear : StateInv { u with dled := false } := harmed.setDled false
  split
  · split
    · rw [if_pos harmed.hdlcTx.1]
      exact .next hclear.submitHdlc
    · split
      · exact .next ((hclear.hdlcAppend DLE).hdlcAppend DLE)
      · exact .next (hclear.hdlcAppend b)
  · split
    · exact .next (harmed.setDled true)
    · exact .next (harmed.hdlcAppend b)

theorem dteByte_answersInv (b : Byte) : AnswersInv (s.dteByte b) := by
  unfold State.dteByte
  split
  · exact .next (StateInv.congr h (by rfl))
  · exact .next (StateInv.congr h (by rfl))
  · exact hdlcByte_answersInv h b
  · exact .next (h.stuffedByte b)
  · exact .next h.abortDelivery

theorem execDte_answersInv (b : Byte) : AnswersInv (execDte b s) :=
  operationFaulting_answersInv h ((dteByte_answersInv h b).returning _)

/-- The byte taken lies below `tx_in_bytes`, so the load does not stop (43 R210, 20 R68). -/
theorem execGetBit_answersInv : AnswersInv (execGetBit s) := by
  obtain ⟨hout, hin⟩ := h.txCursors
  refine operationFaulting_answersInv h ?_
  split
  · split
    next hne =>
      have hleft : s.txOutBytes < s.txInBytes := Nat.lt_of_le_of_ne hout hne
      rw [if_pos (hleft.trans_le hin)]
      exact .next (h.loadTxByte hleft).shiftOutBit
    next =>
      split
      · exact .next (StateInv.congr h (by rfl))
      · exact .next h.fillTxByte.shiftOutBit
  · exact .next h.shiftOutBit

theorem execPutBitCarrierDown_answersInv : AnswersInv (execPutBitCarrierDown s) := by
  refine operation_answersInv h (StateInv.returns (StateInv.clearRxShifter ?_) _)
  refine StateInv.carrierLost ?_
  split
  · exact StateInv.congr ((h.emitEndOfData.emitResp .noCarrier).setAtRxMode .offhookCommand) (by rfl)
  · exact h

theorem execPutBitTrainingSucceeded_answersInv : AnswersInv (execPutBitTrainingSucceeded s) :=
  operation_answersInv h
    (StateInv.returns (StateInv.clearRxShifter (StateInv.congr (h.emitResp .connect).trainingSucceeded (by rfl))) _)

theorem execHdlcTxu_answersInv : AnswersInv (execHdlcTxu s) := by
  refine operation_answersInv h ?_
  split
  · split
    · exact StateInv.congr h (by rfl)
    · exact (h.emitResp _).armDteTimeout.returns _
  · exact h.returns _

theorem execHdlcRx_answersInv (ok : Bool) : AnswersInv (execHdlcRx ok s) := by
  refine operation_answersInv h ?_
  split
  next hmsg => exact (h.acceptFrame (frameMsg_length_le hmsg) ok).returns _
  next => exact h.refuse

theorem execHdlcEvCarrierDown_answersInv : AnswersInv (execHdlcEvCarrierDown s) := by
  refine operation_answersInv h (StateInv.returns ?_ _)
  split
  · exact h.v21CarrierDown
  · exact h

theorem execRxs_answersInv (quiet : Bool) : AnswersInv (execRxs quiet s) :=
  operation_answersInv h ((h.countSample quiet).checkSilence.checkDteTimeout.checkNoCarrier.returns _)

theorem execTxs_answersInv (n : Byte) : AnswersInv (execTxs n s) := by
  refine operation_answersInv h
    (StateInv.returns (s := (if s.transmit then s.pullSamples n.toNat else (0, s)).2) ?_ _)
  split
  · exact h.pullSamples _
  · exact h

theorem execQWrite_answersInv : AnswersInv (execQWrite s) := by
  refine operation_answersInv h ?_
  split
  · exact h.refuse
  next rec hrec =>
    have hsize : 1 ≤ rec.length ∧ rec.length ≤ 257 := by
      simp only [recordOperand, Option.ite_none_right_eq_some, Option.some.injEq] at hrec
      obtain ⟨hsize, rfl⟩ := hrec
      exact hsize
    have hqueued := h.enqueue rec hsize
    split
    next t hwrite =>
      simp only [State.enqueue, hwrite] at hqueued
      exact hqueued.returns _
    next => exact h.returns _

theorem execQRead_answersInv : AnswersInv (execQRead s) := by
  refine operation_answersInv h ?_
  obtain ⟨rxq, hring⟩ := h.queue
  cases rxq with
  | nil =>
    rw [(queueRead_spec hring).1 rfl]
    exact h.returns _
  | cons rec rest =>
    obtain ⟨t, hread, hholds, ht⟩ := (queueRead_spec hring).2 rec rest rfl
    rw [hread]
    exact (h.dequeue hholds ht).returns _

/-- One case per row of the opcode table; the operations without a lemma of their own write only registers the
invariant does not speak of. -/
theorem exec_answersInv (i : Instr) : AnswersInv (exec i s) := by
  unfold exec
  cases i with
  | init => exact execInit_answersInv h
  | release | setToi | setTep | callevRing | setT38 | t38Tick | putBitCarrierUp | putBitTrainingInProgress
  | putBitTrainingFailed | putBitOther | hdlcEvCarrierUp | hdlcEvOther =>
    exact operation_answersInv h (StateInv.congr h (by rfl))
  | callevAnswer => exact execCallevAnswer_answersInv h
  | callevHangup => exact execCallevHangup_answersInv h
  | restartFlush | restartSilenceTx | restartSilenceRx | restartCed | restartCng | restartNocng
  | restartV21Tx | restartV17Tx | restartV27terTx | restartV29Tx
  | restartV21Rx | restartV17Rx | restartV27terRx | restartV29Rx => exact restartOperation_answersInv h _
  | frs v => exact execFrs_answersInv h v
  | fts v => exact execFts_answersInv h v
  | frh v => exact execFrh_answersInv h v
  | fth v => exact execFth_answersInv h v
  | frm v => exact execFrm_answersInv h v
  | ftm v => exact execFtm_answersInv h v
  | dte b => exact execDte_answersInv h b
  | getBit => exact execGetBit_answersInv h
  | putBit bit => exact operation_answersInv h ((h.putDataBit bit).returns _)
  | putBitCarrierDown => exact execPutBitCarrierDown_answersInv h
  | putBitTrainingSucceeded => exact execPutBitTrainingSucceeded_answersInv h
  | hdlcRx ok => exact execHdlcRx_answersInv h ok
  | hdlcEvFramingOk => exact operation_answersInv h (h.framingOk.returns _)
  | hdlcEvCarrierDown => exact execHdlcEvCarrierDown_answersInv h
  | hdlcTxu => exact execHdlcTxu_answersInv h
  | rxs quiet => exact execRxs_answersInv h quiet
  | txs n => exact execTxs_answersInv h n
  | qWrite => exact execQWrite_answersInv h
  | qRead => exact execQRead_answersInv h
  | qFlush => exact operation_answersInv h (h.queueFlush.returns _)

/-- No command, a reserved word, or an operation (70 R332, 30 R102). -/
theorem step_answersInv : AnswersInv (step s) := by
  unfold step
  split
  · exact .next h
  next c rest _ =>
    split
    · exact exec_answersInv (h.present c rest) _
    · exact .next (h.present c rest).refuse

end

/-! ### The statements about the invariant -/

/-- Settles O54: the next state is the one of `step_answersInv`. -/
theorem stepKeepsInv : Obligations.StepKeepsInv := by
  intro s t hinv hstep
  obtain ⟨u, hnext, hu⟩ := step_answersInv hinv
  rw [hstep] at hnext
  cases hnext
  exact hu

/-- Settles O55: the invariant keeps both cursors within their memories, so neither load can stop. -/
theorem stepNeverStops : Obligations.StepNeverStops := by
  intro s hinv
  obtain ⟨t, hnext, -⟩ := step_answersInv hinv
  exact ⟨t, hnext⟩

/-! ### A byte on the transmit side -/

section
variable {s : State} (hlive : s.live = true)
include hlive

/-- GETBIT within a byte (43 R210). -/
theorem exec_getBit_within (hbit : s.txBitNo ≠ 0) : exec .getBit s = .next s.shiftOutBit := by
  simp only [exec, execGetBit, operationFaulting_live _ hlive, if_neg hbit]

/-- GETBIT at a byte boundary with data (43 R210). -/
theorem exec_getBit_boundary (hbit : s.txBitNo = 0) (hdata : s.txOutBytes ≠ s.txInBytes)
    (hsize : s.txOutBytes < s.params.txBufLen) : exec .getBit s = .next s.loadTxByte.shiftOutBit := by
  simp only [exec, execGetBit, operationFaulting_live _ hlive, if_pos hbit, if_pos hdata, if_pos hsize]

/-- PUTBIT with a bit that is not the eighth (43 R212). -/
theorem exec_putBit_within (bit : Bool) (hbit : s.rxBitNo + 1 ≠ 8) : exec (.putBit bit) s = .next
    { s with
      rxCurrentByte := shiftInBit s.params.putBitOrder s.rxCurrentByte bit
      rxBitNo := s.rxBitNo + 1, ret := .value 0 } := by
  simp only [exec, execPutBit, operation_live _ hlive, State.putDataBit, if_neg hbit]
  rfl

/-- PUTBIT with the eighth bit: the byte goes out stuffed and the shifter is clear (43 R212). -/
theorem exec_putBit_eighth (bit : Bool) (hbit : s.rxBitNo + 1 = 8) : exec (.putBit bit) s = .next
    { s with
      rxCurrentByte := 0, rxBitNo := 0, ret := .value 0
      dteTx := s.dteTx ++ (stuff [shiftInBit s.params.putBitOrder s.rxCurrentByte bit]).map .byte } := by
  simp only [exec, execPutBit, operation_live _ hlive, State.putDataBit, if_pos hbit]
  rfl

end

/-- The byte at the cursor is in the shifter with all of its bits to go; the latch and MODEM_CTRL follow the low-water
check (43 R210, R211). -/
theorem loadTxByte_eq (s : State) : s.loadTxByte =
    { s with
      txCurrentByte := s.cell .txData s.txOutBytes, txOutBytes := s.txOutBytes + 1
      txDataStarted := true, txBitNo := 8
      txHolding := s.loadTxByte.txHolding, modemCtrl := s.loadTxByte.modemCtrl } := by
  unfold State.loadTxByte State.checkLowWater
  split <;> rfl

/-- The rest of a byte, one GETBIT a bit, least significant first (20 R62). -/
theorem getBits_within (n : Nat) (s : State) (hlive : s.live = true) (hbits : s.txBitNo = n) :
    ∃ t : State, getBits n s = some ((List.range n).map fun k => bitRet (s.txCurrentByte.getLsbD k), t) ∧
      t = { s with txBitNo := 0, txCurrentByte := t.txCurrentByte, ret := t.ret } := by
  induction n generalizing s with
  | zero => exact ⟨s, rfl, by rw [← hbits]⟩
  | succ n ih =>
    obtain ⟨t, hrest, ht⟩ := ih s.shiftOutBit hlive (by show s.txBitNo - 1 = n; omega)
    refine ⟨t, ?_, ht⟩
    have hshift (k : Nat) : s.shiftOutBit.txCurrentByte.getLsbD k = s.txCurrentByte.getLsbD (k + 1) := by
      show (s.txCurrentByte >>> 1).getLsbD k = _
      rw [BitVec.getLsbD_ushiftRight, Nat.add_comm]
    simp only [getBits, exec_getBit_within hlive (by omega : s.txBitNo ≠ 0), hrest, Option.map_some, hshift,
      List.range_succ_eq_map, List.map_cons, List.map_map]
    rfl

/-- Eight GETBITs from a byte boundary send the next byte: the first of them loads it, and after that all eight shift
it out (43 R210). -/
theorem getBits_byte {s : State} {v : Byte} (hlive : s.live = true) (hbit : s.txBitNo = 0)
    (hdata : s.txOutBytes ≠ s.txInBytes) (hsize : s.txOutBytes < s.params.txBufLen)
    (hcell : s.txData.byteAt s.txOutBytes = some v) :
    ∃ t : State, getBits 8 s = some ((bitsLsbFirst v).map bitRet, t) ∧
      t = { s with
        txBitNo := 0, txCurrentByte := t.txCurrentByte, ret := t.ret, txOutBytes := s.txOutBytes + 1
        txDataStarted := true, txHolding := t.txHolding, modemCtrl := t.modemCtrl } := by
  have hload := loadTxByte_eq s
  rw [State.cell_of_byteAt (m := .txData) hcell] at hload
  have hloaded : s.loadTxByte.live = true ∧ s.loadTxByte.txBitNo = 8 ∧ s.loadTxByte.txCurrentByte = v := by
    rw [hload]; exact ⟨hlive, rfl, rfl⟩
  obtain ⟨hlive', hbits, hbyte⟩ := hloaded
  have hfirst : getBits 8 s = getBits 8 s.loadTxByte := by
    simp only [getBits, exec_getBit_boundary hlive hbit hdata hsize,
      exec_getBit_within hlive' (by omega : s.loadTxByte.txBitNo ≠ 0)]
  obtain ⟨t, hget, ht⟩ := getBits_within 8 s.loadTxByte hlive' hbits
  rw [hbyte] at hget
  refine ⟨t, hfirst.trans hget, ?_⟩
  generalize s.loadTxByte = u at hload ht
  rw [ht, hload]

/-- A run of bytes of `tx_data`, byte by byte (20 R62). -/
theorem getBits_bytes (p : List Byte) (s : State) (hlive : s.live = true) (hbit : s.txBitNo = 0)
    (hdata : s.txInBytes = s.txOutBytes + p.length) (hsize : s.txInBytes ≤ s.params.txBufLen)
    (hcells : ∀ i, i < p.length → s.txData.byteAt (s.txOutBytes + i) = p[i]?) :
    ∃ t : State, getBits (8 * p.length) s = some ((p.flatMap bitsLsbFirst).map bitRet, t) := by
  induction p generalizing s with
  | nil => exact ⟨s, rfl⟩
  | cons v p ih =>
    rw [List.length_cons] at hdata
    have hcell : s.txData.byteAt s.txOutBytes = some v := hcells 0 (Nat.zero_lt_succ _)
    obtain ⟨t, hfirst, ht⟩ := getBits_byte hlive hbit (by omega) (by omega) hcell
    have hrest (i : Nat) (hi : i < p.length) : s.txData.byteAt (s.txOutBytes + 1 + i) = p[i]? := by
      rw [Nat.add_assoc, Nat.add_comm 1 i]
      exact hcells (i + 1) (Nat.succ_lt_succ hi)
    have hdata' : s.txInBytes = s.txOutBytes + 1 + p.length := by omega
    obtain ⟨u, hu⟩ := ih t (by rw [ht]; exact hlive) (by rw [ht]) (by rw [ht]; exact hdata')
      (by rw [ht]; exact hsize) (by rw [ht]; exact hrest)
    refine ⟨u, ?_⟩
    rw [List.length_cons, Nat.mul_succ, Nat.add_comm, getBits_add 8 _ s t _ hfirst, hu]
    simp

/-! ### A byte on the receive side -/

/-- The bits that complete a byte send it: it is what they make of the shifter, one after another (20 R63). -/
theorem execAll_putBit_completes (bits : List Bool) (s : State) (hlive : s.live = true) (hsome : bits ≠ [])
    (hcount : s.rxBitNo + bits.length = 8) : execAll (bits.map .putBit) s = .next
      { s with
        rxCurrentByte := 0, rxBitNo := 0, ret := .value 0
        dteTx := s.dteTx ++
          (stuff [bits.foldl (shiftInBit s.params.putBitOrder) s.rxCurrentByte]).map .byte } := by
  induction bits generalizing s with
  | nil => exact absurd rfl hsome
  | cons bit rest ih =>
    rw [List.length_cons] at hcount
    by_cases hlast : rest = []
    · subst hlast
      simp only [List.map_cons, execAll, exec_putBit_eighth hlive bit (by simpa using hcount)]
      rfl
    · have hpos := List.length_pos_iff.2 hlast
      have hcount' : s.rxBitNo + 1 + rest.length = 8 := by omega
      simp only [List.map_cons, execAll, exec_putBit_within hlive bit (by omega)]
      exact ih _ hlive hlast hcount'

/-- The order in which PUT_BIT_ORDER takes the bits of a byte (20 R63). -/
def bitsInOrder : PutBitOrder → Byte → List Bool
  | .msbFirst, v => (bitsLsbFirst v).reverse
  | .lsbFirst, v => bitsLsbFirst v

theorem bitsInOrder_length (order : PutBitOrder) (v : Byte) : (bitsInOrder order v).length = 8 := by
  cases order <;> rfl

theorem shiftInBit_bitsInOrder (order : PutBitOrder) (c v : Byte) :
    (bitsInOrder order v).foldl (shiftInBit order) c = v := by
  cases order
  · exact shiftInBit_msbFirst_bits c v
  · exact shiftInBit_lsbFirst_bits c v

/-- Eight bits of a byte in the order of the parameter, from a byte boundary (43 R212). -/
theorem execAll_putBit_byte {s : State} (v : Byte) (hlive : s.live = true) (hbit : s.rxBitNo = 0) :
    execAll ((bitsInOrder s.params.putBitOrder v).map .putBit) s = .next
      { s with
        rxCurrentByte := 0, rxBitNo := 0, ret := .value 0
        dteTx := s.dteTx ++ (stuff [v]).map .byte } := by
  have hlen := bitsInOrder_length s.params.putBitOrder v
  rw [execAll_putBit_completes _ s hlive (List.ne_nil_of_length_pos (by omega)) (by omega),
    shiftInBit_bitsInOrder]

/-- The byte that arrives where `v` is sent least significant bit first (20 R62, R63). -/
def arrivingByte : PutBitOrder → Byte → Byte
  | .lsbFirst, v => v
  | .msbFirst, v => bitrev8 v

theorem bitsInOrder_arrivingByte (order : PutBitOrder) (v : Byte) :
    bitsInOrder order (arrivingByte order v) = bitsLsbFirst v := by
  cases order
  · rw [bitsInOrder, bitsLsbFirst_reverse, arrivingByte, bitrev8_bitrev8]
  · rfl

/-- The bits of a run of bytes, put in byte by byte (20 R63). -/
theorem execAll_putBit_bytes (p : List Byte) (r : State) (hlive : r.live = true) (hbit : r.rxBitNo = 0) :
    ∃ u : State, execAll ((p.flatMap bitsLsbFirst).map .putBit) r = .next u ∧
      u.dteTx = r.dteTx ++ (stuff (p.map (arrivingByte r.params.putBitOrder))).map .byte := by
  induction p generalizing r with
  | nil => exact ⟨r, rfl, (List.append_nil _).symm⟩
  | cons v p ih =>
    have hfirst := execAll_putBit_byte (arrivingByte r.params.putBitOrder v) hlive hbit
    rw [bitsInOrder_arrivingByte] at hfirst
    obtain ⟨u, hrest, hu⟩ := ih
      { r with
        rxCurrentByte := 0, rxBitNo := 0, ret := .value 0
        dteTx := r.dteTx ++ (stuff [arrivingByte r.params.putBitOrder v]).map .byte } hlive rfl
    refine ⟨u, ?_, ?_⟩
    · rw [List.flatMap_cons, List.map_append, execAll_append _ _ _ _ hfirst, hrest]
    · rw [hu, List.append_assoc, ← List.map_append, ← stuff_append]
      rfl

/-! ### The statements about the bit pump -/

/-- Settles O35: the byte of `getBits_byte`, in the fields the statement names. -/
theorem eightGetBitsSendTheByte : Obligations.EightGetBitsSendTheByte := by
  intro s v hlive hbit hdata hsize hcell
  obtain ⟨t, hget, ht⟩ := getBits_byte hlive hbit hdata hsize hcell
  refine ⟨t, hget, ?_⟩
  rw [ht]
  exact ⟨rfl, rfl, rfl, rfl, rfl, rfl⟩

/-- Settles O37: under either order the eight bits taken in that order make the byte again. -/
theorem eightPutBitsDeliverTheByte : Obligations.EightPutBitsDeliverTheByte := by
  intro s v hlive hbit
  have hbyte := execAll_putBit_byte v hlive hbit
  cases horder : s.params.putBitOrder <;> rw [horder] at hbyte <;> exact hbyte

/-- Settles O38: the bits sent are those of the bytes of the payload, least significant first, and the receiver puts
them together byte by byte. -/
theorem sentBytesArriveByBitOrder : Obligations.SentBytesArriveByBitOrder := by
  intro s r p hslive hrlive hsbit hrbit hdata hsize hcells
  obtain ⟨t, hget⟩ := getBits_bytes p s hslive hsbit hdata hsize hcells
  obtain ⟨u, hput, hu⟩ := execAll_putBit_bytes p r hrlive hrbit
  refine ⟨_, t, u, hget, hput, ?_⟩
  cases horder : r.params.putBitOrder <;> rw [horder] at hu
  · exact hu
  · rw [hu, show arrivingByte .lsbFirst = id from rfl, List.map_id]

/-! ### The statement about FRAME_IN -/

/-- A frame is dropped while an OK is pending (44 R240). -/
theorem acceptFrame_pending {s : State} (msg : List Byte) (ok : Bool) (hpending : s.okIsPending = true) :
    s.acceptFrame msg ok = s := if_pos hpending

/-- HDLCRX of a frame that FRAME_IN does not carry whole (70 R336). -/
theorem frameMsg_eq_none {f : FrameInput} (h : 254 < f.len ∨ f.bytes.length < f.len + 2) : frameMsg f = none :=
  if_neg fun ⟨hlen, hbytes⟩ => by simp only [maxFrameLen] at hlen; omega

theorem frameMsg_eq_some {f : FrameInput} (hlen : f.len ≤ 254) (hbytes : f.len + 2 ≤ f.bytes.length) :
    frameMsg f = some (f.bytes.take (f.len + 2)) := if_pos ⟨hlen, hbytes⟩

theorem recordOperand_eq_none {f : FrameInput} (h : f.bytes = [] ∨ 257 < f.bytes.length) :
    recordOperand f = none := by
  refine if_neg fun ⟨hlow, hhigh⟩ => ?_
  simp only [maxRecordLen] at hhigh
  rcases h with hnil | hlong
  · simp [hnil] at hlow
  · omega

/-- Settles O45: the tests on FRAME_IN come before everything else, and a pending OK before the delivery. -/
theorem frameInputIsIgnoredOrRefused : Obligations.FrameInputIsIgnoredOrRefused := by
  intro s ok hlive
  refine ⟨fun hpending hlen hbytes => ?_, fun hbad => ?_, fun hbad => ?_⟩
  · simp only [exec, execHdlcRx, operation_live _ hlive, frameMsg_eq_some hlen hbytes,
      acceptFrame_pending _ _ hpending]
    rfl
  · simp only [exec, execHdlcRx, operation_live _ hlive, frameMsg_eq_none hbad]
    rfl
  · simp only [exec, execQWrite, operation_live _ hlive, recordOperand_eq_none hbad]
    rfl

/-! ### The registers that have writers of their own -/

/-- The registers and memories that only some operations write; `constants` stands for those that none but INIT
does. -/
inductive OwnedReg where
  | rates | samples | callSamples | session | transmitOnIdle | useTep | dled | txData | hdlcTxBuf | qData | constants

/-- What a state holds in such a register, every other field as after reset, so that all parts are of one type. -/
def OwnedReg.part (s : State) : OwnedReg → State
  | .rates => { State.reset with bitRate := s.bitRate, shortTrain := s.shortTrain }
  | .samples => { State.reset with samples := s.samples }
  | .callSamples => { State.reset with callSamples := s.callSamples }
  | .session => { State.reset with session := s.session }
  | .transmitOnIdle => { State.reset with transmitOnIdle := s.transmitOnIdle }
  | .useTep => { State.reset with useTep := s.useTep }
  | .dled => { State.reset with dled := s.dled }
  | .txData => { State.reset with txData := s.txData }
  | .hdlcTxBuf => { State.reset with hdlcTxBuf := s.hdlcTxBuf }
  | .qData => { State.reset with qData := s.qData }
  | .constants =>
    { State.reset with
      t38Mode := s.t38Mode, adaptiveReceive := s.adaptiveReceive, s7 := s.s7, params := s.params
      hdlcRxBuf := s.hdlcRxBuf, hdlcRxLen := s.hdlcRxLen, missingData := s.missingData, hdlcTxPtr := s.hdlcTxPtr }

/-- What a DTE byte writes, by the inbound mode (42 R180). -/
def dteWrites : AtRxMode → List OwnedReg
  | .hdlc => [.dled, .hdlcTxBuf]
  | .stuffed => [.dled, .txData]
  | .onhookCommand | .offhookCommand | .delivery => []

/-- The owned registers an operation other than INIT may write in a state. -/
def ownedWrites (s : State) : Instr → List OwnedReg
  | .release => [.session]
  | .setToi _ => [.transmitOnIdle]
  | .setTep _ => [.useTep]
  | .callevAnswer => [.callSamples]
  | .frh _ | .fth _ | .frm _ | .ftm _ => [.rates]
  | .dte _ => dteWrites s.atRxMode
  | .hdlcRx _ | .hdlcEvFramingOk | .hdlcEvCarrierDown | .qWrite => [.qData]
  | .rxs _ => [.samples, .callSamples]
  | _ => []

/-! ### The relation: all owned registers but some are kept -/

/-- From `s` to `t` no owned register has moved but those of the list. -/
def KeepsAllBut (w : List OwnedReg) (s t : State) : Prop := ∀ r, r ∉ w → r.part t = r.part s

/-- An update of other fields: each part is the same by `rfl`. -/
theorem KeepsAllBut.of_parts {w : List OwnedReg} {s t : State} (h : ∀ r, OwnedReg.part t r = r.part s) :
    KeepsAllBut w s t := fun r _ => h r

theorem KeepsAllBut.trans {w : List OwnedReg} {a b c : State} (h : KeepsAllBut w a b) (g : KeepsAllBut w b c) :
    KeepsAllBut w a c := fun r hr => (g r hr).trans (h r hr)

/-- RET is no owned register. -/
theorem KeepsAllBut.returns {w : List OwnedReg} {s t : State} (h : KeepsAllBut w s t) (v : Ret) :
    KeepsAllBut w s (t.returns v) := h.trans (.of_parts fun r => by cases r <;> rfl)

/-- Where a frame is kept with the codec's buffers, at most the ring's storage moves. -/
theorem KeepsAllBut.of_frame {s t : State} (f : Frame s t) (b : SameBuffers s t) : KeepsAllBut [.qData] s t := by
  intro r hr
  cases r with
  | qData => exact absurd (List.mem_singleton_self _) hr
  | rates => simp only [OwnedReg.part, f.bitRate, f.shortTrain]
  | samples => simp only [OwnedReg.part, f.samples]
  | callSamples => simp only [OwnedReg.part, f.callSamples]
  | session => simp only [OwnedReg.part, f.session]
  | transmitOnIdle => simp only [OwnedReg.part, f.transmitOnIdle]
  | useTep => simp only [OwnedReg.part, f.useTep]
  | dled => simp only [OwnedReg.part, b.dled]
  | txData => simp only [OwnedReg.part, b.txData]
  | hdlcTxBuf => simp only [OwnedReg.part, b.hdlcTxBuf]
  | constants =>
    simp only [OwnedReg.part, f.t38Mode, f.adaptiveReceive, f.s7, f.params, f.hdlcRxBuf, f.hdlcRxLen, f.missingData,
      f.hdlcTxPtr]

/-- Where the ring's storage is kept as well, every owned register is. -/
theorem KeepsAllBut.of_quiet {w : List OwnedReg} {s t : State}
    (h : Frame s t ∧ SameBuffers s t ∧ t.qData = s.qData) : KeepsAllBut w s t := by
  obtain ⟨hframe, hbuffers, hring⟩ := h
  intro r _
  by_cases hr : r = .qData
  · rw [hr, OwnedReg.part, OwnedReg.part, hring]
  · exact KeepsAllBut.of_frame hframe hbuffers r (by simpa using hr)

/-- A refusal moves nothing but RET, so only the body counts (00 R9). -/
theorem operation_keeps {w : List OwnedReg} {s t : State} {body : State → State} (h : operation s body = .next t)
    (hbody : KeepsAllBut w s (body s)) : KeepsAllBut w s t := by
  rcases operation_cases s body with ⟨_, hrun⟩ | ⟨_, hrefuse⟩
  · rw [hrun] at h; cases h; exact hbody
  · rw [hrefuse] at h; cases h; exact .of_parts fun r => by cases r <;> rfl

theorem operationFaulting_keeps {w : List OwnedReg} {s t : State} {body : State → Host.Outcome State Fault Refusal}
    (h : operationFaulting s body = .next t) (hbody : body s = .next t → KeepsAllBut w s t) :
    KeepsAllBut w s t := by
  cases hlive : s.live with
  | true => rw [operationFaulting_live _ hlive] at h; exact hbody h
  | false =>
    rw [operationFaulting_dead _ hlive] at h; cases h
    exact .of_parts fun r => by cases r <;> rfl

/-! ### The buffers and the ring under the remaining shared operations -/

theorem SameBuffers.refl (s : State) : SameBuffers s s := ⟨rfl, rfl, rfl⟩

theorem keeps_restart {w : List OwnedReg} (s : State) (m : Mode) : KeepsAllBut w s (s.restart m) :=
  .of_quiet ⟨frame_restart m s, buffers_restart m s⟩

theorem keeps_loadRate_restart (s : State) (rate : BitRate) (short : Bool) (m : Mode) :
    KeepsAllBut [.rates] s ((s.loadRate rate short).restart m) := by
  have hload : KeepsAllBut [.rates] s (s.loadRate rate short) := by
    intro r hr
    cases r with
    | rates => exact absurd (List.mem_singleton_self _) hr
    | _ => rfl
  exact hload.trans (keeps_restart _ m)

/-- A bit shifted in, or a byte put out (43 R212). -/
theorem keeps_putDataBit {w : List OwnedReg} (s : State) (bit : Bool) : KeepsAllBut w s (s.putDataBit bit) := by
  refine .of_quiet ⟨frame_putDataBit s bit, ?_⟩
  unfold State.putDataBit
  simp only []
  split <;> exact ⟨⟨rfl, rfl, rfl⟩, rfl⟩

/-- A byte boundary with data (43 R210, R211). -/
theorem keeps_loadTxByte {w : List OwnedReg} (s : State) : KeepsAllBut w s s.loadTxByte := by
  have hload := loadTxByte_eq s
  exact .of_quiet ⟨frame_loadTxByte s, ⟨(congrArg State.dled hload :), (congrArg State.txData hload :),
    (congrArg State.hdlcTxBuf hload :)⟩, (congrArg State.qData hload :)⟩

theorem buffers_deliverDirect (s : State) (msg : List Byte) (ok : Bool) :
    SameBuffers s (s.deliverDirect msg ok) := by
  have hframe : SameBuffers s (s.emitStuffed msg).emitEndOfData := ⟨rfl, rfl, rfl⟩
  unfold State.deliverDirect
  simp only []
  generalize (s.emitStuffed msg).emitEndOfData = u at hframe ⊢
  split <;> exact hframe.trans ⟨rfl, rfl, rfl⟩

theorem keeps_acceptFrame (s : State) (msg : List Byte) (ok : Bool) :
    KeepsAllBut [.qData] s (s.acceptFrame msg ok) := by
  refine .of_frame (frame_acceptFrame s msg ok) ?_
  unfold State.acceptFrame
  split
  · exact .refl s
  · split
    · refine SameBuffers.trans ?_ (buffers_deliverDirect _ msg ok)
      split <;> exact ⟨rfl, rfl, rfl⟩
    · exact (frame_enqueue s _).2

theorem buffers_carrierError (s : State) : SameBuffers s s.carrierError := by
  unfold State.carrierError
  simp only []
  split <;> exact ⟨rfl, rfl, rfl⟩

theorem buffers_v21Preamble (s : State) : SameBuffers s s.v21Preamble := by
  have hnoted : SameBuffers s { s with rxSignalPresent := true, rxMessageReceived := true } := ⟨rfl, rfl, rfl⟩
  unfold State.v21Preamble
  simp only []
  split
  · exact ⟨rfl, rfl, rfl⟩
  · split
    · exact ⟨rfl, rfl, rfl⟩
    · exact hnoted.trans (frame_enqueue _ _).2

theorem keeps_framingOk (s : State) : KeepsAllBut [.qData] s s.framingOk := by
  have hdrop : SameBuffers s (if s.inCng then s.cngDrop else s) := by split <;> exact ⟨rfl, rfl, rfl⟩
  refine .of_frame (frame_framingOk s) ?_
  unfold State.framingOk
  simp only []
  generalize (if s.inCng then s.cngDrop else s) = u at hdrop ⊢
  split
  · exact hdrop.trans (buffers_carrierError u)
  · split
    · exact hdrop.trans (buffers_v21Preamble u)
    · exact hdrop

theorem keeps_v21CarrierDown (s : State) : KeepsAllBut [.qData] s s.v21CarrierDown := by
  refine .of_frame (frame_v21CarrierDown s) ?_
  unfold State.v21CarrierDown
  refine SameBuffers.trans (b := if s.okIsPending then _ else _) ?_ ⟨rfl, rfl, rfl⟩
  split
  · exact ⟨rfl, rfl, rfl⟩
  · split
    · refine SameBuffers.trans (b := if s.dteIsWaiting then _ else _) ?_ ⟨rfl, rfl, rfl⟩
      split
      · exact ⟨rfl, rfl, rfl⟩
      · exact (frame_enqueue s _).2
    · exact .refl s

/-- The active handler, its successor, the completion (45 R278). -/
theorem keeps_pullSamples {w : List OwnedReg} (s : State) (n : Nat) : KeepsAllBut w s (s.pullSamples n).2 := by
  have hproduce (u : State) (h : TxHandler) (k : Nat) : KeepsAllBut w u (u.produce h k).2 :=
    .of_quiet (frame_produce u h k)
  have hcomplete (len : Nat) (u : State) : KeepsAllBut w u (if len < n then u.txComplete else u) := by
    split
    · exact .of_quiet (frame_txComplete u)
    · exact .of_parts fun _ => rfl
  unfold State.pullSamples
  simp only []
  refine KeepsAllBut.trans ((hproduce s s.txHandler n).trans ?_) (hcomplete _ _)
  split
  · refine KeepsAllBut.trans (.of_parts fun r => ?_) (hproduce _ _ _)
    cases r <;> rfl
  · exact .of_parts fun _ => rfl

/-! ### The inbound codec writes its escape flag and the buffer of its mode -/

/-- A byte stored in, or dropped from, HDLC mode's buffer (42 R182). -/
theorem keeps_hdlcAppend (s : State) (x : Byte) : KeepsAllBut [.dled, .hdlcTxBuf] s (s.hdlcAppend x) := by
  unfold State.hdlcAppend
  intro r hr
  split
  · cases r with
    | hdlcTxBuf => simp at hr
    | _ => rfl
  · cases r <;> rfl

theorem keeps_hdlcByte {s t : State} {b : Byte} (h : s.hdlcByte b = .next t) :
    KeepsAllBut [.dled, .hdlcTxBuf] s t := by
  have hdled (d : Bool) : KeepsAllBut [.dled, .hdlcTxBuf] s { s.armDteTimeout with dled := d } := by
    intro r hr
    cases r with
    | dled => simp at hr
    | _ => rfl
  have harmed : KeepsAllBut [.dled, .hdlcTxBuf] s s.armDteTimeout := .of_parts fun r => by cases r <;> rfl
  have hsubmit (u : State) : KeepsAllBut [.dled, .hdlcTxBuf] u u.submitHdlc := .of_parts fun r => by cases r <;> rfl
  unfold State.hdlcByte at h
  simp only [] at h
  split at h
  · have hclear := hdled false
    generalize ({ s.armDteTimeout with dled := false } : State) = u at h hclear
    split at h
    · split at h
      · cases h; exact hclear.trans (hsubmit u)
      · cases h
    · split at h
      · cases h; exact hclear.trans ((keeps_hdlcAppend _ _).trans (keeps_hdlcAppend _ _))
      · cases h; exact hclear.trans (keeps_hdlcAppend _ _)
  · split at h
    · cases h; exact hdled true
    · cases h; exact harmed.trans (keeps_hdlcAppend _ _)

/-- A byte stored in, or dropped from, STUFFED mode's buffer (42 R184). -/
theorem keeps_stuffedStore (s : State) (x : Byte) : KeepsAllBut [.dled, .txData] s (s.stuffedStore x) := by
  unfold State.stuffedStore
  intro r hr
  split
  · cases r with
    | txData => simp at hr
    | _ => rfl
  · cases r <;> rfl

theorem keeps_stuffedByte (s : State) (b : Byte) : KeepsAllBut [.dled, .txData] s (s.stuffedByte b) := by
  have hdled (d : Bool) : KeepsAllBut [.dled, .txData] s { s with dled := d } := by
    intro r hr
    cases r with
    | dled => simp at hr
    | _ => rfl
  have hend (u : State) : KeepsAllBut [.dled, .txData] u u.endOfData := .of_parts fun r => by cases r <;> rfl
  unfold State.stuffedByte
  refine KeepsAllBut.trans ?_ (.of_quiet (frame_checkHighWater _))
  split
  · have hclear := hdled false
    simp only []
    generalize ({ s with dled := false } : State) = u at hclear ⊢
    refine hclear.trans ?_
    split
    · exact hend u
    · split
      · exact (keeps_stuffedStore _ _).trans (keeps_stuffedStore _ _)
      · exact keeps_stuffedStore _ _
  · split
    · exact hdled true
    · exact keeps_stuffedStore _ _

theorem keeps_dteByte {s t : State} {b : Byte} (h : s.dteByte b = .next t) :
    KeepsAllBut (dteWrites s.atRxMode) s t := by
  unfold State.dteByte at h
  cases hmode : s.atRxMode with
  | onhookCommand | offhookCommand =>
    rw [hmode] at h; cases h
    exact .of_parts fun r => by cases r <;> rfl
  | hdlc => rw [hmode] at h; exact keeps_hdlcByte h
  | stuffed => rw [hmode] at h; cases h; exact keeps_stuffedByte s b
  | delivery => rw [hmode] at h; cases h; exact .of_quiet (frame_abortDelivery s)

/-! ### The meanings -/

theorem execCallevHangup_keeps {s t : State} (h : execCallevHangup s = .next t) : KeepsAllBut [] s t := by
  have hwired : KeepsAllBut [] s (s.restart .silenceTx) := keeps_restart s .silenceTx
  refine operation_keeps h ?_
  generalize s.restart .silenceTx = u at hwired ⊢
  exact hwired.trans (.of_parts fun r => by cases r <;> rfl)

theorem restartOperation_keeps {s t : State} {m : Mode} (h : restartOperation m s = .next t) :
    KeepsAllBut [] s t := by
  refine operation_keeps h ?_
  split
  · exact (keeps_restart s m).returns _
  · exact .of_parts fun r => by cases r <;> rfl

theorem execFrs_keeps {s t : State} {v : Byte} (h : execFrs v s = .next t) : KeepsAllBut [] s t := by
  have hwired : KeepsAllBut [] s (s.restart .silenceRx) := keeps_restart s .silenceRx
  refine operation_keeps h ?_
  simp only []
  generalize s.restart .silenceRx = u at hwired ⊢
  split <;> exact hwired.trans (.of_parts fun r => by cases r <;> rfl)

theorem execFts_keeps {s t : State} {v : Byte} (h : execFts v s = .next t) : KeepsAllBut [] s t := by
  have hwired : KeepsAllBut [] s (s.restart .silenceTx) := keeps_restart s .silenceTx
  refine operation_keeps h ?_
  generalize s.restart .silenceTx = u at hwired ⊢
  exact hwired.trans (.of_parts fun r => by cases r <;> rfl)

theorem keeps_unknownVal {w : List OwnedReg} (s : State) : KeepsAllBut w s s.unknownVal :=
  .of_parts fun r => by cases r <;> rfl

theorem execFrh_keeps {s t : State} {v : Byte} (h : execFrh v s = .next t) : KeepsAllBut [.rates] s t := by
  refine operation_keeps h ?_
  split
  · have hwired := keeps_loadRate_restart s .r300 false .v21Rx
    simp only []
    generalize (s.loadRate .r300 false).restart .v21Rx = u at hwired ⊢
    have hready : KeepsAllBut [.rates] u ({ u with transmit := false }.setAtRxMode .delivery) :=
      .of_parts fun r => by cases r <;> rfl
    exact ((hwired.trans hready).trans (.of_quiet (frame_drainQueue _ _ _))).returns _
  · exact keeps_unknownVal s

theorem execFth_keeps {s t : State} {v : Byte} (h : execFth v s = .next t) : KeepsAllBut [.rates] s t := by
  refine operation_keeps h ?_
  split
  · have hwired := keeps_loadRate_restart s .r300 false .v21Tx
    simp only []
    generalize (s.loadRate .r300 false).restart .v21Tx = u at hwired ⊢
    exact hwired.trans (.of_parts fun r => by cases r <;> rfl)
  · exact keeps_unknownVal s

theorem execFrm_keeps {s t : State} {v : Byte} (h : execFrm v s = .next t) : KeepsAllBut [.rates] s t := by
  refine operation_keeps h ?_
  split
  next family rate short _ =>
    have hwired := keeps_loadRate_restart s rate short family.rxMode
    simp only []
    generalize (s.loadRate rate short).restart family.rxMode = u at hwired ⊢
    exact hwired.trans (.of_parts fun r => by cases r <;> rfl)
  next => exact keeps_unknownVal s

theorem execFtm_keeps {s t : State} {v : Byte} (h : execFtm v s = .next t) : KeepsAllBut [.rates] s t := by
  refine operation_keeps h ?_
  split
  next family rate short _ =>
    have hwired := keeps_loadRate_restart s rate short family.txMode
    simp only []
    generalize (s.loadRate rate short).restart family.txMode = u at hwired ⊢
    exact hwired.trans (.of_parts fun r => by cases r <;> rfl)
  next => exact keeps_unknownVal s

theorem execDte_keeps {s t : State} {b : Byte} (h : execDte b s = .next t) :
    KeepsAllBut (dteWrites s.atRxMode) s t := by
  refine operationFaulting_keeps h fun hbody => ?_
  cases hbyte : s.dteByte b with
  | next u => rw [hbyte] at hbody; cases hbody; exact (keeps_dteByte hbyte).returns _
  | fault f => rw [hbyte] at hbody; cases hbody
  | refused r => rw [hbyte] at hbody; cases hbody

theorem execGetBit_keeps {s t : State} (h : execGetBit s = .next t) : KeepsAllBut [] s t := by
  refine operationFaulting_keeps h fun hbody => ?_
  have hshift (u : State) : KeepsAllBut [] u u.shiftOutBit := .of_parts fun r => by cases r <;> rfl
  have hfill : KeepsAllBut [] s s.fillTxByte := .of_parts fun r => by cases r <;> rfl
  split at hbody
  · split at hbody
    · split at hbody
      · cases hbody; exact (keeps_loadTxByte s).trans (hshift _)
      · cases hbody
    · split at hbody
      · cases hbody; exact .of_parts fun r => by cases r <;> rfl
      · cases hbody; exact hfill.trans (hshift _)
  · cases hbody; exact hshift s

theorem execPutBitCarrierDown_keeps {s t : State} (h : execPutBitCarrierDown s = .next t) :
    KeepsAllBut [] s t := by
  refine operation_keeps h
    (KeepsAllBut.trans (b := if _ then _ else _) ?_ (.of_parts fun r => by cases r <;> rfl))
  split <;> exact .of_parts fun r => by cases r <;> rfl

theorem execHdlcTxu_keeps {s t : State} (h : execHdlcTxu s = .next t) : KeepsAllBut [] s t := by
  refine operation_keeps h ?_
  split
  · split <;> exact .of_parts fun r => by cases r <;> rfl
  · exact .of_parts fun r => by cases r <;> rfl

theorem execHdlcRx_keeps {s t : State} {ok : Bool} (h : execHdlcRx ok s = .next t) : KeepsAllBut [.qData] s t := by
  refine operation_keeps h ?_
  split
  · exact (keeps_acceptFrame s _ ok).returns _
  · exact .of_parts fun r => by cases r <;> rfl

theorem execHdlcEvCarrierDown_keeps {s t : State} (h : execHdlcEvCarrierDown s = .next t) :
    KeepsAllBut [.qData] s t := by
  refine operation_keeps h (KeepsAllBut.returns ?_ _)
  split
  · exact keeps_v21CarrierDown s
  · exact .of_parts fun _ => rfl

/-- The counters move, then the three checks (45 R276). -/
theorem execRxs_keeps {s t : State} {quiet : Bool} (h : execRxs quiet s = .next t) :
    KeepsAllBut [.samples, .callSamples] s t := by
  have hcount : KeepsAllBut [.samples, .callSamples] s (s.countSample quiet) := by
    intro r hr
    cases r with
    | samples | callSamples => simp at hr
    | _ => rfl
  have hchecks {u : State} : KeepsAllBut [.samples, .callSamples] u u.checkSilence.checkDteTimeout.checkNoCarrier :=
    (KeepsAllBut.of_quiet (frame_checkSilence _)).trans
      ((KeepsAllBut.of_quiet (frame_checkDteTimeout _)).trans (.of_quiet (frame_checkNoCarrier _)))
  exact operation_keeps h ((hcount.trans hchecks).returns _)

theorem execTxs_keeps {s t : State} {n : Byte} (h : execTxs n s = .next t) : KeepsAllBut [] s t := by
  refine operation_keeps h
    (KeepsAllBut.returns (t := (if s.transmit then s.pullSamples n.toNat else (0, s)).2) ?_ _)
  split
  · exact keeps_pullSamples s n.toNat
  · exact .of_parts fun _ => rfl

theorem execQWrite_keeps {s t : State} (h : execQWrite s = .next t) : KeepsAllBut [.qData] s t := by
  refine operation_keeps h ?_
  split
  · exact .of_parts fun r => by cases r <;> rfl
  · split
    next hwrite =>
      obtain ⟨hframe, hbuffers⟩ := frame_queueWrite hwrite
      exact (KeepsAllBut.of_frame hframe hbuffers).returns _
    next => exact .of_parts fun r => by cases r <;> rfl

theorem execQRead_keeps {s t : State} (h : execQRead s = .next t) : KeepsAllBut [] s t := by
  refine operation_keeps h ?_
  split
  next hread => exact (KeepsAllBut.of_quiet (frame_queueRead hread)).returns _
  next => exact .of_parts fun r => by cases r <;> rfl

/-- One case per row of the opcode table; the operations without a lemma of their own are one update. -/
theorem exec_keeps {i : Instr} {s t : State} (h : exec i s = .next t) (hi : i ≠ .init) :
    KeepsAllBut (ownedWrites s i) s t := by
  unfold exec at h
  cases i with
  | init => exact absurd rfl hi
  | release =>
    refine operation_keeps h fun r hr => ?_
    cases r with
    | session => exact absurd (List.mem_singleton_self _) hr
    | _ => rfl
  | setToi =>
    refine operation_keeps h fun r hr => ?_
    cases r with
    | transmitOnIdle => exact absurd (List.mem_singleton_self _) hr
    | _ => rfl
  | setTep =>
    refine operation_keeps h fun r hr => ?_
    cases r with
    | useTep => exact absurd (List.mem_singleton_self _) hr
    | _ => rfl
  | callevAnswer =>
    refine operation_keeps h fun r hr => ?_
    cases r with
    | callSamples => exact absurd (List.mem_singleton_self _) hr
    | _ => rfl
  | callevRing | setT38 | t38Tick | putBitCarrierUp | putBitTrainingInProgress | putBitTrainingSucceeded
  | putBitTrainingFailed | putBitOther | hdlcEvCarrierUp | hdlcEvOther | qFlush =>
    exact operation_keeps h (.of_parts fun r => by cases r <;> rfl)
  | restartFlush | restartSilenceTx | restartSilenceRx | restartCed | restartCng | restartNocng
  | restartV21Tx | restartV17Tx | restartV27terTx | restartV29Tx
  | restartV21Rx | restartV17Rx | restartV27terRx | restartV29Rx => exact restartOperation_keeps h
  | callevHangup => exact execCallevHangup_keeps h
  | frs => exact execFrs_keeps h
  | fts => exact execFts_keeps h
  | frh => exact execFrh_keeps h
  | fth => exact execFth_keeps h
  | frm => exact execFrm_keeps h
  | ftm => exact execFtm_keeps h
  | dte => exact execDte_keeps h
  | getBit => exact execGetBit_keeps h
  | putBit bit => exact operation_keeps h ((keeps_putDataBit s bit).returns _)
  | putBitCarrierDown => exact execPutBitCarrierDown_keeps h
  | hdlcRx => exact execHdlcRx_keeps h
  | hdlcEvFramingOk => exact operation_keeps h ((keeps_framingOk s).returns _)
  | hdlcEvCarrierDown => exact execHdlcEvCarrierDown_keeps h
  | hdlcTxu => exact execHdlcTxu_keeps h
  | rxs => exact execRxs_keeps h
  | txs => exact execTxs_keeps h
  | qWrite => exact execQWrite_keeps h
  | qRead => exact execQRead_keeps h

/-! ### Which operations write a register -/

/-- The operations that write an owned register, as the claim words them. -/
def OwnedReg.Writer (i : Instr) (s : State) : OwnedReg → Prop
  | .rates => ∃ v, i = .frh v ∨ i = .fth v ∨ i = .frm v ∨ i = .ftm v
  | .samples => ∃ q, i = .rxs q
  | .callSamples => i = .callevAnswer ∨ ∃ q, i = .rxs q
  | .session => i = .release
  | .transmitOnIdle => ∃ b, i = .setToi b
  | .useTep => ∃ b, i = .setTep b
  | .dled => (∃ b, i = .dte b) ∧ (s.atRxMode = .hdlc ∨ s.atRxMode = .stuffed)
  | .txData => (∃ b, i = .dte b) ∧ s.atRxMode = .stuffed
  | .hdlcTxBuf => (∃ b, i = .dte b) ∧ s.atRxMode = .hdlc
  | .qData => (∃ ok, i = .hdlcRx ok) ∨ i = .hdlcEvFramingOk ∨ i = .hdlcEvCarrierDown ∨ i = .qWrite
  | .constants => False

theorem writer_of_mem_ownedWrites {i : Instr} {s : State} {r : OwnedReg} (h : r ∈ ownedWrites s i) :
    r.Writer i s := by
  cases i with
  | release | setToi | setTep | callevAnswer | frh | fth | frm | ftm | hdlcRx | hdlcEvFramingOk | hdlcEvCarrierDown
  | qWrite =>
    rw [ownedWrites, List.mem_singleton] at h
    subst h
    simp [OwnedReg.Writer]
  | rxs q =>
    simp only [ownedWrites, List.mem_cons, List.not_mem_nil, or_false] at h
    rcases h with rfl | rfl <;> simp [OwnedReg.Writer]
  | dte b =>
    rw [ownedWrites] at h
    cases hmode : s.atRxMode with
    | onhookCommand | offhookCommand | delivery => rw [hmode] at h; cases h
    | hdlc | stuffed =>
      simp only [hmode, dteWrites, List.mem_cons, List.not_mem_nil, or_false] at h
      rcases h with rfl | rfl <;> simp [OwnedReg.Writer, hmode]
  | _ => cases h

/-- A register that has moved was written by one of its writers. -/
theorem exec_writer {i : Instr} {s t : State} (h : exec i s = .next t) (hi : i ≠ .init) {r : OwnedReg}
    (hmoved : r.part t ≠ r.part s) : r.Writer i s :=
  writer_of_mem_ownedWrites (by_contra fun hr => hmoved (exec_keeps h hi r hr))

/-- Settles O57: each clause is `exec_writer` for the field of its register, and the last ones, which no operation
writes, follow since `constants` has no writer. -/
theorem registersHaveTheirOwnWriters : Obligations.RegistersHaveTheirOwnWriters := by
  intro i s t h hi
  have hwriter {α : Type} (r : OwnedReg) (field : State → α) (hne : field (r.part t) ≠ field (r.part s)) :
      r.Writer i s := exec_writer h hi fun e => hne (congrArg field e)
  have hconst {α : Type} (field : State → α) :
      field (OwnedReg.part t .constants) = field (OwnedReg.part s .constants) :=
    by_contra (hwriter .constants field)
  refine ⟨fun hne => ?_, hwriter .samples State.samples, hwriter .callSamples State.callSamples,
    hwriter .session State.session, hwriter .transmitOnIdle State.transmitOnIdle, hwriter .useTep State.useTep,
    hwriter .dled State.dled, hwriter .txData State.txData, hwriter .hdlcTxBuf State.hdlcTxBuf,
    hwriter .qData State.qData, hconst State.t38Mode, hconst State.adaptiveReceive, hconst State.s7,
    hconst State.params, hconst State.hdlcRxBuf, hconst State.hdlcRxLen, hconst State.missingData,
    hconst State.hdlcTxPtr⟩
  rcases hne with hrate | hshort
  · exact hwriter .rates State.bitRate hrate
  · exact hwriter .rates State.shortTrain hshort

end Sys2Proof.Machine

/-! ## Encoding: the decoder and the encoder are inverse, and the words that spell no operation

The statements of 30_encoding.md. `Reading` says once, for each class, what the decoder answers for the word of three
fields: an operation whose word it is, or an error where the list of reserved words has the fields. -/

namespace Sys2Proof.Machine

/-! ### The fields of a word (30 R90) -/

@[simp] theorem fieldCls_packWord (cls sub : BitVec 4) (arg : Byte) : fieldCls (packWord cls sub arg) = cls :=
  (BitVec.extractLsb'_append_eq_of_le (by decide)).trans BitVec.extractLsb'_append_eq_left

@[simp] theorem fieldSub_packWord (cls sub : BitVec 4) (arg : Byte) : fieldSub (packWord cls sub arg) = sub :=
  (BitVec.extractLsb'_append_eq_of_le (by decide)).trans BitVec.extractLsb'_append_eq_right

@[simp] theorem fieldArg_packWord (cls sub : BitVec 4) (arg : Byte) : fieldArg (packWord cls sub arg) = arg :=
  BitVec.extractLsb'_append_eq_right

/-- No bit of a word lies outside its fields. -/
theorem packWord_fields (w : CmdWord) : packWord (fieldCls w) (fieldSub w) (fieldArg w) = w := by
  have hhigh : fieldCls w ++ fieldSub w = w.extractLsb' 8 (4 + 4) :=
    BitVec.extractLsb'_append_extractLsb'_eq_extractLsb' rfl
  have hall : w.extractLsb' 8 (4 + 4) ++ fieldArg w = w.extractLsb' 0 (4 + 4 + 8) :=
    BitVec.extractLsb'_append_extractLsb'_eq_extractLsb' rfl
  calc packWord (fieldCls w) (fieldSub w) (fieldArg w)
      = w.extractLsb' 8 (4 + 4) ++ fieldArg w := by rw [packWord, hhigh]
    _ = w := hall.trans BitVec.extractLsb'_eq_self

theorem ofNat_eq_packWord {cls sub arg : Nat} (hsub : sub < 16) (harg : arg < 256) :
    BitVec.ofNat 16 (cls * 4096 + sub * 256 + arg) =
      packWord (BitVec.ofNat 4 cls) (BitVec.ofNat 4 sub) (BitVec.ofNat 8 arg) := by
  rw [← packWord_fields (BitVec.ofNat 16 _)]
  congr 1 <;> apply BitVec.eq_of_toNat_eq <;>
    simp only [fieldCls, fieldSub, fieldArg, BitVec.extractLsb'_toNat, BitVec.toNat_ofNat,
      Nat.shiftRight_eq_div_pow] <;> omega

theorem eq_ofNat_of_toNat_eq {n k : Nat} {x : BitVec n} (h : x.toNat = k) : x = BitVec.ofNat n k := by
  rw [← h, BitVec.ofNat_toNat, BitVec.setWidth_eq]

/-! ### The decoder, by the class of the word (30 R91) -/

section
variable (sub : BitVec 4) (arg : Byte)

theorem decode_sys : decode (packWord 0 sub arg) = decodeSys sub arg := by simp [decode]
theorem decode_restart : decode (packWord 1 sub arg) = decodeRestart sub arg := by simp [decode]
theorem decode_class1 : decode (packWord 2 sub arg) = decodeClass1 sub arg := by simp [decode]
theorem decode_dte : decode (packWord 3 0 arg) = .ok (.dte arg) := by simp [decode, decodeNoSub]
theorem decode_getBit : decode (packWord 4 0 arg) = decodeNoArg arg .getBit := by simp [decode, decodeNoSub]
theorem decode_putBit : decode (packWord 5 0 arg) = .ok (decodePutBit arg) := by simp [decode, decodeNoSub]
theorem decode_hdlcRx : decode (packWord 6 sub arg) = decodeHdlcRx sub arg := by simp [decode]
theorem decode_hdlcTxu : decode (packWord 7 0 arg) = decodeNoArg arg .hdlcTxu := by simp [decode, decodeNoSub]
theorem decode_line : decode (packWord 8 sub arg) = decodeLine sub arg := by simp [decode]
theorem decode_queue : decode (packWord 9 sub arg) = decodeQueue sub arg := by simp [decode]

end

/-! ### The operands -/

theorem decodeFlag_flagArg (b : Bool) (i : Bool → Instr) : decodeFlag (flagArg b) i = .ok (i b) := by
  cases b <;> rfl

theorem decodePutBit_flagArg (b : Bool) : decodePutBit (flagArg b) = .putBit b := by
  cases b <;> rfl

theorem decodePutBit_of_not_named {v : Byte} (h : (Instr.putBitOther v).wellFormed = true) :
    decodePutBit v = .putBitOther v := by
  simp only [Instr.wellFormed, putBitNamed, Bool.not_eq_true', Bool.or_eq_false_iff, beq_eq_false_iff_ne] at h
  simp only [decodePutBit, h, if_false]

theorem decodeHdlcEv_of_not_named {v : Byte} (h : (Instr.hdlcEvOther v).wellFormed = true) :
    decodeHdlcEv v = .hdlcEvOther v := by
  simp only [Instr.wellFormed, hdlcEvNamed, Bool.not_eq_true', Bool.or_eq_false_iff, beq_eq_false_iff_ne] at h
  simp only [decodeHdlcEv, h, if_false]

theorem wellFormed_decodePutBit (arg : Byte) : (decodePutBit arg).wellFormed = true := by
  unfold decodePutBit
  split_ifs <;> simp_all [Instr.wellFormed, putBitNamed]

theorem encode_decodePutBit (arg : Byte) : encode (decodePutBit arg) = packWord 5 0 arg := by
  unfold decodePutBit
  split_ifs <;> subst_vars <;> rfl

theorem wellFormed_decodeHdlcEv (arg : Byte) : (decodeHdlcEv arg).wellFormed = true := by
  unfold decodeHdlcEv
  split_ifs <;> simp_all [Instr.wellFormed, hdlcEvNamed]

theorem encode_decodeHdlcEv (arg : Byte) : encode (decodeHdlcEv arg) = packWord 6 1 arg := by
  unfold decodeHdlcEv
  split_ifs <;> subst_vars <;> rfl

/-! ### The modes of RESTART (30 R92) -/

theorem encode_restartInstr (m : Mode) : encode (restartInstr m) = packWord 1 m.code 0 := by
  cases m <;> rfl

theorem wellFormed_restartInstr (m : Mode) : (restartInstr m).wellFormed = true := by
  cases m <;> rfl

theorem decodeRestart_code (m : Mode) (arg : Byte) :
    decodeRestart m.code arg = decodeNoArg arg (restartInstr m) := by
  cases m <;> rfl

theorem code_lt_fourteen (m : Mode) : m.code.toNat < 14 := by
  cases m <;> decide

/-- The modes take all values of `sub` but two. -/
theorem eq_code_or_reserved (sub : BitVec 4) : (∃ m : Mode, sub = m.code) ∨ sub = 14 ∨ sub = 15 := by
  have hmodes : ∀ x : BitVec 4, x ∈ [Mode.flush, .silenceTx, .silenceRx, .ced, .cng, .nocng, .v21Tx, .v17Tx,
      .v27terTx, .v29Tx, .v21Rx, .v17Rx, .v27terRx, .v29Rx].map Mode.code ∨ x = 14 ∨ x = 15 := by decide
  refine (hmodes sub).imp_left fun h => ?_
  obtain ⟨m, _, hm⟩ := List.mem_map.mp h
  exact ⟨m, hm.symm⟩

/-! ### What the decoder answers for the word of three fields -/

/-- An answer `r` of the decoder is right for the word of the fields `cls`, `sub` and `arg`: an operation whose word
it is, where the fields are not reserved, and an error where they are (30 R102, R104). -/
inductive Reading (cls sub : BitVec 4) (arg : Byte) : Except DecodeError Instr → Prop where
  | spells {i : Instr} (wellFormed : i.wellFormed = true) (word : encode i = packWord cls sub arg)
      (assigned : ¬ ReservedWord cls.toNat sub.toNat arg.toNat) : Reading cls sub arg (.ok i)
  | reserved {e : DecodeError} (reserved : ReservedWord cls.toNat sub.toNat arg.toNat) :
      Reading cls sub arg (.error e)

section
variable {cls sub : BitVec 4} {arg : Byte}

theorem Reading.error_iff {r : Except DecodeError Instr} (h : Reading cls sub arg r) :
    (∃ e, r = .error e) ↔ ReservedWord cls.toNat sub.toNat arg.toNat := by
  cases h with
  | spells _ _ assigned => simp [assigned]
  | reserved hres => simp [hres]

theorem Reading.noArg {i : Instr} (hwf : i.wellFormed = true) (hword : encode i = packWord cls sub 0)
    (hres : ReservedWord cls.toNat sub.toNat arg.toNat ↔ arg.toNat ≠ 0) :
    Reading cls sub arg (decodeNoArg arg i) := by
  unfold decodeNoArg
  split
  next h => subst h; exact .spells hwf hword fun h => hres.mp h rfl
  next h => exact .reserved (hres.mpr fun hzero => h (eq_ofNat_of_toNat_eq hzero))

theorem Reading.flag {i : Bool → Instr} (hwf : ∀ b, (i b).wellFormed = true)
    (hword : ∀ b, encode (i b) = packWord cls sub (flagArg b))
    (hres : ReservedWord cls.toNat sub.toNat arg.toNat ↔ 2 ≤ arg.toNat) :
    Reading cls sub arg (decodeFlag arg i) := by
  unfold decodeFlag
  split_ifs with hzero hone
  · subst hzero; exact .spells (hwf _) (hword false) (hres.not.mpr (by decide))
  · subst hone; exact .spells (hwf _) (hword true) (hres.not.mpr (by decide))
  · exact .reserved (hres.mpr (by rw [BitVec.toNat_eq] at hzero hone; simp at hzero hone; omega))

theorem Reading.noSub {r : Except DecodeError Instr} (hr : Reading cls 0 arg r)
    (hres : sub.toNat ≠ 0 → ReservedWord cls.toNat sub.toNat arg.toNat) :
    Reading cls sub arg (decodeNoSub sub r) := by
  unfold decodeNoSub
  split
  next h => subst h; exact hr
  next h => exact .reserved (hres fun hzero => h (eq_ofNat_of_toNat_eq hzero))

end

section
variable (sub : BitVec 4) (arg : Byte)

theorem reading_decodeSys : Reading 0 sub arg (decodeSys sub arg) := by
  unfold decodeSys
  split
  case h_1 h | h_2 h =>
    obtain rfl := eq_ofNat_of_toNat_eq h
    exact .noArg rfl rfl (by simp [ReservedWord])
  case h_3 h | h_4 h | h_6 h =>
    obtain rfl := eq_ofNat_of_toNat_eq h
    exact .flag (fun _ => rfl) (fun _ => rfl) (by simp [ReservedWord])
  case h_5 h =>
    obtain rfl := eq_ofNat_of_toNat_eq h
    split_ifs with h0 h1 h2
    · subst h0; exact .spells rfl rfl (by simp [ReservedWord])
    · subst h1; exact .spells rfl rfl (by simp [ReservedWord])
    · subst h2; exact .spells rfl rfl (by simp [ReservedWord])
    · rw [BitVec.toNat_eq] at h0 h1 h2
      exact .reserved (by simp [ReservedWord] at *; omega)
  case h_7 h =>
    obtain rfl := eq_ofNat_of_toNat_eq h
    exact .spells rfl rfl (by simp [ReservedWord])
  case h_8 =>
    simp only [imp_false] at *
    exact .reserved (by simp [ReservedWord]; omega)

theorem reading_decodeRestart : Reading 1 sub arg (decodeRestart sub arg) := by
  rcases eq_code_or_reserved sub with ⟨m, rfl⟩ | rfl | rfl
  · rw [decodeRestart_code]
    have hm := code_lt_fourteen m
    exact .noArg (wellFormed_restartInstr m) (encode_restartInstr m) (by simp [ReservedWord]; omega)
  · exact .reserved (by simp [ReservedWord])
  · exact .reserved (by simp [ReservedWord])

theorem reading_decodeClass1 : Reading 2 sub arg (decodeClass1 sub arg) := by
  unfold decodeClass1
  split
  case h_1 h | h_2 h | h_3 h | h_4 h | h_5 h | h_6 h =>
    obtain rfl := eq_ofNat_of_toNat_eq h
    exact .spells rfl rfl (by simp [ReservedWord])
  case h_7 =>
    simp only [imp_false] at *
    exact .reserved (by simp [ReservedWord]; omega)

theorem reading_decodeHdlcRx : Reading 6 sub arg (decodeHdlcRx sub arg) := by
  unfold decodeHdlcRx
  split
  case h_1 h =>
    obtain rfl := eq_ofNat_of_toNat_eq h
    exact .flag (fun _ => rfl) (fun _ => rfl) (by simp [ReservedWord])
  case h_2 h =>
    obtain rfl := eq_ofNat_of_toNat_eq h
    exact .spells (wellFormed_decodeHdlcEv arg) (encode_decodeHdlcEv arg) (by simp [ReservedWord])
  case h_3 =>
    simp only [imp_false] at *
    exact .reserved (by simp [ReservedWord]; omega)

theorem reading_decodeLine : Reading 8 sub arg (decodeLine sub arg) := by
  unfold decodeLine
  split
  case h_1 h =>
    obtain rfl := eq_ofNat_of_toNat_eq h
    exact .flag (fun _ => rfl) (fun _ => rfl) (by simp [ReservedWord])
  case h_2 h =>
    obtain rfl := eq_ofNat_of_toNat_eq h
    exact .spells rfl rfl (by simp [ReservedWord])
  case h_3 =>
    simp only [imp_false] at *
    exact .reserved (by simp [ReservedWord]; omega)

theorem reading_decodeQueue : Reading 9 sub arg (decodeQueue sub arg) := by
  unfold decodeQueue
  split
  case h_1 h | h_2 h | h_3 h =>
    obtain rfl := eq_ofNat_of_toNat_eq h
    exact .noArg rfl rfl (by simp [ReservedWord])
  case h_4 =>
    simp only [imp_false] at *
    exact .reserved (by simp [ReservedWord]; omega)

end

/-- The answer of the decoder is right for every word, class by class. -/
theorem reading_decode (w : CmdWord) : Reading (fieldCls w) (fieldSub w) (fieldArg w) (decode w) := by
  unfold decode
  generalize fieldCls w = cls, fieldSub w = sub, fieldArg w = arg
  split
  case h_11 =>
    simp only [imp_false] at *
    exact .reserved (.inl (by omega))
  all_goals
    rename_i h
    obtain rfl := eq_ofNat_of_toNat_eq h
  case h_1 => exact reading_decodeSys sub arg
  case h_2 => exact reading_decodeRestart sub arg
  case h_3 => exact reading_decodeClass1 sub arg
  case h_4 => exact .noSub (.spells rfl rfl (by simp [ReservedWord])) (by simp [ReservedWord])
  case h_5 | h_8 => exact .noSub (.noArg rfl rfl (by simp [ReservedWord])) (by simp +contextual [ReservedWord])
  case h_6 =>
    exact .noSub (.spells (wellFormed_decodePutBit arg) (encode_decodePutBit arg) (by simp [ReservedWord]))
      (by simp [ReservedWord])
  case h_7 => exact reading_decodeHdlcRx sub arg
  case h_9 => exact reading_decodeLine sub arg
  case h_10 => exact reading_decodeQueue sub arg

/-! ### The statements -/

/-- Settles O1, by cases on the operation, class by class: the decoder finds the class and reads the operand back. -/
theorem decodeOfEncode : Obligations.DecodeOfEncode := by
  intro i hwf
  cases i with
  | init | release | callevRing | callevAnswer | callevHangup | t38Tick => exact decode_sys _ _
  | setToi b | setTep b | setT38 b => exact (decode_sys _ _).trans (decodeFlag_flagArg b _)
  | restartFlush | restartSilenceTx | restartSilenceRx | restartCed | restartCng | restartNocng
  | restartV21Tx | restartV17Tx | restartV27terTx | restartV29Tx
  | restartV21Rx | restartV17Rx | restartV27terRx | restartV29Rx =>
    exact decode_restart _ 0
  | frs | fts | frh | fth | frm | ftm => exact decode_class1 _ _
  | dte b => exact decode_dte b
  | getBit => exact decode_getBit 0
  | putBit bit => exact (decode_putBit _).trans (congrArg Except.ok (decodePutBit_flagArg bit))
  | putBitCarrierDown | putBitCarrierUp | putBitTrainingInProgress | putBitTrainingSucceeded
  | putBitTrainingFailed => exact decode_putBit _
  | putBitOther v => exact (decode_putBit v).trans (congrArg Except.ok (decodePutBit_of_not_named hwf))
  | hdlcRx ok => exact (decode_hdlcRx 0 _).trans (decodeFlag_flagArg ok _)
  | hdlcEvFramingOk | hdlcEvCarrierDown | hdlcEvCarrierUp => exact decode_hdlcRx 1 _
  | hdlcEvOther v => exact (decode_hdlcRx 1 v).trans (congrArg Except.ok (decodeHdlcEv_of_not_named hwf))
  | hdlcTxu => exact decode_hdlcTxu 0
  | rxs quiet => exact (decode_line 0 _).trans (decodeFlag_flagArg quiet _)
  | txs n => exact decode_line 1 n
  | qWrite | qRead | qFlush => exact decode_queue _ 0

/-- Settles O2: the reading of the word names the operation whose word has these fields, and a word is its fields. -/
theorem encodeOfDecode : Obligations.EncodeOfDecode := by
  intro w i hdecode
  have hreading := reading_decode w
  rw [hdecode] at hreading
  cases hreading with
  | spells wellFormed word _ => exact ⟨wellFormed, word.trans (packWord_fields w)⟩

/-- Settles O3: the reading of the word with these fields is an error where they are reserved. -/
theorem decodeRefusesExactlyReservedWords : Obligations.DecodeRefusesExactlyReservedWords := by
  intro cls sub arg hcls hsub harg
  have hiff := (reading_decode (BitVec.ofNat 16 (cls * 4096 + sub * 256 + arg))).error_iff
  rw [ofNat_eq_packWord hsub harg] at hiff ⊢
  simpa [Nat.mod_eq_of_lt hcls, Nat.mod_eq_of_lt hsub, Nat.mod_eq_of_lt harg] using hiff

/-- The numbers of 30 R92, with the sentinel NONE. -/
theorem modemCode_mem_modeNumbers (m : Option Mode) : (m, (modemCode m).toNat) ∈ modeNumbers := by
  rcases m with _ | m
  · decide
  · cases m <;> decide

theorem rxHandler_code_mem (x : RxHandler) : (x, x.code.toNat) ∈ rxTagNumbers := by
  cases x <;> decide

theorem txHandler_code_mem (x : TxHandler) : (x, x.code.toNat) ∈ txTagNumbers := by
  cases x <;> decide

theorem bitRate_code_mem (x : BitRate) : (x, x.code.toNat) ∈ rateNumbers := by
  cases x <;> decide

theorem respCode_byte_mem (x : RespCode) : (x, x.byte.toNat) ∈ respNumbers := by
  cases x <;> decide

theorem ctrlItem_code_mem (x : CtrlItem) : (x, x.code) ∈ ctrlNumbers := by
  rcases x with (_ | _) | _ <;> decide

theorem errorKind_code_mem (x : ErrorKind) : (x, x.code) ∈ errorNumbers := by
  cases x <;> decide

/-- The word of RESTART m (30 R92). -/
theorem toNat_encode_restartInstr (m : Mode) :
    (encode (restartInstr m)).toNat = 0x1000 + 0x100 * m.code.toNat := by
  cases m <;> decide

/-- Settles O4: each word is the one its operation is encoded by, so O1 decodes it; the codes are compared with
their table one by one. -/
theorem wordsOfTheTableDecode : Obligations.WordsOfTheTableDecode :=
  ⟨decodeOfEncode .callevHangup rfl, decodeOfEncode .restartV27terRx rfl, decodeOfEncode (.fts 80) rfl,
    decodeOfEncode (.fth 3) rfl, decodeOfEncode (.frm 96) rfl, decodeOfEncode (.dte 0xA5) rfl,
    decodeOfEncode (.putBit true) rfl, decodeOfEncode .putBitTrainingSucceeded rfl,
    decodeOfEncode (.hdlcRx true) rfl, decodeOfEncode .hdlcEvFramingOk rfl, decodeOfEncode (.rxs true) rfl,
    decodeOfEncode (.txs 160) rfl, decodeOfEncode .qRead rfl,
    fun m => ⟨modemCode_mem_modeNumbers (some m), toNat_encode_restartInstr m⟩,
    fun s => ⟨_, _, _, _, _, rfl, modemCode_mem_modeNumbers s.modem, rxHandler_code_mem s.rxHandler,
      txHandler_code_mem s.txHandler, txHandler_code_mem s.nextTxHandler, bitRate_code_mem s.cfg.fastBitRate⟩,
    respCode_byte_mem, ctrlItem_code_mem, errorKind_code_mem⟩

end Sys2Proof.Machine

/-! ## Modem mode: RESTART and the transitions of `modem`

The statements of 40_modem_mode_fsm.md. Every RESTART operation is `restartOperation` of its mode, and what the
sub-step does is `restart_spec`. For the table of 40 R141 each operation gets one lemma: that it keeps `modem`, or
from which modes and to which mode it moves it. -/

namespace Sys2Proof.Machine

/-! ### The RESTART operations -/

theorem exec_restartInstr (m : Mode) (s : State) : exec (restartInstr m) s = restartOperation m s := by
  cases m <;> rfl

/-- A legal RESTART in a live state runs the sub-step (40 R120). -/
theorem exec_restartInstr_legal {s : State} {m : Mode} (hlive : s.live = true)
    (hpair : pairAllowed m s.bitRate s.shortTrain) :
    exec (restartInstr m) s = .next ((s.restart m).returns (.value 0)) := by
  rw [exec_restartInstr, restartOperation, operation_live _ hlive, if_pos ((legalPair_iff _ _ _).mpr hpair)]

/-- An illegal RESTART is refused, in a live state by its pair and in any other by the state (40 R143, R142). -/
theorem exec_restartInstr_illegal {s : State} {m : Mode} (hpair : ¬ pairAllowed m s.bitRate s.shortTrain) :
    exec (restartInstr m) s = .next s.refuse := by
  rw [exec_restartInstr, restartOperation]
  cases hlive : s.live with
  | true => rw [operation_live _ hlive, if_neg (mt (legalPair_iff _ _ _).mp hpair)]
  | false => exact operation_dead _ hlive

/-- A RESTART that answers 0 was not refused. -/
theorem restart_of_exec_restartInstr {s t : State} {m : Mode} (h : exec (restartInstr m) s = .next t)
    (hret : t.ret = .value 0) :
    s.live = true ∧ pairAllowed m s.bitRate s.shortTrain ∧ t = (s.restart m).returns (.value 0) := by
  by_cases hpair : pairAllowed m s.bitRate s.shortTrain
  · cases hlive : s.live with
    | true => rw [exec_restartInstr_legal hlive hpair] at h; cases h; exact ⟨rfl, hpair, rfl⟩
    | false =>
      rw [exec_restartInstr, restartOperation, operation_dead _ hlive] at h
      cases h; cases hret
  · rw [exec_restartInstr_illegal hpair] at h
    cases h; cases hret

/-- From another mode the prologue and the row of the mode are run (40 R120 to R135). -/
theorem exec_restartInstr_other {s : State} {m : Mode} (hlive : s.live = true)
    (hpair : pairAllowed m s.bitRate s.shortTrain) (hother : s.modem ≠ some m) :
    ∃ c d, CfgOf m s.bitRate s.shortTrain c ∧
      exec (restartInstr m) s = .next { afterRestart m s c d with ret := .value 0 } := by
  rw [exec_restartInstr_legal hlive hpair]
  rcases restart_spec m s with ⟨hactive, _⟩ | ⟨_, c, d, hcfg, hafter⟩
  · exact absurd hactive hother
  · exact ⟨c, d, hcfg, by rw [hafter]; rfl⟩

theorem Restarted.modem {m : Mode} {s t : State} (h : Restarted m s t) : t.modem = some m := by
  rcases h with ⟨hactive, rfl⟩ | ⟨_, c, d, _, rfl⟩
  · exact hactive
  · rfl

@[simp] theorem restart_modem (s : State) (m : Mode) : (s.restart m).modem = some m := (restart_spec m s).modem

/-- RESTART moves neither the session nor the rates (40 R120). -/
theorem live_restart (s : State) (m : Mode) : (s.restart m).live = s.live := by
  have hframe := frame_restart m s
  rw [State.live, State.live, hframe.session, hframe.t38Mode]

theorem legalPair_of_mem_class1Rows : ∀ row ∈ class1Rows,
    legalPair row.2.1 row.2.2.2.1 row.2.2.2.2 = true ∧ legalPair row.2.2.1 row.2.2.2.1 row.2.2.2.2 = true := by
  decide

/-! ### The statements about RESTART -/

/-- Settles O13: for a mode without a fast modem. -/
theorem restartWiresModesWithoutAFastModem : Obligations.RestartWiresModesWithoutAFastModem :=
  fun _ _ hlive _ hpair hother => exec_restartInstr_other hlive hpair hother

/-- Settles O14: the same wiring lemma, for a fast mode. -/
theorem restartWiresFastModes : Obligations.RestartWiresFastModes :=
  fun _ _ hlive _ hpair hother => exec_restartInstr_other hlive hpair hother

/-- Settles O15: the sub-step of the active mode leaves the state, and RET carries 0. -/
theorem restartOfTheActiveModeIsIdle : Obligations.RestartOfTheActiveModeIsIdle := by
  intro s m hlive hpair hactive
  rw [exec_restartInstr_legal hlive hpair, State.restart, if_pos hactive]
  rfl

/-- Settles O16: the refusal leaves the state, and the twelve rows are compared with the legal pairs. -/
theorem restartNeedsALegalPair : Obligations.RestartNeedsALegalPair := by
  refine ⟨fun s m hpair => exec_restartInstr_illegal hpair, fun row hrow => ?_⟩
  obtain ⟨htx, hrx⟩ := legalPair_of_mem_class1Rows row hrow
  exact ⟨(legalPair_iff _ _ _).mp htx, (legalPair_iff _ _ _).mp hrx⟩

/-- Settles O17: what the first RESTART leaves is live, in the mode and at the same legal pair, so O15 speaks of the
second. -/
theorem restartTwiceIsRestartOnce : Obligations.RestartTwiceIsRestartOnce := by
  intro s t m h hret
  obtain ⟨hlive, hpair, rfl⟩ := restart_of_exec_restartInstr h hret
  have hframe := frame_restart m s
  have hlive' : ((s.restart m).returns (.value 0)).live = true := (live_restart s m).trans hlive
  have hpair' : pairAllowed m ((s.restart m).returns (.value 0)).bitRate
      ((s.restart m).returns (.value 0)).shortTrain := by
    rw [State.returns_bitRate, State.returns_shortTrain, hframe.bitRate, hframe.shortTrain]
    exact hpair
  exact ⟨restart_modem s m, restartOfTheActiveModeIsIdle _ m hlive' hpair' (restart_modem s m)⟩

/-! ### The shared operations that keep `modem` -/

theorem enqueue_modem (s : State) (rec : List Byte) : (s.enqueue rec).modem = s.modem := by
  unfold State.enqueue State.queueWrite
  by_cases hfit : rec.length + 2 ≤ s.queueFree <;> simp [hfit]

theorem queueWrite_modem {s t : State} {rec : List Byte} (h : s.queueWrite rec = some t) : t.modem = s.modem := by
  unfold State.queueWrite at h
  split at h <;> cases h
  rfl

theorem queueRead_modem {s t : State} {rec : List Byte} (h : s.queueRead = some (rec, t)) : t.modem = s.modem := by
  unfold State.queueRead at h
  split at h <;> cases h
  rfl

theorem connect_modem (connected : Bool) (s : State) :
    (if connected then s else s.emitResp .connect).modem = s.modem := by
  cases connected <;> rfl

theorem finishRx_modem (s : State) : s.finishRx.modem = s.modem := rfl

theorem deliverRecord_modem (s : State) (connected : Bool) (code : Byte) (frame : List Byte) :
    (s.deliverRecord connected code frame).modem = s.modem := by
  have hconnect := connect_modem connected s
  have hframe (u : State) : ((u.emitStuffed frame).emitEndOfData.emit [.resp code]).modem = u.modem := rfl
  exact (finishRx_modem _).trans ((hframe _).trans hconnect)

theorem drainQueue_modem (fuel : Nat) (connected : Bool) (s : State) :
    (State.drainQueue fuel connected s).modem = s.modem := by
  induction fuel generalizing connected s with
  | zero => rfl
  | succ fuel ih =>
    rw [State.drainQueue]
    split
    · rfl
    next rec u hread =>
      refine Eq.trans ?_ (queueRead_modem hread)
      simp only []
      split
      · split
        · exact (ih _ _).trans (connect_modem connected u)
        · rfl
      · exact deliverRecord_modem u connected _ _

theorem hdlcAppend_modem (s : State) (x : Byte) : (s.hdlcAppend x).modem = s.modem := by
  unfold State.hdlcAppend
  split <;> rfl

theorem hdlcByte_modem {s t : State} {b : Byte} (h : s.hdlcByte b = .next t) : t.modem = s.modem := by
  unfold State.hdlcByte at h
  simp only [] at h
  split at h
  · split at h
    · split at h <;> cases h
      rfl
    · split at h <;> cases h
      · exact (hdlcAppend_modem _ _).trans (hdlcAppend_modem _ _)
      · exact hdlcAppend_modem _ _
  · split at h <;> cases h
    · rfl
    · exact hdlcAppend_modem _ _

theorem stuffedByte_modem (s : State) (b : Byte) : (s.stuffedByte b).modem = s.modem := by
  have hstore (u : State) (x : Byte) : (u.stuffedStore x).modem = u.modem := by
    unfold State.stuffedStore
    split <;> rfl
  have hhigh (u : State) : u.checkHighWater.modem = u.modem := by rw [checkHighWater_eq]
  unfold State.stuffedByte
  refine (hhigh _).trans ?_
  split
  · simp only []
    split
    · rfl
    · split
      · exact (hstore _ _).trans (hstore _ _)
      · exact hstore _ _
  · split
    · rfl
    · exact hstore _ _

theorem loadTxByte_modem (s : State) : s.loadTxByte.modem = s.modem := by rw [loadTxByte_eq]

theorem putDataBit_modem (s : State) (bit : Bool) : (s.putDataBit bit).modem = s.modem := by
  unfold State.putDataBit
  simp only []
  split <;> rfl

theorem acceptFrame_modem (s : State) (msg : List Byte) (ok : Bool) : (s.acceptFrame msg ok).modem = s.modem := by
  have hdirect (u : State) : (u.deliverDirect msg ok).modem = u.modem := by
    have hframe : (u.emitStuffed msg).emitEndOfData.modem = u.modem := rfl
    unfold State.deliverDirect
    simp only []
    generalize (u.emitStuffed msg).emitEndOfData = v at hframe ⊢
    split <;> exact hframe
  unfold State.acceptFrame
  split
  · rfl
  · split
    · refine (hdirect _).trans ?_
      split <;> rfl
    · exact enqueue_modem s _

theorem v21Preamble_modem (s : State) : s.v21Preamble.modem = s.modem := by
  unfold State.v21Preamble
  simp only []
  split
  · rfl
  · split
    · rfl
    · exact enqueue_modem _ _

theorem v21CarrierDown_modem (s : State) : s.v21CarrierDown.modem = s.modem := by
  unfold State.v21CarrierDown
  simp only []
  split
  · rfl
  · split
    · simp only []
      split
      · rfl
      · exact enqueue_modem s _
    · rfl

theorem produce_modem (s : State) (h : TxHandler) (k : Nat) : (s.produce h k).2.modem = s.modem := by
  rw [(produce_spec s h k).2]

/-! ### The shared operations that move `modem` -/

/-- The modes FRAMING_OK ends a fast receive in (44 R244). -/
theorem isFastRx_iff (m : Option Mode) : (m.map Mode.isFastRx).getD false = true ↔
    m = some .v17Rx ∨ m = some .v27terRx ∨ m = some .v29Rx := by
  rcases m with _ | m
  · simp
  · cases m <;> simp [Mode.isFastRx]

theorem inCng_iff (s : State) : s.inCng = true ↔ s.modem = some .cng ∨ s.modem = some .nocng := by
  simp [State.inCng]

theorem carrierError_modem (s : State) :
    s.carrierError.modem = if s.adaptiveReceive then some .v21Rx else some .silenceTx := by
  cases hadaptive : s.adaptiveReceive <;> simp [State.carrierError, State.emitResp, hadaptive]

/-- The CNG drop goes to V21_RX, where a preamble is only noted (40 R140). -/
theorem framingOk_modem_of_inCng {s : State} (hcng : s.inCng = true) : s.framingOk.modem = some .v21Rx := by
  unfold State.framingOk
  simp only [hcng, if_true]
  exact v21Preamble_modem s.cngDrop

/-- A carrier error ends a fast receive; in the other modes a preamble moves nothing (40 R139). -/
theorem framingOk_modem_of_not_inCng {s : State} (hcng : s.inCng = false) (hne : s.framingOk.modem ≠ s.modem) :
    (s.modem = some .v17Rx ∨ s.modem = some .v27terRx ∨ s.modem = some .v29Rx) ∧ s.rxHandler.isEarly = true ∧
      s.framingOk.modem = if s.adaptiveReceive then some .v21Rx else some .silenceTx := by
  unfold State.framingOk at hne ⊢
  simp only [hcng, Bool.false_eq_true, if_false] at hne ⊢
  split at hne
  next hfast =>
    rw [if_pos hfast]
    rw [Bool.and_eq_true, isFastRx_iff] at hfast
    obtain ⟨hmode, hearly⟩ := hfast
    exact ⟨hmode, hearly, carrierError_modem s⟩
  next =>
    split at hne
    · exact absurd (v21Preamble_modem s) hne
    · exact absurd rfl hne

/-- Where the DTE deadline is past the mode is SILENCE_TX afterwards; elsewhere nothing happens (60 R291). -/
theorem checkDteTimeout_modem (s : State) :
    ((s.dteDataTimeout ≠ 0 ∧ s.dteDataTimeout < s.callSamples) ∧ s.checkDteTimeout.modem = some .silenceTx) ∨
      s.checkDteTimeout = s := by
  have hspec := checkDteTimeout_spec s
  split at hspec
  next hdue => exact .inl ⟨hdue, hspec.modem⟩
  next => exact .inr hspec

/-- Where the S7 deadline of a CNG mode is past the mode is SILENCE_TX afterwards; elsewhere nothing happens
(60 R292). -/
theorem checkNoCarrier_modem (s : State) :
    (((s.modem = some .cng ∨ s.modem = some .nocng) ∧ s.s7.toNat * 8000 < s.callSamples) ∧
        s.checkNoCarrier.modem = some .silenceTx) ∨
      s.checkNoCarrier = s := by
  have hspec := checkNoCarrier_spec s
  split at hspec
  next hdue =>
    obtain ⟨r, hrestart, heq⟩ := hspec
    exact .inl ⟨hdue, by rw [heq]; exact hrestart.modem⟩
  next => exact .inr hspec

/-- Where the transmit completion takes `modem` (45 R279). -/
def CompletionMoves (before after : Option Mode) : Prop :=
  (before = some .silenceTx ∧ after = none) ∨ (before = some .ced ∧ after = some .v21Tx) ∨
    ((before = some .v21Tx ∨ before = some .v17Tx ∨ before = some .v27terTx ∨ before = some .v29Tx) ∧
      after = some .silenceTx)

theorem Completed.modem {s t : State} (h : Completed s t) : CompletionMoves s.modem t.modem ∨ t.modem = s.modem := by
  rcases h with ⟨hmode, c, d, rfl⟩ | ⟨hmode, c, d, r, hrestart, rfl⟩ | ⟨hmode, c, d, hrestart⟩ | ⟨_, rfl⟩
  · exact .inl (.inl ⟨hmode, rfl⟩)
  · exact .inl (.inr (.inl ⟨hmode, hrestart.modem⟩))
  · exact .inl (.inr (.inr ⟨hmode, hrestart.modem⟩))
  · exact .inr rfl

/-- Only the completion at the end of a pull can move `modem` (45 R278). -/
theorem pullSamples_modem (s : State) (n : Nat) :
    CompletionMoves s.modem (s.pullSamples n).2.modem ∨ (s.pullSamples n).2.modem = s.modem := by
  have hend (len : Nat) (u : State) (hu : u.modem = s.modem) :
      CompletionMoves s.modem (if len < n then u.txComplete else u).modem ∨
        (if len < n then u.txComplete else u).modem = s.modem := by
    rw [← hu]
    split
    · exact (txComplete_completed u).modem
    · exact .inr rfl
  unfold State.pullSamples
  refine hend _ _ ?_
  simp only []
  split
  · exact (produce_modem _ _ _).trans (produce_modem s _ _)
  · exact produce_modem s _ _

/-- Endless silence always yields enough, so nothing is completed (45 R278). -/
theorem pullSamples_of_idle_silence {s : State} (n : Nat) (htx : s.txHandler = .silence)
    (hidle : s.silenceTxRemaining = .idle) : (s.pullSamples n).2 = s := by
  simp [State.pullSamples, State.produce, htx, hidle]

/-- The class-1 table of the model is that of the claims (30 R94). -/
theorem exists_row_of_class1Table {v : Byte} {family : Family} {rate : BitRate} {short : Bool}
    (h : class1Table v = some (family, rate, short)) :
    ∃ row ∈ class1Rows, v = BitVec.ofNat 8 row.1 ∧ row.2.1 = family.txMode ∧ row.2.2.1 = family.rxMode := by
  have hrow : (v.toNat, family.txMode, family.rxMode, rate, short) ∈ class1Rows := by
    unfold class1Table at h
    split at h <;> cases h <;> simp_all [class1Rows, Family.txMode, Family.rxMode]
  exact ⟨_, hrow, eq_ofNat_of_toNat_eq rfl, rfl, rfl⟩

/-! ### What an operation makes of `modem` -/

/-- A refusal moves nothing but RET, so an operation that has moved `modem` ran its body (00 R9). -/
theorem operation_eq_body {s t : State} {body : State → State} (h : operation s body = .next t)
    (hne : t.modem ≠ s.modem) : t = body s := by
  rcases operation_cases s body with ⟨_, hrun⟩ | ⟨_, hrefuse⟩
  · rw [hrun] at h; cases h; rfl
  · rw [hrefuse] at h; cases h; exact absurd rfl hne

/-- An operation keeps `modem` if its body does. -/
theorem operation_modem {s t : State} {body : State → State} (h : operation s body = .next t)
    (hbody : (body s).modem = s.modem) : t.modem = s.modem :=
  by_contra fun hne => hne ((congrArg State.modem (operation_eq_body h hne)).trans hbody)

theorem operationFaulting_eq_body {s t : State} {body : State → Host.Outcome State Fault Refusal}
    (h : operationFaulting s body = .next t) (hne : t.modem ≠ s.modem) : body s = .next t := by
  cases hlive : s.live with
  | true => rwa [operationFaulting_live _ hlive] at h
  | false => rw [operationFaulting_dead _ hlive] at h; cases h; exact absurd rfl hne

section
variable {s t : State}

theorem execGetBit_modem (h : execGetBit s = .next t) : t.modem = s.modem := by
  by_contra hne
  have hbody := operationFaulting_eq_body h hne
  refine hne ?_
  split at hbody
  · split at hbody
    · split at hbody <;> cases hbody
      exact loadTxByte_modem s
    · split at hbody <;> cases hbody <;> rfl
  · cases hbody; rfl

theorem execPutBitCarrierDown_modem (h : execPutBitCarrierDown s = .next t) : t.modem = s.modem := by
  refine operation_modem h (Eq.trans (b := State.modem (if _ then _ else _)) rfl ?_)
  split <;> rfl

theorem execHdlcTxu_modem (h : execHdlcTxu s = .next t) : t.modem = s.modem := by
  refine operation_modem h ?_
  split
  · split
    · rfl
    · exact State.armDteTimeout_modem _
  · rfl

theorem execHdlcRx_modem {ok : Bool} (h : execHdlcRx ok s = .next t) : t.modem = s.modem := by
  refine operation_modem h ?_
  split
  · exact acceptFrame_modem s _ ok
  · rfl

theorem execHdlcEvCarrierDown_modem (h : execHdlcEvCarrierDown s = .next t) : t.modem = s.modem := by
  refine operation_modem h ?_
  rw [State.returns_modem]
  split
  · exact v21CarrierDown_modem s
  · rfl

theorem execQWrite_modem (h : execQWrite s = .next t) : t.modem = s.modem := by
  refine operation_modem h ?_
  split
  · rfl
  · split
    next hwrite => exact (queueWrite_modem hwrite :)
    next => rfl

theorem execQRead_modem (h : execQRead s = .next t) : t.modem = s.modem := by
  refine operation_modem h ?_
  split
  next hread => exact (queueRead_modem hread :)
  next => rfl

/-! From here on the operations that can move `modem`, from a state `s` to a state `t` where it has moved. -/

variable (hne : t.modem ≠ s.modem)
include hne

theorem restartOperation_modem {m : Mode} (h : restartOperation m s = .next t) : t.modem = some m := by
  have ht := operation_eq_body h hne
  split at ht
  · rw [ht]; exact restart_modem s m
  · rw [ht] at hne; exact absurd rfl hne

theorem execCallevHangup_modem (h : execCallevHangup s = .next t) : t.modem = some .silenceTx := by
  rw [operation_eq_body h hne]
  exact restart_modem s .silenceTx

theorem execFts_modem {v : Byte} (h : execFts v s = .next t) : t.modem = some .silenceTx := by
  rw [operation_eq_body h hne]
  exact restart_modem s .silenceTx

theorem execFrs_modem {v : Byte} (h : execFrs v s = .next t) : t.modem = some .silenceRx := by
  rw [operation_eq_body h hne]
  simp only []
  split <;> exact restart_modem s .silenceRx

theorem execFrh_modem {v : Byte} (h : execFrh v s = .next t) : v = 3 ∧ t.modem = some .v21Rx := by
  have ht := operation_eq_body h hne
  split at ht
  next hval =>
    rw [ht]
    exact ⟨hval, (drainQueue_modem _ _ _).trans (restart_modem _ _)⟩
  next => rw [ht] at hne; exact absurd rfl hne

theorem execFth_modem {v : Byte} (h : execFth v s = .next t) : v = 3 ∧ t.modem = some .v21Tx := by
  have ht := operation_eq_body h hne
  split at ht
  next hval =>
    rw [ht]
    exact ⟨hval, restart_modem (s.loadRate .r300 false) .v21Tx⟩
  next => rw [ht] at hne; exact absurd rfl hne

theorem execFrm_modem {v : Byte} (h : execFrm v s = .next t) :
    ∃ row ∈ class1Rows, v = BitVec.ofNat 8 row.1 ∧ t.modem = some row.2.2.1 := by
  have ht := operation_eq_body h hne
  split at ht
  next family rate short hval =>
    obtain ⟨row, hrow, hv, _, hrx⟩ := exists_row_of_class1Table hval
    exact ⟨row, hrow, hv, by rw [ht, hrx]; exact restart_modem (s.loadRate rate short) family.rxMode⟩
  next => rw [ht] at hne; exact absurd rfl hne

theorem execFtm_modem {v : Byte} (h : execFtm v s = .next t) :
    ∃ row ∈ class1Rows, v = BitVec.ofNat 8 row.1 ∧ t.modem = some row.2.1 := by
  have ht := operation_eq_body h hne
  split at ht
  next family rate short hval =>
    obtain ⟨row, hrow, hv, htx, _⟩ := exists_row_of_class1Table hval
    exact ⟨row, hrow, hv, by rw [ht, htx]; exact restart_modem (s.loadRate rate short) family.txMode⟩
  next => rw [ht] at hne; exact absurd rfl hne

/-- Of the inbound modes only DELIVERY restarts (42 R187). -/
theorem dteByte_modem {b : Byte} (h : s.dteByte b = .next t) :
    s.atRxMode = .delivery ∧ t.modem = some .silenceTx := by
  unfold State.dteByte at h
  cases hmode : s.atRxMode with
  | onhookCommand | offhookCommand => rw [hmode] at h; cases h; exact absurd rfl hne
  | hdlc => rw [hmode] at h; exact absurd (hdlcByte_modem h) hne
  | stuffed => rw [hmode] at h; cases h; exact absurd (stuffedByte_modem s b) hne
  | delivery => rw [hmode] at h; cases h; exact ⟨rfl, restart_modem _ .silenceTx⟩

theorem execDte_modem {b : Byte} (h : execDte b s = .next t) :
    s.atRxMode = .delivery ∧ t.modem = some .silenceTx := by
  have hbody := operationFaulting_eq_body h hne
  cases hbyte : s.dteByte b with
  | next u => rw [hbyte] at hbody; cases hbody; exact (dteByte_modem (t := u) hne hbyte :)
  | fault f => rw [hbyte] at hbody; cases hbody
  | refused r => rw [hbyte] at hbody; cases hbody

theorem execHdlcEvFramingOk_modem (h : execHdlcEvFramingOk s = .next t) :
    ((s.modem = some .cng ∨ s.modem = some .nocng) ∧ t.modem = some .v21Rx) ∨
      ((s.modem = some .v17Rx ∨ s.modem = some .v27terRx ∨ s.modem = some .v29Rx) ∧ s.rxHandler.isEarly = true ∧
        t.modem = if s.adaptiveReceive then some .v21Rx else some .silenceTx) := by
  have ht : t.modem = s.framingOk.modem := (congrArg State.modem (operation_eq_body h hne) :)
  rw [ht] at hne ⊢
  cases hcng : s.inCng with
  | true => exact .inl ⟨(inCng_iff s).mp hcng, framingOk_modem_of_inCng hcng⟩
  | false => exact .inr (framingOk_modem_of_not_inCng hcng hne)

/-- The deadlines are compared with the count that the sample has advanced; that of the DTE only where the silence
check has not disarmed it (60 R291, R292, R299). -/
theorem execRxs_modem {quiet : Bool} (h : execRxs quiet s = .next t) :
    t.modem = some .silenceTx ∧
      ((s.dteDataTimeout ≠ 0 ∧ s.dteDataTimeout < t.callSamples) ∨
        ((s.modem = some .cng ∨ s.modem = some .nocng) ∧ s.s7.toNat * 8000 < t.callSamples)) := by
  have ht := operation_eq_body h hne
  have hsilence : (s.countSample quiet).checkSilence.modem = s.modem ∧
      ((s.countSample quiet).checkSilence.dteDataTimeout ≠ 0 →
        (s.countSample quiet).checkSilence.dteDataTimeout = s.dteDataTimeout) ∧
      (s.countSample quiet).checkSilence.s7 = s.s7 := by
    rw [checkSilence_eq]
    split
    · exact ⟨rfl, fun harmed => absurd rfl harmed, rfl⟩
    · exact ⟨rfl, fun _ => rfl, rfl⟩
  generalize (s.countSample quiet).checkSilence = b at ht hsilence
  obtain ⟨hmode, harmed, hs7⟩ := hsilence
  have hclock : t.callSamples = b.callSamples := by
    rw [ht]
    exact (frame_checkNoCarrier _).1.callSamples.trans (frame_checkDteTimeout b).1.callSamples
  have hend : t.modem = b.checkDteTimeout.checkNoCarrier.modem := (congrArg State.modem ht :)
  rw [hclock, hend]
  rw [hend] at hne
  rcases checkDteTimeout_modem b with ⟨⟨hset, hpast⟩, hdte⟩ | hdte
  · have hpast' : s.dteDataTimeout ≠ 0 ∧ s.dteDataTimeout < b.callSamples := by
      rw [← harmed hset]; exact ⟨hset, hpast⟩
    rcases checkNoCarrier_modem b.checkDteTimeout with ⟨_, hnc⟩ | hnc
    · exact ⟨hnc, .inl hpast'⟩
    · exact ⟨by rw [hnc, hdte], .inl hpast'⟩
  · rw [hdte] at hne ⊢
    rcases checkNoCarrier_modem b with ⟨hdue, hnc⟩ | hnc
    · rw [hmode, hs7] at hdue
      exact ⟨hnc, .inr hdue⟩
    · rw [hnc] at hne
      exact absurd hmode hne

theorem execTxs_modem {n : Byte} (h : execTxs n s = .next t) :
    s.transmit = true ∧ (s.txHandler = .silence → s.silenceTxRemaining ≠ .idle) ∧
      CompletionMoves s.modem t.modem := by
  have ht : t.modem = (if s.transmit then s.pullSamples n.toNat else (0, s)).2.modem :=
    (congrArg State.modem (operation_eq_body h hne) :)
  cases htransmit : s.transmit with
  | false => rw [htransmit] at ht; exact absurd ht hne
  | true =>
    replace ht : t.modem = (s.pullSamples n.toNat).2.modem := by rw [ht, htransmit, if_pos rfl]
    rw [ht] at hne ⊢
    refine ⟨rfl, fun htx hidle => hne ?_, (pullSamples_modem s n.toNat).resolve_right hne⟩
    rw [pullSamples_of_idle_silence _ htx hidle]

end

/-! ### The statement about the transitions -/

/-- Settles O58: one case per row of the opcode table; an operation keeps `modem`, or its lemma is the row of 40 R141
that the claim has for it. -/
theorem modemChangesOnlyByItsTransitions : Obligations.ModemChangesOnlyByItsTransitions := by
  intro i s t h hne
  unfold exec at h
  cases i with
  | init => cases h; exact .inl ⟨rfl, rfl⟩
  | release | setToi | setTep | callevRing | callevAnswer | setT38 | t38Tick
  | putBitCarrierUp | putBitTrainingInProgress | putBitTrainingSucceeded | putBitTrainingFailed | putBitOther
  | hdlcEvCarrierUp | hdlcEvOther | qFlush => exact absurd (operation_modem h rfl) hne
  | getBit => exact absurd (execGetBit_modem h) hne
  | putBit bit => exact absurd (operation_modem h (putDataBit_modem s bit)) hne
  | putBitCarrierDown => exact absurd (execPutBitCarrierDown_modem h) hne
  | hdlcRx => exact absurd (execHdlcRx_modem h) hne
  | hdlcEvCarrierDown => exact absurd (execHdlcEvCarrierDown_modem h) hne
  | hdlcTxu => exact absurd (execHdlcTxu_modem h) hne
  | qWrite => exact absurd (execQWrite_modem h) hne
  | qRead => exact absurd (execQRead_modem h) hne
  | restartFlush | restartSilenceTx | restartSilenceRx | restartCed | restartCng | restartNocng
  | restartV21Tx | restartV17Tx | restartV27terTx | restartV29Tx
  | restartV21Rx | restartV17Rx | restartV27terRx | restartV29Rx =>
    refine .inr (.inl ⟨_, ?_, restartOperation_modem hne h⟩)
    rfl
  | frs v =>
    iterate 2 right
    exact .inl ⟨v, rfl, execFrs_modem hne h⟩
  | fts v =>
    iterate 3 right
    exact .inl ⟨v, rfl, execFts_modem hne h⟩
  | frh v =>
    obtain ⟨rfl, hmode⟩ := execFrh_modem hne h
    iterate 4 right
    exact .inl ⟨rfl, hmode⟩
  | fth v =>
    obtain ⟨rfl, hmode⟩ := execFth_modem hne h
    iterate 5 right
    exact .inl ⟨rfl, hmode⟩
  | frm v =>
    obtain ⟨row, hrow, rfl, hmode⟩ := execFrm_modem hne h
    iterate 6 right
    exact .inl ⟨row, hrow, .inl ⟨rfl, hmode⟩⟩
  | ftm v =>
    obtain ⟨row, hrow, rfl, hmode⟩ := execFtm_modem hne h
    iterate 6 right
    exact .inl ⟨row, hrow, .inr ⟨rfl, hmode⟩⟩
  | dte b =>
    iterate 7 right
    exact .inl ⟨b, rfl, execDte_modem hne h⟩
  | hdlcEvFramingOk =>
    iterate 8 right
    rcases execHdlcEvFramingOk_modem hne h with hcng | hfast
    · exact .inl ⟨rfl, hcng⟩
    · exact .inr (.inl ⟨rfl, hfast⟩)
  | txs n =>
    iterate 10 right
    exact .inl ⟨n, rfl, execTxs_modem hne h⟩
  | rxs q =>
    iterate 11 right
    exact .inl ⟨q, rfl, execRxs_modem hne h⟩
  | callevHangup =>
    iterate 12 right
    exact ⟨rfl, execCallevHangup_modem hne h⟩

end Sys2Proof.Machine

/-! ## Class 1: the dispatch of the six class-1 commands

The statements of 41_class1_dispatch.md. Each command gets one equation per branch of its rule. The sub-step RESTART
is `restart_spec`, the queue behind FRH is `drainQueue_spec`, and the rows of 30 R94 are read off the class-1 table
in both directions. -/

namespace Sys2Proof.Machine

/-! ### The class-1 table (30 R94) -/

/-- What a command reads off the class-1 table, in the order of the columns of `class1Rows`. -/
def class1Columns (entry : Family × BitRate × Bool) : Mode × Mode × BitRate × Bool :=
  (entry.1.txMode, entry.1.rxMode, entry.2)

theorem class1Table_map_columns :
    ∀ row ∈ class1Rows, (class1Table (BitVec.ofNat 8 row.1)).map class1Columns = some row.2 := by decide

/-- A row of 30 R94 is known to the dispatch, with the modes, the rate and the training it lists. -/
theorem class1Table_of_mem_rows {row : Nat × Mode × Mode × BitRate × Bool} (hrow : row ∈ class1Rows) :
    ∃ family : Family, class1Table (BitVec.ofNat 8 row.1) = some (family, row.2.2.2.1, row.2.2.2.2) ∧
      family.txMode = row.2.1 ∧ family.rxMode = row.2.2.1 := by
  obtain ⟨⟨family, rate, short⟩, htable, hcolumns⟩ := Option.map_eq_some_iff.mp (class1Table_map_columns row hrow)
  rw [← hcolumns]
  exact ⟨family, htable, rfl, rfl⟩

theorem toNat_val_of_mem_rows : ∀ row ∈ class1Rows, (BitVec.ofNat 8 row.1).toNat = row.1 := by decide

/-- A `val` that no row lists is unknown (41 R167). -/
theorem class1Table_eq_none {v : Byte} (h : ∀ row ∈ class1Rows, row.1 ≠ v.toNat) : class1Table v = none := by
  rw [Option.eq_none_iff_forall_ne_some]
  rintro ⟨family, rate, short⟩ htable
  obtain ⟨row, hrow, rfl, _⟩ := exists_row_of_class1Table htable
  exact h row hrow (toNat_val_of_mem_rows row hrow).symm

/-! ### The commands, one equation per branch -/

section
variable {s t : State} (hlive : s.live = true)
include hlive

/-- FTS (41 R161). -/
theorem exec_fts_live (v : Byte) (ht : s.restart .silenceTx = t) : exec (.fts v) s = .next
    { t with silenceTxRemaining := .samples (v.toNat * 80), transmit := true, ret := .value 0 } := by
  simp only [exec, execFts, operation_live _ hlive, ht]
  rfl

/-- FRS 0 (41 R162). -/
theorem exec_frs_zero (ht : s.restart .silenceRx = t) : exec (.frs 0) s = .next
    { t with dteTx := t.dteTx ++ [.resp 0], ret := .value 0 } := by
  simp only [exec, execFrs, operation_live _ hlive, ht]
  rfl

/-- FRS of a duration (41 R162). -/
theorem exec_frs_duration {v : Byte} (hv : v ≠ 0) (ht : s.restart .silenceRx = t) : exec (.frs v) s = .next
    { t with
      silenceAwaited := v.toNat * 80, atRxMode := .delivery, dteDataTimeout := 0, ret := .value 0 } := by
  simp only [exec, execFrs, operation_live _ hlive, if_neg hv, ht]
  rfl

/-- FTH 3 (41 R163). -/
theorem exec_fth_hdlc (ht : (s.loadRate .r300 false).restart .v21Tx = t) : exec (.fth 3) s = .next
    { t with
      transmit := true, dteTx := t.dteTx ++ [.resp 1], atRxMode := .hdlc, hdlcTxLen := 0
      dteDataTimeout := t.callSamples + 40000, ret := .value 0 } := by
  simp only [exec, execFth, operation_live _ hlive, ht]
  rfl

/-- FRH 3 runs `drain_queue` in DELIVERY mode (41 R164). -/
theorem exec_frh_hdlc (ht : (s.loadRate .r300 false).restart .v21Rx = t) : exec (.frh 3) s = .next
    ((State.drainQueue 4096 false
      { t with transmit := false, atRxMode := .delivery, dteDataTimeout := 0 }).returns (.value 0)) := by
  simp only [exec, execFrh, operation_live _ hlive, ht]
  rfl

/-- FTM of a known `val` (41 R165). -/
theorem exec_ftm_known {v : Byte} {family : Family} {rate : BitRate} {short : Bool}
    (hval : class1Table v = some (family, rate, short))
    (ht : (s.loadRate rate short).restart family.txMode = t) : exec (.ftm v) s = .next
    { t with
      transmit := true, dteTx := t.dteTx ++ [.resp 1], atRxMode := .stuffed, dteDataTimeout := 0
      ret := .value 0 } := by
  simp only [exec, execFtm, operation_live _ hlive, hval, ht]
  rfl

/-- FRM of a known `val` (41 R166). -/
theorem exec_frm_known {v : Byte} {family : Family} {rate : BitRate} {short : Bool}
    (hval : class1Table v = some (family, rate, short))
    (ht : (s.loadRate rate short).restart family.rxMode = t) : exec (.frm v) s = .next
    { t with
      transmit := false, atRxMode := .delivery, dteDataTimeout := 0, dteIsWaiting := true
      ret := .value 0 } := by
  simp only [exec, execFrm, operation_live _ hlive, hval, ht]
  rfl

/-! The unknown values (41 R167). -/

theorem exec_fth_unknown {v : Byte} (hv : v ≠ 3) : exec (.fth v) s = .next s.unknownVal := by
  simp only [exec, execFth, operation_live _ hlive, if_neg hv]

theorem exec_frh_unknown {v : Byte} (hv : v ≠ 3) : exec (.frh v) s = .next s.unknownVal := by
  simp only [exec, execFrh, operation_live _ hlive, if_neg hv]

theorem exec_ftm_unknown {v : Byte} (hval : class1Table v = none) : exec (.ftm v) s = .next s.unknownVal := by
  simp only [exec, execFtm, operation_live _ hlive, hval]

theorem exec_frm_unknown {v : Byte} (hval : class1Table v = none) : exec (.frm v) s = .next s.unknownVal := by
  simp only [exec, execFrm, operation_live _ hlive, hval]

end

/-! ### What RESTART leaves to the commands -/

theorem Restarted.log {m : Mode} {s t : State} (h : Restarted m s t) : t.log = s.log := by
  rcases h with ⟨_, rfl⟩ | ⟨_, c, d, _, rfl⟩ <;> rfl

/-- A RESTART into another mode flushes the queue, and one of the active mode keeps an empty queue empty (40 R120,
R121). -/
theorem Restarted.queue_empty {m : Mode} {s t : State} (h : Restarted m s t)
    (hqueue : s.modem ≠ some m ∨ s.qIptr = s.qOptr) : t.qIptr = t.qOptr := by
  rcases h with ⟨hactive, rfl⟩ | ⟨_, c, d, _, rfl⟩
  · exact hqueue.resolve_left fun hother => hother hactive
  · rfl

theorem queueRead_of_empty {s : State} (h : s.qIptr = s.qOptr) : s.queueRead = none := by
  simp [State.queueRead, State.queueEmpty, h]

/-- Fewer records than ring bytes fit in the ring (20 R71). -/
theorem RingHolds.length_lt {s : State} {rxq : List (List Byte)} (h : RingHolds s rxq) : rxq.length < 4096 :=
  Nat.lt_succ_of_le ((length_le_queueBytes rxq).trans h.fits)

/-! ### The statements about the class-1 commands -/

/-- Settles O18: the equation of FTS, from the state the RESTART leaves. -/
theorem ftsTransmitsSilence : Obligations.FtsTransmitsSilence :=
  fun s v hlive => ⟨_, restart_spec .silenceTx s, exec_fts_live hlive v rfl⟩

/-- Settles O19, by whether the duration is 0. -/
theorem frsWaitsForSilence : Obligations.FrsWaitsForSilence := by
  intro s v hlive
  refine ⟨_, restart_spec .silenceRx s, ?_⟩
  by_cases hv : v = 0
  · subst hv
    exact exec_frs_zero hlive rfl
  · have hpos : v.toNat ≠ 0 := fun hzero => hv (BitVec.eq_of_toNat_eq hzero)
    rw [if_neg hpos]
    exact exec_frs_duration hlive hv rfl

/-- Settles O20: the equation of FTH 3, from the state the RESTART leaves. -/
theorem fthEntersHdlcMode : Obligations.FthEntersHdlcMode :=
  fun s hlive => ⟨_, restart_spec .v21Tx (s.loadRate .r300 false), exec_fth_hdlc hlive rfl⟩

/-- Settles O21: after the RESTART the queue is empty in either case, so `drain_queue` stops at once. -/
theorem frhWaitsOnAnEmptyQueue : Obligations.FrhWaitsOnAnEmptyQueue := by
  intro s hlive hqueue
  have hrestart := restart_spec .v21Rx (s.loadRate .r300 false)
  refine ⟨_, hrestart, ?_⟩
  rw [exec_frh_hdlc hlive rfl, drainQueue_empty]
  · rfl
  · exact queueRead_of_empty (hrestart.queue_empty hqueue)

/-- Settles O22: the RESTART of the active mode is idle, and `drainQueue_spec` speaks of the ring as it stands. -/
theorem frhDrainsTheQueue : Obligations.FrhDrainsTheQueue := by
  intro s rxq hlive hmode hring
  have hidle : (s.loadRate .r300 false).restart .v21Rx = s.loadRate .r300 false := if_pos hmode
  obtain ⟨v, hdrain, hrest, hv⟩ := drainQueue_spec rxq 4096 false
    { s.loadRate .r300 false with transmit := false, atRxMode := .delivery, dteDataTimeout := 0 }
    hring.length_lt (hring.congr rfl rfl rfl) (fun hconnected => by cases hconnected)
  refine ⟨v.returns (.value 0), ?_, hrest.returns _, ?_⟩
  · rw [exec_frh_hdlc hlive hidle, hdrain]
  · rw [ite_self] at hv
    exact congrArg (State.returns · (.value 0)) hv

/-- Settles O23: the row is an entry of the class-1 table, and the equation of FTM is that of a known `val`. -/
theorem ftmStartsImageTransmission : Obligations.FtmStartsImageTransmission := by
  intro s row hlive hrow
  obtain ⟨family, hval, htx, _⟩ := class1Table_of_mem_rows hrow
  rw [← htx]
  exact ⟨_, restart_spec family.txMode (s.loadRate _ _), exec_ftm_known hlive hval rfl⟩

/-- Settles O24: the same entry, received. -/
theorem frmStartsImageReception : Obligations.FrmStartsImageReception := by
  intro s row hlive hrow
  obtain ⟨family, hval, _, hrx⟩ := class1Table_of_mem_rows hrow
  rw [← hrx]
  exact ⟨_, restart_spec family.rxMode (s.loadRate _ _), exec_frm_known hlive hval rfl⟩

/-- Settles O25: the unknown branches; FRS and FTS by O19 and O18, since RESTART logs nothing. -/
theorem unknownClass1ValChangesNothing : Obligations.UnknownClass1ValChangesNothing := by
  intro s v hlive
  refine ⟨fun hrows => ?_, fun hv => ?_, ?_⟩
  · have hval := class1Table_eq_none hrows
    exact ⟨exec_ftm_unknown hlive hval, exec_frm_unknown hlive hval⟩
  · have hne : v ≠ 3 := fun h => hv (congrArg BitVec.toNat h)
    exact ⟨exec_fth_unknown hlive hne, exec_frh_unknown hlive hne⟩
  · obtain ⟨t, ht, hfrs⟩ := frsWaitsForSilence s v hlive
    obtain ⟨u, hu, hfts⟩ := ftsTransmitsSilence s v hlive
    refine ⟨_, _, hfrs, hfts, ?_, hu.log, ?_, by simp⟩
    · split <;> exact ht.log
    · split <;> simp

end Sys2Proof.Machine

/-! ## The inbound codec: a byte of the DTE stream, by `at_rx_mode`

The statements of 42_dle_codec.md. The operation DTE gets one equation per inbound mode, from the byte rules of the
codec. The two stream statements are one induction over the payload, `execAll_stuff`: it speaks of any relation that
every byte of a stream carries on, and each buffered mode gives such a relation, the exact state while bytes are
stored. -/

namespace Sys2Proof.Machine

/-! ### The operation DTE, one equation per inbound mode -/

section
variable {s : State} (hlive : s.live = true)
include hlive

theorem exec_dte_live (b : Byte) : exec (.dte b) s = returning (.value 0) (s.dteByte b) := by
  simp only [exec, execDte, operationFaulting_live _ hlive]

/-- 42 R181. -/
theorem exec_dte_command (hmode : s.atRxMode = .onhookCommand ∨ s.atRxMode = .offhookCommand) (b : Byte) :
    exec (.dte b) s = .next ((s.fwdAt b).returns (.value 0)) := by
  rw [exec_dte_live hlive]
  rcases hmode with hmode | hmode <;> simp only [State.dteByte, hmode, returning]

/-- 42 R182. -/
theorem exec_dte_hdlc (hmode : s.atRxMode = .hdlc) (b : Byte) :
    exec (.dte b) s = returning (.value 0) (s.hdlcByte b) := by
  simp only [exec_dte_live hlive, State.dteByte, hmode]

/-- 42 R184. -/
theorem exec_dte_stuffed (hmode : s.atRxMode = .stuffed) (b : Byte) :
    exec (.dte b) s = .next ((s.stuffedByte b).returns (.value 0)) := by
  simp only [exec_dte_live hlive, State.dteByte, hmode, returning]

/-- 42 R187. -/
theorem exec_dte_delivery (hmode : s.atRxMode = .delivery) (b : Byte) :
    exec (.dte b) s = .next (s.abortDelivery.returns (.value 0)) := by
  simp only [exec_dte_live hlive, State.dteByte, hmode, returning]

end

/-- The ETX of a DLE-ETX in STUFFED mode ends the data (42 R185). -/
theorem stuffedByte_etx {s : State} (hdled : s.dled = true) :
    s.stuffedByte 3 = ({ s with dled := false } : State).endOfData.checkHighWater := by
  simp [State.stuffedByte, hdled, ETX]

theorem State.getElem?_cells (s : State) (m : MemName) (i n k : Nat) :
    (s.cells m i n)[k]? = if k < n then some (s.cell m (i + k)) else none := by
  rw [State.cells_eq_map, List.getElem?_map]
  split
  · next hk => rw [List.getElem?_range hk]; rfl
  · next hk => rw [List.getElem?_eq_none (by simpa using hk)]; rfl

/-- `hdlc_final` of a submitted frame that has a second octet (42 R183). -/
theorem submittedFinal_of_octet {s : State} {octet : Byte}
    (h : (s.cells .hdlcTxBuf 0 s.hdlcTxLen)[1]? = some octet) : s.submittedFinal = octet.getLsbD 4 := by
  rw [State.getElem?_cells] at h
  obtain ⟨hlong, hcell⟩ := Option.ite_none_right_eq_some.mp h
  rw [State.submittedFinal, if_neg (Nat.not_lt.mpr hlong), pollFinalBit_eq, ← Option.some.inj hcell]

/-! ### The statements about one byte -/

/-- Settles O26: the byte goes to AT_CMD and the operation ends. -/
theorem commandModeForwardsTheByte : Obligations.CommandModeForwardsTheByte :=
  fun _ b hlive hmode => exec_dte_command hlive hmode b

/-- Settles O27: the byte is a run of `append` over what it unstuffs to. -/
theorem hdlcModeUnstuffsTheByte : Obligations.HdlcModeUnstuffsTheByte := by
  intro s b hlive hmode hetx
  obtain ⟨t, hrun, hlaid, ht⟩ := hdlcAppend_foldl (unstuffed s.dled b)
    { s with dteDataTimeout := s.callSamples + 40000, dled := !s.dled && b == 0x10 }
  refine ⟨_, _, t.returns (.value 0), rfl, rfl, ?_, hlaid, congrArg (State.returns · (.value 0)) ht⟩
  rw [exec_dte_hdlc hlive hmode, hdlcByte_eq s b hetx, hrun]
  rfl

/-- Settles O28: the frame is the cells of the buffer, and its second octet is cell 1. -/
theorem hdlcModeSubmitsTheFrame : Obligations.HdlcModeSubmitsTheFrame := by
  intro s hlive hmode hdled hlen
  refine ⟨_, _, _, ?_, ?_, ?_, by rw [exec_dte_hdlc hlive hmode, hdlcByte_etx s hdled hlen]; rfl⟩
  · exact State.cells_length _ _ _ _
  · intro i v hi hv
    rw [State.getElem?_cells, if_pos hi, Nat.zero_add]
    exact congrArg some (State.cell_of_byteAt (m := .hdlcTxBuf) hv)
  · exact fun octet hoctet => submittedFinal_of_octet hoctet

/-- Settles O29: the byte is a run of `store` over what it unstuffs to, and then the high-water check. -/
theorem stuffedModeUnstuffsTheByte : Obligations.StuffedModeUnstuffsTheByte := by
  intro s b hlive hmode hetx
  obtain ⟨t, hrun, hlaid, ht⟩ := stuffedStore_foldl (unstuffed s.dled b) { s with dled := !s.dled && b == 0x10 }
  refine ⟨_, _, _, t.checkHighWater.returns (.value 0), rfl, rfl, rfl, ?_, ?_, ?_⟩
  · rw [exec_dte_stuffed hlive hmode, stuffedByte_eq s b hetx, hrun]
  · rw [checkHighWater_eq]; exact hlaid
  · rw [checkHighWater_eq, ht]; rfl

/-- Settles O30: nothing is stored, so the high-water check sees the cursor as it was. -/
theorem stuffedModeEndsTheData : Obligations.StuffedModeEndsTheData := by
  intro s hlive hmode hdled
  refine ⟨_, rfl, ?_⟩
  rw [exec_dte_stuffed hlive hmode, stuffedByte_etx hdled, checkHighWater_eq]
  rfl

/-- Settles O33: the DLE-ETX goes out before the RESTART, which does not see the trace. -/
theorem deliveryModeAborts : Obligations.DeliveryModeAborts := by
  intro s b hlive hmode
  have hend : (if s.rxSignalPresent then s.emitEndOfData else s) =
      { s with dteTx := s.dteTx ++ (if s.rxSignalPresent then [.byte 0x10, .byte 0x03] else []) } := by
    split
    · rfl
    · rw [List.append_nil]
  refine ⟨_, restart_spec .silenceTx _, ?_⟩
  rw [exec_dte_delivery hlive hmode, State.abortDelivery, hend]
  rfl

/-! ### A stuffed stream -/

/-- A relation between the escape flag, the bytes stored and the state that every byte of a stream carries on, as
long as at most `n` bytes are stored and no DLE-ETX is met (42 R182, R184). -/
def CarriedByBytes (n : Nat) (R : Bool → List Byte → State → Prop) : Prop :=
  ∀ dled xs t b, R dled xs t → ¬ (dled = true ∧ b = 0x03) → (xs ++ unstuffed dled b).length ≤ n →
    ∃ u, exec (.dte b) t = .next u ∧ R (!dled && b == 0x10) (xs ++ unstuffed dled b) u

theorem execAll_cons {i : Instr} {rest : List Instr} {s t : State} (h : exec i s = .next t) :
    execAll (i :: rest) s = execAll rest t := by
  simp only [execAll, h]

section
variable {n : Nat} {R : Bool → List Byte → State → Prop} (hR : CarriedByBytes n R)
include hR

/-- A DLE read outside an escape stores nothing and raises the flag. -/
theorem CarriedByBytes.exec_dle {xs : List Byte} {t : State} (ht : R false xs t) (hfit : xs.length ≤ n) :
    ∃ u, exec (.dte 0x10) t = .next u ∧ R true xs u := by
  have hnil : xs ++ unstuffed false 0x10 = xs := List.append_nil xs
  have hdle := hR false xs t 0x10 ht (by simp)
  rw [hnil] at hdle
  exact hdle hfit

/-- The one or two bytes that stand for a payload byte store it. -/
theorem CarriedByBytes.execAll_symbol {xs : List Byte} {t : State} (x : Byte) (ht : R false xs t)
    (hfit : (xs ++ [x]).length ≤ n) :
    ∃ u, execAll (atRx (if x = DLE then [DLE, x] else [x])) t = .next u ∧ R false (xs ++ [x]) u := by
  by_cases hx : x = DLE
  · subst hx
    obtain ⟨u, hu, hesc⟩ := hR.exec_dle ht ((by simp : xs.length ≤ (xs ++ [DLE]).length).trans hfit)
    obtain ⟨v, hv, hstored⟩ := hR true xs u DLE hesc (by decide) hfit
    exact ⟨v, (execAll_cons hu).trans (execAll_cons hv), hstored⟩
  · have hplain : unstuffed false x = [x] := if_neg hx
    have hstep := hR false xs t x ht (by simp)
    rw [hplain, show (!false && x == 0x10) = false by simpa using hx] at hstep
    obtain ⟨u, hu, hstored⟩ := hstep hfit
    rw [if_neg hx]
    exact ⟨u, execAll_cons hu, hstored⟩

/-- The stuffed form of a payload stores the payload (42 R188, R189). -/
theorem CarriedByBytes.execAll_stuff (p : List Byte) {xs : List Byte} {t : State} (ht : R false xs t)
    (hfit : (xs ++ p).length ≤ n) : ∃ u, execAll (atRx (stuff p)) t = .next u ∧ R false (xs ++ p) u := by
  induction p generalizing xs t with
  | nil => exact ⟨t, rfl, by rwa [List.append_nil]⟩
  | cons x p ih =>
    rw [List.append_cons] at hfit ⊢
    obtain ⟨u, hu, hx⟩ := hR.execAll_symbol x ht (by simp at hfit ⊢; omega)
    obtain ⟨v, hv, hp⟩ := ih hx hfit
    refine ⟨v, ?_, hp⟩
    rw [stuff_cons, atRx_append, execAll_append _ _ _ _ hu, hv]

/-- A whole stream: the payload is stored and the flag raised when the last byte, the ETX, is taken. -/
theorem CarriedByBytes.execAll_stream {p : List Byte} {s : State} (hs : R false [] s) (hfit : p.length ≤ n) :
    ∃ t, execAll (atRx (stuff p ++ [0x10, 0x03])) s = execAll [.dte 0x03] t ∧ R true p t := by
  obtain ⟨t, ht, hp⟩ := hR.execAll_stuff p hs hfit
  obtain ⟨u, hu, hesc⟩ := hR.exec_dle hp hfit
  refine ⟨u, ?_, hesc⟩
  rw [atRx_append, execAll_append _ _ _ _ ht]
  exact execAll_cons hu

end

/-! ### The bytes stored by the two buffered modes -/

/-- The state in STUFFED mode after `xs` has been stored from `s` on: only the escape flag, `tx_data`, the flow
control and RET have moved (42 R184, R186). -/
def StuffedStored (s : State) (dled : Bool) (xs : List Byte) (t : State) : Prop :=
  ∃ txData txHolding modemCtrl ret, LaidInto s.txData txData s.txInBytes xs ∧
    t = { s with dled, txData, txInBytes := s.txInBytes + xs.length, txHolding, modemCtrl, ret }

/-- The state in HDLC mode after `xs` has been stored from `s` on: only the escape flag, `hdlc_tx_buf`, the deadline
and RET have moved (42 R182, R190). -/
def HdlcStored (s : State) (dled : Bool) (xs : List Byte) (t : State) : Prop :=
  ∃ hdlcTxBuf dteDataTimeout ret, LaidInto s.hdlcTxBuf hdlcTxBuf s.hdlcTxLen xs ∧
    t = { s with dled, hdlcTxBuf, hdlcTxLen := s.hdlcTxLen + xs.length, dteDataTimeout, ret }

theorem stuffedStored_nil {s : State} (hdled : s.dled = false) : StuffedStored s false [] s :=
  ⟨_, _, _, _, laidInto_nil _ _, by rw [← hdled]; rfl⟩

theorem hdlcStored_nil {s : State} (hdled : s.dled = false) : HdlcStored s false [] s :=
  ⟨_, _, _, laidInto_nil _ _, by rw [← hdled]; rfl⟩

/-- While there is room a byte in STUFFED mode is stored whole. -/
theorem stuffedStored_carried {s : State} (hlive : s.live = true) (hmode : s.atRxMode = .stuffed) :
    CarriedByBytes (s.params.txBufLen - s.txInBytes) (StuffedStored s) := by
  rintro dled xs _ b ⟨txData, txHolding, modemCtrl, ret, hlaid, rfl⟩ hetx hfit
  rw [List.length_append] at hfit
  obtain ⟨data, stored, hold, u, hdata, hstored, -, hexec, hnew, hu⟩ := stuffedModeUnstuffsTheByte
    { s with dled, txData, txInBytes := s.txInBytes + xs.length, txHolding, modemCtrl, ret } b hlive hmode hetx
  have hall : stored = unstuffed dled b := by
    rw [hstored, hdata]
    exact List.take_of_length_le (by simp only; omega)
  subst hall hdata
  refine ⟨u, hexec, u.txData, u.txHolding, u.modemCtrl, u.ret, laidInto_append hlaid hnew, ?_⟩
  rw [hu]
  simp [Nat.add_assoc]

/-- While there is room a byte in HDLC mode is stored whole. -/
theorem hdlcStored_carried {s : State} (hlive : s.live = true) (hmode : s.atRxMode = .hdlc) :
    CarriedByBytes (s.params.hdlcTxBufLen - s.hdlcTxLen) (HdlcStored s) := by
  rintro dled xs _ b ⟨hdlcTxBuf, dteDataTimeout, ret, hlaid, rfl⟩ hetx hfit
  rw [List.length_append] at hfit
  obtain ⟨data, stored, u, hdata, hstored, hexec, hnew, hu⟩ := hdlcModeUnstuffsTheByte
    { s with dled, hdlcTxBuf, hdlcTxLen := s.hdlcTxLen + xs.length, dteDataTimeout, ret } b hlive hmode hetx
  have hall : stored = unstuffed dled b := by
    rw [hstored, hdata]
    exact List.take_of_length_le (by simp only; omega)
  subst hall hdata
  refine ⟨u, hexec, u.hdlcTxBuf, u.dteDataTimeout, u.ret, laidInto_append hlaid hnew, ?_⟩
  rw [hu]
  simp [Nat.add_assoc]

/-- Bytes laid in from index 0 are the first cells. -/
theorem LaidInto.byteAt_of_lt {old new : Memory} {xs : List Byte} (h : LaidInto old new 0 xs) {i : Nat}
    (hi : i < xs.length) : new.byteAt i = xs[i]? := by
  rw [h i, if_pos ⟨Nat.zero_le i, by omega⟩, Nat.sub_zero]

/-! ### The statements about a stream -/

/-- Settles O31: the payload is stored byte by byte, and the DLE-ETX after it is O30. -/
theorem stuffedStreamRoundTrip : Obligations.StuffedStreamRoundTrip := by
  intro s p hlive hmode hdled hempty hfit
  obtain ⟨_, hstream, txData, txHolding, modemCtrl, ret, hlaid, rfl⟩ :=
    (stuffedStored_carried hlive hmode).execAll_stream (stuffedStored_nil hdled) (by rwa [hempty])
  obtain ⟨hold, -, hend⟩ := stuffedModeEndsTheData
    { s with dled := true, txData, txInBytes := s.txInBytes + p.length, txHolding, modemCtrl, ret } hlive hmode rfl
  rw [hempty] at hlaid
  refine ⟨_, hstream.trans (execAll_cons hend), ?_, fun _ => hlaid.byteAt_of_lt, rfl, rfl, rfl, rfl, rfl, rfl⟩
  simp only [hempty, Nat.zero_add]

/-- Settles O32: the frame is stored byte by byte, and what O28 submits agrees with it in every cell. -/
theorem hdlcStreamRoundTrip : Obligations.HdlcStreamRoundTrip := by
  intro s p hlive hmode hdled hempty hfit
  obtain ⟨_, hstream, hdlcTxBuf, dteDataTimeout, ret, hlaid, rfl⟩ :=
    (hdlcStored_carried hlive hmode).execAll_stream (hdlcStored_nil hdled) (by rwa [hempty])
  rw [hempty] at hlaid hstream
  rw [Nat.zero_add] at hstream
  obtain ⟨frame, final, draws, hlen, hcells, hfinal, hend⟩ := hdlcModeSubmitsTheFrame
    { s with dled := true, hdlcTxBuf, hdlcTxLen := p.length, dteDataTimeout, ret } hlive hmode rfl hfit
  have hframe : frame = p := by
    refine List.ext_getElem? fun i => ?_
    by_cases hi : i < p.length
    · rw [List.getElem?_eq_getElem hi]
      exact hcells i p[i] hi ((hlaid.byteAt_of_lt hi).trans (List.getElem?_eq_getElem hi))
    · rw [List.getElem?_eq_none (Nat.not_lt.mp hi), List.getElem?_eq_none (hlen.trans_le (Nat.not_lt.mp hi))]
  subst hframe
  exact ⟨_, hstream.trans (execAll_cons hend), rfl, rfl, hmode, rfl, rfl, hfinal, rfl, rfl⟩

end Sys2Proof.Machine

/-! ## The bit pump: GETBIT, PUTBIT and HDLCTXU, one equation per case

The statements of 43_bit_pump.md on one operation, and the events of the HDLC receiver in the modes that have no case
for them (44 R244 to R246). An operation of a live block gets one equation per branch of its rule, beside those that
stand above for GETBIT with data and for the data bits; what is left is the low-water check, the guard of CARRIER_DOWN
and the modes in which FRAMING_OK acts. -/

namespace Sys2Proof.Machine

/-! ### The operations, one equation per branch -/

/-- The data ends and the carrier is gone: three items on DTE_TX (42 R188, 43 R214). -/
theorem emitResp_emitEndOfData (s : State) (code : RespCode) :
    s.emitEndOfData.emitResp code = s.emit [.byte 0x10, .byte 0x03, .resp code.byte] := by
  simp [State.emitEndOfData, State.emitBytes, State.emitResp, State.emit, DLE, ETX]

section
variable {s : State} (hlive : s.live = true)
include hlive

/-- An operation that is noted or ignored answers 0 on RET and changes nothing else (43 R215 to R217, 44 R246). -/
theorem exec_of_ignored {i : Instr} (h : exec i s = operation s fun s => s.returns (.value 0)) :
    exec i s = .next { s with ret := .value 0 } :=
  h.trans (operation_live _ hlive)

/-- GETBIT at a boundary after the last byte of final data (43 R210). -/
theorem exec_getBit_endOfData (hbit : s.txBitNo = 0) (hdata : s.txOutBytes = s.txInBytes)
    (hfinal : s.dataFinal = true) :
    exec .getBit s = .next { s with dataFinal := false, ret := .value endOfDataValue } := by
  simp only [exec, execGetBit, operationFaulting_live _ hlive, if_pos hbit, if_neg (not_not_intro hdata),
    if_pos hfinal]
  rfl

/-- GETBIT at a boundary with no data yet, or none left (43 R210). -/
theorem exec_getBit_underrun (hbit : s.txBitNo = 0) (hdata : s.txOutBytes = s.txInBytes)
    (hfinal : s.dataFinal = false) : exec .getBit s = .next s.fillTxByte.shiftOutBit := by
  simp only [exec, execGetBit, operationFaulting_live _ hlive, if_pos hbit, if_neg (not_not_intro hdata),
    if_neg (Bool.eq_false_iff.1 hfinal)]

/-- 43 R213. -/
theorem exec_putBitTrainingSucceeded_live : exec .putBitTrainingSucceeded s = .next
    { s with
      dteTx := s.dteTx ++ [.resp 1], rxTrained := true, rxSignalPresent := true
      rxCurrentByte := 0, rxBitNo := 0, rxHandler := s.rxHandler.fastOnly, ret := .value 0 } := by
  simp only [exec, execPutBitTrainingSucceeded, operation_live _ hlive]
  rfl

/-- PUTBIT CARRIER_DOWN that the guard lets through (43 R214). -/
theorem exec_putBitCarrierDown_ends (hguard : s.params.carrierDownGuard = .noGuard ∨ s.rxSignalPresent = true) :
    exec .putBitCarrierDown s = .next
      { s with
        dteTx := s.dteTx ++ [.byte 0x10, .byte 0x03, .resp 3], atRxMode := .offhookCommand
        dteIsWaiting := false, dteDataTimeout := 0, rxSignalPresent := false, rxTrained := false
        rxCurrentByte := 0, rxBitNo := 0, ret := .value 0 } := by
  simp only [exec, execPutBitCarrierDown, operation_live _ hlive, if_pos hguard, emitResp_emitEndOfData]
  rfl

/-- PUTBIT CARRIER_DOWN that the guard holds back (43 R214). -/
theorem exec_putBitCarrierDown_held (hguard : ¬ (s.params.carrierDownGuard = .noGuard ∨ s.rxSignalPresent = true)) :
    exec .putBitCarrierDown s = .next
      { s with rxSignalPresent := false, rxTrained := false, rxCurrentByte := 0, rxBitNo := 0, ret := .value 0 } := by
  simp only [exec, execPutBitCarrierDown, operation_live _ hlive, if_neg hguard]
  rfl

/-- HDLCTXU after a final frame (43 R218). -/
theorem exec_hdlcTxu_final (hmode : s.modem = some .v21Tx) (hfinal : s.hdlcFinal = true) :
    exec .hdlcTxu s = .next
      { s with hdlcFinal := false, frameOut := s.frameOut ++ [.theEnd], ret := .value 0 } := by
  simp only [exec, execHdlcTxu, operation_live _ hlive, if_pos hmode, if_pos hfinal]
  rfl

/-- HDLCTXU after a frame that others follow (43 R218). -/
theorem exec_hdlcTxu_invites (hmode : s.modem = some .v21Tx) (hfinal : s.hdlcFinal = false) :
    exec .hdlcTxu s = .next
      { s with
        dteTx := s.dteTx ++ [.resp 1], dteDataTimeout := s.callSamples + dteDataTimeoutSamples
        ret := .value 0 } := by
  simp only [exec, execHdlcTxu, operation_live _ hlive, if_pos hmode, if_neg (Bool.eq_false_iff.1 hfinal)]
  rfl

/-- HDLCTXU outside V21_TX (43 R218). -/
theorem exec_hdlcTxu_idle (hmode : s.modem ≠ some .v21Tx) : exec .hdlcTxu s = .next (s.returns (.value 0)) := by
  simp only [exec, execHdlcTxu, operation_live _ hlive, if_neg hmode]

/-- HDLCEV FRAMING_OK (44 R244). -/
theorem exec_hdlcEvFramingOk_live : exec .hdlcEvFramingOk s = .next (s.framingOk.returns (.value 0)) := by
  simp only [exec, execHdlcEvFramingOk, operation_live _ hlive]

/-- HDLCEV CARRIER_DOWN where no V.21 receiver listens for a frame (44 R245). -/
theorem exec_hdlcEvCarrierDown_idle (hmode : s.modem ≠ some .v21Rx) (hcng : s.inCng = false) :
    exec .hdlcEvCarrierDown s = .next (s.returns (.value 0)) := by
  simp only [exec, execHdlcEvCarrierDown, operation_live _ hlive, hmode, hcng, Bool.false_eq_true, or_self, if_false]

end

/-! ### The parts of the operations -/

/-- Flow control is released above the low-water mark where it was asserted (43 R211). -/
theorem checkLowWater_eq (s : State) : s.checkLowWater =
    { s with
      txHolding := s.txHolding && !decide (txMark < s.txOutBytes)
      modemCtrl := s.modemCtrl ++ (if s.txHolding && decide (txMark < s.txOutBytes) then [.cts true] else []) } := by
  unfold State.checkLowWater State.lowWater
  split
  next hdue =>
    obtain ⟨hhold, hlow⟩ := Bool.and_eq_true_iff.1 hdue
    simp only [hhold, hlow]
    rfl
  next hidle =>
    rw [Bool.not_eq_true] at hidle
    have hkeep : ∀ hold low : Bool, (hold && low) = false → (hold && !low) = hold := by decide
    rw [hkeep _ _ hidle, List.append_nil]

/-- The fill byte is 0xFF before any data and 0x00 after it, so its lowest bit tells which (43 R210). -/
theorem shiftOutBit_fillTxByte (s : State) : s.fillTxByte.shiftOutBit =
    { s with
      txBitNo := 7
      txCurrentByte := if s.txDataStarted then 0x00 else 0x7F
      ret := bitRet (!s.txDataStarted) } := by
  have hbyte : ∀ started : Bool,
      (if started then (0x00 : Byte) else 0xFF) >>> 1 = if started then 0x00 else 0x7F := by decide
  have hbit : ∀ started : Bool, (if started then (0x00 : Byte) else 0xFF).getLsbD 0 = !started := by decide
  simp only [State.shiftOutBit, State.fillTxByte, hbyte, hbit]
  rfl

/-- A byte for the DTE, a DLE doubled (42 R188). -/
theorem map_byte_stuff_singleton (v : Byte) : (stuff [v]).map DteItem.byte =
    if v = 0x10 then [.byte 0x10, .byte 0x10] else [.byte v] := by
  by_cases hdle : v = DLE
  · subst hdle; rfl
  · rw [stuff_cons, if_neg hdle, if_neg hdle]
    rfl

/-- A tag that is not Early has no fast-only tag of its own (40 R138). -/
theorem fastOnly_eq_self {r : RxHandler} (h : r.isEarly = false) : r.fastOnly = r := by
  cases r with
  | earlyV17 | earlyV27ter | earlyV29 => cases h
  | dummy | silence | fsk | v17 | v27ter | v29 | cng => rfl

/-- The guard holds CARRIER_DOWN back under SIGNAL_PRESENT with no signal (43 R214). -/
theorem carrierDown_held_iff (s : State) :
    ¬ (s.params.carrierDownGuard = .noGuard ∨ s.rxSignalPresent = true) ↔
      s.params.carrierDownGuard = .signalPresent ∧ s.rxSignalPresent = false := by
  cases s.params.carrierDownGuard <;> simp

theorem inCng_eq_false {s : State} (hcng : s.modem ≠ some .cng) (hnocng : s.modem ≠ some .nocng) :
    s.inCng = false := by
  rw [← Bool.not_eq_true, inCng_iff]
  exact not_or_intro hcng hnocng

/-- FRAMING_OK means nothing outside V21_RX, CNG and NOCNG, but for the carrier error (44 R244). -/
theorem framingOk_eq_self {s : State} (hmode : s.modem ≠ some .v21Rx) (hcng : s.inCng = false)
    (herror : ((s.modem.map Mode.isFastRx).getD false && s.rxHandler.isEarly) = false) : s.framingOk = s := by
  simp only [State.framingOk, hcng, Bool.false_eq_true, if_false, herror, if_neg hmode]

/-! ### The statements -/

/-- Settles O34: the four branches of GETBIT; at a boundary with data the byte is the cell at the cursor. -/
theorem getBitAnswersABit : Obligations.GetBitAnswersABit := by
  intro s hlive
  refine ⟨exec_getBit_within hlive, fun hbit hdata hsize => ?_, exec_getBit_endOfData hlive,
    fun hbit hdata hfinal => ?_⟩
  · refine ⟨s.cell .txData s.txOutBytes, fun w hw => State.cell_of_byteAt (m := .txData) hw, ?_⟩
    rw [exec_getBit_boundary hlive hbit hdata hsize, State.loadTxByte, checkLowWater_eq]
    rfl
  · rw [exec_getBit_underrun hlive hbit hdata hfinal, shiftOutBit_fillTxByte]

/-- Settles O36: the bit enters the shifter, and the eighth sends the byte stuffed. -/
theorem putBitShiftsTheBitIn : Obligations.PutBitShiftsTheBitIn := by
  intro s bit hlive
  obtain ⟨hmsb, hlsb⟩ := shiftInBit_toNat s.params.putBitOrder s.rxCurrentByte bit
  refine ⟨_, hmsb, hlsb, ?_⟩
  by_cases hlast : s.rxBitNo = 7
  · rw [if_pos hlast, exec_putBit_eighth hlive bit (by omega), map_byte_stuff_singleton]
  · rw [if_neg hlast, exec_putBit_within hlive bit (by omega)]

/-- Settles O39: the tag is the fast-only tag of the one before. -/
theorem trainingSucceededConnects : Obligations.TrainingSucceededConnects := by
  intro s hlive
  have hearly {e f : RxHandler} (hf : e.fastOnly = f) (he : s.rxHandler = e) : s.rxHandler.fastOnly = f := he ▸ hf
  exact ⟨_, hearly rfl, hearly rfl, hearly rfl, fastOnly_eq_self, exec_putBitTrainingSucceeded_live hlive⟩

/-- Settles O40: where the guard holds CARRIER_DOWN back, the signal flag it clears is clear already. -/
theorem fastCarrierDownEndsTheData : Obligations.FastCarrierDownEndsTheData := by
  intro s hlive
  by_cases hguard : s.params.carrierDownGuard = .noGuard ∨ s.rxSignalPresent = true
  · rw [exec_putBitCarrierDown_ends hlive hguard, if_neg fun hheld => (carrierDown_held_iff s).2 hheld hguard]
  · have hheld := (carrierDown_held_iff s).1 hguard
    rw [exec_putBitCarrierDown_held hlive hguard, if_pos hheld, hheld.2]

/-- Settles O41: both operations only answer on RET. -/
theorem notedValuesChangeNothing : Obligations.NotedValuesChangeNothing :=
  fun _ hlive => ⟨exec_of_ignored hlive rfl, exec_of_ignored hlive rfl⟩

/-- Settles O42: the three branches of HDLCTXU. -/
theorem hdlcUnderflowInvitesOrEnds : Obligations.HdlcUnderflowInvitesOrEnds :=
  fun _ hlive => ⟨exec_hdlcTxu_final hlive, exec_hdlcTxu_invites hlive, exec_hdlcTxu_idle hlive⟩

/-- Settles O48: the values without a meaning only answer on RET, and of the two events of the HDLC receiver the
modes left have at most the carrier error, which needs a fast receive mode and an Early tag. -/
theorem eventsWithoutACaseChangeNothing : Obligations.EventsWithoutACaseChangeNothing := by
  intro s hlive
  refine ⟨?_, fun hv21 hcng hnocng => ?_⟩
  · rintro i (rfl | rfl | ⟨v, rfl | rfl⟩) <;> exact exec_of_ignored hlive rfl
  · have hidle := inCng_eq_false hcng hnocng
    have hframing (herror : ((s.modem.map Mode.isFastRx).getD false && s.rxHandler.isEarly) = false) :
        exec .hdlcEvFramingOk s = .next { s with ret := .value 0 } := by
      rw [exec_hdlcEvFramingOk_live hlive, framingOk_eq_self hv21 hidle herror]
      rfl
    refine ⟨exec_hdlcEvCarrierDown_idle hlive hv21 hidle, fun hlate => hframing ?_, fun hslow => hframing ?_⟩
    · rw [hlate, Bool.and_false]
    · rcases hslow with hnone | ⟨m, hm, hslow⟩
      · rw [hnone]; rfl
      · rw [hm, Option.map_some, Option.getD_some, hslow, Bool.false_and]

end Sys2Proof.Machine

/-! ## Frame delivery: received frames, the V.21 preamble and the end of the V.21 carrier

The statements of 44_frame_delivery_and_queue.md on HDLCRX and on the two events of the HDLC receiver that act. Each
shared operation gets one equation per branch of its rule. Three of the statements end in a record for the queue:
`enqueue_then` says once what becomes of it and of what the operation writes besides. -/

namespace Sys2Proof.Machine

/-! ### A record queued from inside the block -/

/-- `enqueue_spec` in the form of the statements: the record lies behind those held, or it is lost and logged; what the
operation writes `after` it leaves the queue alone (44 R243, 60 R295). -/
theorem enqueue_then {s : State} {rxq : List (List Byte)} (h : RingHolds s rxq) {rec : List Byte}
    (hsize : 1 ≤ rec.length ∧ rec.length ≤ 257) (after : State → State)
    (hkeep : ∀ u recs, RingHolds u recs → RingHolds (after u) recs) :
    if (queueBytes rxq).length + (rec.length + 2) ≤ 4095 then
      RingHolds (after (s.enqueue rec)) (rxq ++ [rec]) ∧
        after (s.enqueue rec) = after { s with qData := (s.enqueue rec).qData, qIptr := (s.enqueue rec).qIptr }
    else after (s.enqueue rec) = after { s with log := s.log ++ [.bufferExhausted] } := by
  rcases enqueue_spec h rec hsize with ⟨hfit, hring, heq, -, -⟩ | ⟨hfull, heq⟩
  · rw [if_pos (by omega)]
    exact ⟨hkeep _ _ hring, congrArg after heq⟩
  · have hused := h.fits
    rw [if_neg (by omega)]
    exact congrArg after heq

/-! ### A received frame (44 R240 to R243) -/

/-- HDLCRX of a frame that FRAME_IN carries whole (44 R240). -/
theorem exec_hdlcRx_live {s : State} (hlive : s.live = true) (ok : Bool) (hlen : s.frameIn.len ≤ 254)
    (hbytes : s.frameIn.len + 2 ≤ s.frameIn.bytes.length) : exec (.hdlcRx ok) s = .next
      ((s.acceptFrame (s.frameIn.bytes.take (s.frameIn.len + 2)) ok).returns (.value 0)) := by
  simp only [exec, execHdlcRx, operation_live _ hlive, frameMsg_eq_some hlen hbytes]

/-- A waiting command gets its CONNECT, if it had none, and then the frame (44 R240). -/
theorem acceptFrame_waiting {s : State} (msg : List Byte) (ok : Bool) (hpending : s.okIsPending = false)
    (hwaiting : s.dteIsWaiting = true) : s.acceptFrame msg ok = State.deliverDirect
      { s with
        dteTx := s.dteTx ++ (if s.rxMessageReceived then [] else [.resp 1]), rxMessageReceived := true } msg ok := by
  have hconnect : (if s.rxMessageReceived then s else { s.emitResp .connect with rxMessageReceived := true }) =
      { s with
        dteTx := s.dteTx ++ (if s.rxMessageReceived then [] else [.resp 1]), rxMessageReceived := true } := by
    split
    next hreceived => rw [List.append_nil, ← hreceived]
    next => rfl
  simp only [State.acceptFrame, if_neg (Bool.eq_false_iff.1 hpending), if_pos hwaiting, hconnect]

/-- The frame of no waiting command becomes a record, its code in front (44 R243). -/
theorem acceptFrame_queued {s : State} (msg : List Byte) (ok : Bool) (hpending : s.okIsPending = false)
    (hidle : s.dteIsWaiting = false) : s.acceptFrame msg ok = s.enqueue ((if ok then 0 else 4) :: msg) := by
  simp only [State.acceptFrame, if_neg (Bool.eq_false_iff.1 hpending), if_neg (Bool.eq_false_iff.1 hidle)]
  rfl

/-- The stuffed frame and its DLE-ETX on DTE_TX (44 R241, 42 R188). -/
theorem emitStuffed_emitEndOfData (s : State) (msg : List Byte) : (s.emitStuffed msg).emitEndOfData =
    { s with dteTx := s.dteTx ++ ((stuff msg).map .byte ++ [.byte 0x10, .byte 0x03]) } := by
  rw [← List.append_assoc]
  rfl

/-- The last frame of a batch with a good FCS: the OK waits for the carrier to go (44 R242). -/
theorem deliverDirect_deferred (s : State) {msg : List Byte} {ok : Bool}
    (hlast : ok = true ∧ msg[1]? = some 0x13) : s.deliverDirect msg ok =
      { s with
        dteTx := s.dteTx ++ ((stuff msg).map .byte ++ [.byte 0x10, .byte 0x03]), okIsPending := true } := by
  have hdefers : (ok && lastOfBatch msg) = true := by simpa [lastOfBatch] using hlast
  simp only [State.deliverDirect, if_pos hdefers, emitStuffed_emitEndOfData]

/-- Every other frame is answered at once, and the command is over (44 R241, R242). -/
theorem deliverDirect_answered (s : State) {msg : List Byte} {ok : Bool}
    (hother : ¬ (ok = true ∧ msg[1]? = some 0x13)) : s.deliverDirect msg ok =
      { s with
        dteTx := s.dteTx ++ ((stuff msg).map .byte ++ [.byte 0x10, .byte 0x03]) ++ [.resp (if ok then 0 else 4)]
        dteIsWaiting := false, rxMessageReceived := false, atRxMode := .offhookCommand, dteDataTimeout := 0 } := by
  have hanswers : ¬ (ok && lastOfBatch msg) = true := by simpa [lastOfBatch] using hother
  simp only [State.deliverDirect, if_neg hanswers, emitStuffed_emitEndOfData]
  cases ok <;> rfl

/-! ### FRAMING_OK: the V.21 preamble (44 R244) -/

theorem cngDrop_spec (s : State) : ∃ c d, SameReceiver s.cfg c ∧ s.cngDrop = afterCngDrop s c d :=
  ⟨cfgUnder (some .v21Rx) s.cfg (Config.freeCfg s.draws), s.draws + 1, ⟨rfl, rfl, rfl⟩, rfl⟩

theorem ListensToV21.dteIsWaiting {s u : State} (h : ListensToV21 s u) : u.dteIsWaiting = s.dteIsWaiting := by
  rcases h with ⟨_, rfl⟩ | ⟨_, c, d, _, rfl⟩ <;> rfl

theorem ListensToV21.rxMessageReceived {s u : State} (h : ListensToV21 s u) :
    u.rxMessageReceived = s.rxMessageReceived := by
  rcases h with ⟨_, rfl⟩ | ⟨_, c, d, _, rfl⟩ <;> rfl

/-- The CNG drop leaves the queue alone (40 R140). -/
theorem ListensToV21.ringHolds {s u : State} {rxq : List (List Byte)} (h : ListensToV21 s u)
    (hring : RingHolds s rxq) : RingHolds u rxq := by
  rcases h with ⟨_, rfl⟩ | ⟨_, c, d, _, rfl⟩ <;> exact hring.congr rfl rfl rfl

theorem framingOk_v21Rx {s : State} (hmode : s.modem = some .v21Rx) : s.framingOk = s.v21Preamble := by
  have hcng : s.inCng = false := inCng_eq_false (by simp [hmode]) (by simp [hmode])
  have hslow : (s.modem.map Mode.isFastRx).getD false = false := by rw [hmode]; rfl
  simp only [State.framingOk, hcng, hslow, Bool.false_and, Bool.false_eq_true, if_false, if_pos hmode]

theorem framingOk_inCng {s : State} (hcng : s.inCng = true) : s.framingOk = s.cngDrop.v21Preamble := by
  simp only [State.framingOk, if_pos hcng]
  rfl

/-- Where no fast modem receives, FRAMING_OK is the V.21 preamble, after the CNG drop in CNG and NOCNG. -/
theorem framingOk_listens {s : State}
    (hmode : s.modem = some .v21Rx ∨ s.modem = some .cng ∨ s.modem = some .nocng) :
    ∃ u, ListensToV21 s u ∧ s.framingOk = u.v21Preamble := by
  rcases hmode with hv21 | hcng
  · exact ⟨s, .inl ⟨hv21, rfl⟩, framingOk_v21Rx hv21⟩
  · exact ⟨s.cngDrop, .inr ⟨hcng, cngDrop_spec s⟩, framingOk_inCng ((inCng_iff s).2 hcng)⟩

theorem v21Preamble_again {s : State} (hreceived : s.rxMessageReceived = true) :
    s.v21Preamble = { s with rxSignalPresent := true } := if_pos hreceived

theorem v21Preamble_waiting {s : State} (hfirst : s.rxMessageReceived = false) (hwaiting : s.dteIsWaiting = true) :
    s.v21Preamble =
      { s with rxSignalPresent := true, rxMessageReceived := true, dteTx := s.dteTx ++ [.resp 1] } := by
  simp only [State.v21Preamble, if_neg (Bool.eq_false_iff.1 hfirst), if_pos hwaiting]
  rfl

theorem v21Preamble_queued {s : State} (hfirst : s.rxMessageReceived = false) (hidle : s.dteIsWaiting = false) :
    s.v21Preamble = State.enqueue { s with rxSignalPresent := true, rxMessageReceived := true } [1] := by
  simp only [State.v21Preamble, if_neg (Bool.eq_false_iff.1 hfirst), if_neg (Bool.eq_false_iff.1 hidle)]
  rfl

/-! ### FRAMING_OK: the carrier error (44 R244, 60 R294) -/

theorem framingOk_early {s : State}
    (hmode : s.modem = some .v17Rx ∨ s.modem = some .v27terRx ∨ s.modem = some .v29Rx)
    (hearly : s.rxHandler.isEarly = true) : s.framingOk = s.carrierError := by
  have hcng : s.inCng = false := by rcases hmode with h | h | h <;> rw [State.inCng, h] <;> rfl
  have herror : ((s.modem.map Mode.isFastRx).getD false && s.rxHandler.isEarly) = true := by
    rw [(isFastRx_iff _).2 hmode, hearly]; rfl
  simp only [State.framingOk, hcng, Bool.false_eq_true, if_false, if_pos herror]

/-- With adaptive receive the command goes on as a V.21 receive, after FRH3 and CONNECT (60 R294). -/
theorem carrierError_adaptive {s : State} (hadaptive : s.adaptiveReceive = true) :
    ∃ c d, SameReceiver s.cfg c ∧ s.carrierError =
      { s with
        rxHandler := .fsk, log := s.log ++ [.carrierError], rxSignalPresent := true
        rxMessageReceived := true, modem := some .v21Rx, transmit := false, dteIsWaiting := true
        atRxMode := .delivery, dteDataTimeout := 0, dteTx := s.dteTx ++ [.resp 9, .resp 1]
        cfg := c, draws := d } := by
  refine ⟨cfgUnder (some .v21Rx) s.cfg (Config.freeCfg s.draws), s.draws + 1, ⟨rfl, rfl, rfl⟩, ?_⟩
  rw [List.append_cons]
  have hraised : (State.raise { s with rxHandler := .fsk } .carrierError).adaptiveReceive = true := hadaptive
  simp only [State.carrierError, if_pos hraised]
  rfl

/-- Without it the command ends with FCERROR (60 R294). -/
theorem carrierError_fixed {s : State} (hfixed : s.adaptiveReceive = false) :
    ∃ c d, s.carrierError =
      { s with
        rxHandler := .fsk, log := s.log ++ [.carrierError], modem := some .silenceTx
        rxMessageReceived := false, dteIsWaiting := false, atRxMode := .offhookCommand
        dteDataTimeout := 0, dteTx := s.dteTx ++ [.resp 8], cfg := c, draws := d } := by
  have hraised : ¬ (State.raise { s with rxHandler := .fsk } .carrierError).adaptiveReceive = true :=
    Bool.eq_false_iff.1 hfixed
  refine ⟨cfgUnder (some .silenceTx) s.cfg (Config.freeCfg s.draws), s.draws + 1, ?_⟩
  simp only [State.carrierError, if_neg hraised]
  rfl

/-! ### CARRIER_DOWN (44 R245) -/

theorem exec_hdlcEvCarrierDown_v21 {s : State} (hlive : s.live = true)
    (hmode : s.modem = some .v21Rx ∨ s.modem = some .cng ∨ s.modem = some .nocng) :
    exec .hdlcEvCarrierDown s = .next (s.v21CarrierDown.returns (.value 0)) := by
  have hlistens : s.modem = some .v21Rx ∨ s.inCng = true := hmode.imp_right (inCng_iff s).2
  simp only [exec, execHdlcEvCarrierDown, operation_live _ hlive, if_pos hlistens]

theorem v21CarrierDown_pending {s : State} (hpending : s.okIsPending = true) : s.v21CarrierDown =
    { s with
      dteTx := s.dteTx ++ [.resp 0], okIsPending := false, dteIsWaiting := false
      rxMessageReceived := false, atRxMode := .offhookCommand, dteDataTimeout := 0
      rxSignalPresent := false, rxTrained := false } := by
  simp only [State.v21CarrierDown, if_pos hpending]
  rfl

section
variable {s : State} (hnone : s.okIsPending = false)
include hnone

theorem v21CarrierDown_waiting (hreceived : s.rxMessageReceived = true) (hwaiting : s.dteIsWaiting = true) :
    s.v21CarrierDown =
      { s with
        dteTx := s.dteTx ++ [.resp 3], dteIsWaiting := false
        rxMessageReceived := false, atRxMode := .offhookCommand, dteDataTimeout := 0
        rxSignalPresent := false, rxTrained := false } := by
  simp only [State.v21CarrierDown, if_neg (Bool.eq_false_iff.1 hnone), if_pos hreceived, if_pos hwaiting]
  rfl

theorem v21CarrierDown_queued (hreceived : s.rxMessageReceived = true) (hidle : s.dteIsWaiting = false) :
    s.v21CarrierDown =
      { s.enqueue [3] with rxMessageReceived := false, rxSignalPresent := false, rxTrained := false } := by
  simp only [State.v21CarrierDown, if_neg (Bool.eq_false_iff.1 hnone), if_pos hreceived,
    if_neg (Bool.eq_false_iff.1 hidle)]
  rfl

theorem v21CarrierDown_quiet (hnothing : s.rxMessageReceived = false) :
    s.v21CarrierDown = { s with rxSignalPresent := false, rxTrained := false } := by
  simp only [State.v21CarrierDown, if_neg (Bool.eq_false_iff.1 hnone),
    if_neg (Bool.eq_false_iff.1 hnothing)]

end

/-! ### The statements -/

/-- Settles O43: the frame for a waiting command, by whether its OK is deferred. -/
theorem frameIsDeliveredToAWaitingCommand : Obligations.FrameIsDeliveredToAWaitingCommand := by
  intro s ok hlive hpending hwaiting hlen hbytes
  refine ⟨_, _, rfl, rfl, ?_⟩
  rw [exec_hdlcRx_live hlive ok hlen hbytes, acceptFrame_waiting _ ok hpending hwaiting]
  generalize s.frameIn.bytes.take (s.frameIn.len + 2) = msg
  by_cases hlast : ok = true ∧ msg[1]? = some 0x13
  · simp only [if_pos hlast, deliverDirect_deferred _ hlast, State.returns, List.append_assoc]
  · simp only [if_neg hlast, deliverDirect_answered _ hlast, State.returns, List.append_assoc]

/-- Settles O44: the record of the frame is one for the queue, its code and at most 256 bytes. -/
theorem frameIsQueuedForNoCommand : Obligations.FrameIsQueuedForNoCommand := by
  intro s ok rxq hlive hpending hidle hlen hbytes hring
  refine ⟨_, _, rfl, exec_hdlcRx_live hlive ok hlen hbytes, ?_⟩
  have hmsg := frameMsg_length_le (frameMsg_eq_some hlen hbytes)
  generalize s.frameIn.bytes.take (s.frameIn.len + 2) = msg at hmsg ⊢
  rw [acceptFrame_queued msg ok hpending hidle]
  have hsize : 1 ≤ ((if ok then 0 else 4) :: msg : List Byte).length ∧
      ((if ok then 0 else 4) :: msg : List Byte).length ≤ 257 := by
    simp only [List.length_cons]
    omega
  exact enqueue_then hring hsize (State.returns · (.value 0)) fun _ _ h => h.returns _

/-- Settles O46: the V.21 preamble in the state after the CNG drop, if there is one. -/
theorem framingOkGivesConnectOnce : Obligations.FramingOkGivesConnectOnce := by
  intro s rxq hlive hmode hring
  obtain ⟨u, hu, hframing⟩ := framingOk_listens hmode
  rw [exec_hdlcEvFramingOk_live hlive, hframing, ← hu.rxMessageReceived, ← hu.dteIsWaiting]
  refine ⟨u, hu, fun hreceived => ?_, fun hfirst hwaiting => ?_, fun hfirst hidle => ⟨_, rfl, ?_⟩⟩
  · rw [v21Preamble_again hreceived]; rfl
  · rw [v21Preamble_waiting hfirst hwaiting]; rfl
  · rw [v21Preamble_queued hfirst hidle]
    have hnoted : RingHolds { u with rxSignalPresent := true, rxMessageReceived := true } rxq :=
      (hu.ringHolds hring).congr rfl rfl rfl
    exact enqueue_then hnoted (rec := [1]) (by decide) (State.returns · (.value 0)) fun _ _ h => h.returns _

/-- Settles O47, by the setting of adaptive receive. -/
theorem carrierErrorDuringFastReceive : Obligations.CarrierErrorDuringFastReceive := by
  intro s hlive hmode hearly
  rw [exec_hdlcEvFramingOk_live hlive, framingOk_early hmode hearly]
  by_cases hsetting : s.adaptiveReceive = true
  · obtain ⟨c, d, hsame, herror⟩ := carrierError_adaptive hsetting
    exact ⟨c, d, .inl hsame, by rw [if_pos hsetting, herror]; rfl⟩
  · have hfixed := Bool.eq_false_iff.2 hsetting
    obtain ⟨c, d, herror⟩ := carrierError_fixed hfixed
    exact ⟨c, d, .inr hfixed, by rw [if_neg hsetting, herror]; rfl⟩

/-- Settles O49: the four branches of CARRIER_DOWN; where NO_CARRIER is queued, the flags are cleared besides. -/
theorem v21CarrierDownEndsTheReceive : Obligations.V21CarrierDownEndsTheReceive := by
  intro s rxq hlive hmode hring
  rw [exec_hdlcEvCarrierDown_v21 hlive hmode]
  refine ⟨fun hpending => ?_, fun hnone hreceived hwaiting => ?_, fun hnone hreceived hidle => ⟨_, rfl, ?_⟩,
    fun hnone hnothing => ?_⟩
  · rw [v21CarrierDown_pending hpending]; rfl
  · rw [v21CarrierDown_waiting hnone hreceived hwaiting]; rfl
  · rw [v21CarrierDown_queued hnone hreceived hidle]
    exact enqueue_then hring (rec := [3]) (by decide)
      (fun u =>
        { u with rxMessageReceived := false, rxSignalPresent := false, rxTrained := false, ret := .value 0 })
      fun _ _ h => h.congr rfl rfl rfl
  · rw [v21CarrierDown_quiet hnone hnothing]; rfl

end Sys2Proof.Machine

/-! ## The line and the session: RXS, TXS and the operations of the session

The statements of 45_line_and_session_ops.md. Each operation gets its equation in a live state. The three checks of
RXS, the pull from a handler and the completion have their lemmas in the layer of the line; what is left of TXS is how
it joins them, `pullSamples_pulled`. RELEASE rests on `exec_dead`: without a live session every operation but INIT is a
refusal. -/

namespace Sys2Proof.Machine

/-! ### Refusal -/

theorem restartOperation_dead (m : Mode) {s : State} (hdead : s.live = false) :
    restartOperation m s = .next s.refuse := operation_dead _ hdead

/-- Without a session, and in T.38 mode, every operation but INIT stops at the test of `operation` or of
`operationFaulting` (70 R330, 45 R271, 40 R142). -/
theorem exec_dead {i : Instr} {s : State} (hi : i ≠ .init) (hdead : s.live = false) :
    exec i s = .next s.refuse := by
  unfold exec
  cases i with
  | init => exact absurd rfl hi
  | getBit | dte => exact operationFaulting_dead _ hdead
  | restartFlush | restartSilenceTx | restartSilenceRx | restartCed | restartCng | restartNocng | restartV21Tx
  | restartV17Tx | restartV27terTx | restartV29Tx | restartV21Rx | restartV17Rx | restartV27terRx | restartV29Rx =>
    exact restartOperation_dead _ hdead
  | _ => exact operation_dead _ hdead

/-- An operation whose body refuses is refused in every state (00 R9). -/
theorem operation_refuse (s : State) : operation s State.refuse = .next s.refuse := by
  rcases operation_cases s State.refuse with ⟨_, hrun⟩ | ⟨_, hrefuse⟩
  · exact hrun
  · exact hrefuse

theorem live_of_session_false {s : State} (h : s.session = false) : s.live = false := by
  rw [State.live, h, Bool.false_and]

/-! ### The operations in a live state -/

section
variable {s : State} (hlive : s.live = true)
include hlive

theorem exec_release_live : exec .release s = .next ({ s with session := false }.returns .nothing) := by
  simp only [exec, execRelease, operation_live _ hlive]

theorem exec_setToi_live (b : Bool) :
    exec (.setToi b) s = .next ({ s with transmitOnIdle := b }.returns .nothing) := by
  simp only [exec, execSetToi, operation_live _ hlive]

theorem exec_setTep_live (b : Bool) : exec (.setTep b) s = .next ({ s with useTep := b }.returns .nothing) := by
  simp only [exec, execSetTep, operation_live _ hlive]

theorem exec_callevRing_live : exec .callevRing s = .next (s.returns (.value 0)) := by
  simp only [exec, execCallevRing, operation_live _ hlive]

theorem exec_callevAnswer_live : exec .callevAnswer s = .next
    (({ s with callSamples := 0 }.setAtRxMode .offhookCommand).returns (.value 0)) := by
  simp only [exec, execCallevAnswer, operation_live _ hlive]

theorem exec_callevHangup_live : exec .callevHangup s = .next
    ({ (s.restart .silenceTx).setAtRxMode .onhookCommand with
      dteIsWaiting := false, okIsPending := false, silenceAwaited := 0 }.returns (.value 0)) := by
  simp only [exec, execCallevHangup, operation_live _ hlive]

theorem exec_rxs_live (quiet : Bool) : exec (.rxs quiet) s = .next
    ((s.countSample quiet).checkSilence.checkDteTimeout.checkNoCarrier.returns (.value 0)) := by
  simp only [exec, execRxs, operation_live _ hlive]

end

/-! ### The samples of a TXS -/

/-- A pull of up to `n` samples yields `len` of them before any completion and leaves `b`: the active handler is asked
for all, and its successor for the rest where the active one yields less and a successor waits (45 R278). -/
def Pulled (s : State) (n len : Nat) (b : State) : Prop :=
  ∃ (first : Nat) (a : State), Produced s s.txHandler n first a ∧
    if first < n ∧ s.nextTxHandler ≠ .none then
      ∃ more : Nat, len = first + more ∧
        Produced { a with txHandler := s.nextTxHandler, nextTxHandler := .none } s.nextTxHandler (n - first) more b
    else len = first ∧ b = a

/-- The two handlers together yield at most what is asked for. -/
theorem Pulled.le {s b : State} {n len : Nat} (h : Pulled s n len b) : len ≤ n := by
  obtain ⟨first, a, hactive, hrest⟩ := h
  obtain ⟨-, -, hfirst⟩ := hactive.frame
  split at hrest
  · obtain ⟨more, rfl, hsuccessor⟩ := hrest
    obtain ⟨-, -, hmore⟩ := hsuccessor.frame
    omega
  · obtain ⟨rfl, -⟩ := hrest
    exact hfirst

/-- The samples of a TXS are those of the two handlers, and the completion runs exactly where they are too few
(45 R278, R279). -/
theorem pullSamples_pulled (s : State) (n : Nat) : ∃ b, Pulled s n (s.pullSamples n).1 b ∧
    if (s.pullSamples n).1 < n then Completed b (s.pullSamples n).2 else (s.pullSamples n).2 = b := by
  have hcomplete (len : Nat) (b : State) :
      if len < n then Completed b (if len < n then b.txComplete else b)
      else (if len < n then b.txComplete else b) = b := by
    split
    · exact txComplete_completed b
    · rfl
  have hactive := produce_produced s s.txHandler n
  obtain ⟨hnext, -, -⟩ := hactive.frame
  unfold State.pullSamples
  simp only [hnext]
  refine ⟨_, ⟨_, _, hactive, ?_⟩, hcomplete _ _⟩
  split
  · exact ⟨_, rfl, produce_produced _ _ _⟩
  · exact ⟨rfl, rfl⟩

/-- Padding with `transmit_on_idle` makes up the whole length, as no more than that is ever pulled (45 R278). -/
theorem padded_eq_of_le {len n : Nat} (hle : len ≤ n) (onIdle : Bool) :
    (if onIdle ∧ len < n then n else len) = if onIdle then n else len := by
  cases onIdle with
  | false => simp
  | true =>
    simp only [true_and, if_true]
    split <;> omega

section
variable {s : State} (hlive : s.live = true)
include hlive

/-- TXS while nothing is transmitted (45 R278). -/
theorem exec_txs_silent (hsilent : s.transmit = false) (n : Byte) : exec (.txs n) s = .next
    (s.returns (.value (if s.transmitOnIdle then n.toNat else 0 : Nat))) := by
  simp only [exec, execTxs, operation_live _ hlive, hsilent, Bool.false_eq_true, if_false,
    padded_eq_of_le (Nat.zero_le _)]

/-- TXS while something is transmitted: the samples of `pullSamples` (45 R278). -/
theorem exec_txs_transmitting (htransmit : s.transmit = true) (n : Byte) :
    exec (.txs n) s = .next ((s.pullSamples n.toNat).2.returns
      (.value (if s.transmitOnIdle then n.toNat else (s.pullSamples n.toNat).1 : Nat))) := by
  obtain ⟨b, hpulled, -⟩ := pullSamples_pulled s n.toNat
  simp only [exec, execTxs, operation_live _ hlive, htransmit, if_true,
    (frame_pullSamples s n.toNat).transmitOnIdle, padded_eq_of_le hpulled.le]

end

/-! ### The statements -/

/-- Settles O7: INIT starts from the reset state and puts the inputs and the parameters back. -/
theorem initGivesTheResetTable : Obligations.InitGivesTheResetTable :=
  fun s => ⟨Config.freeCfg s.draws, s.draws + 1, .value 0, rfl⟩

/-- Settles O8: what RELEASE leaves has no session, so `exec_dead` speaks of it. -/
theorem releaseEndsTheSession : Obligations.ReleaseEndsTheSession :=
  fun _ hlive => ⟨_, exec_release_live hlive, rfl, fun _ hi => exec_dead hi (live_of_session_false rfl)⟩

/-- Settles O10: the equations of the two setters. -/
theorem setToiAndSetTepWriteTheirBit : Obligations.SetToiAndSetTepWriteTheirBit :=
  fun _ b hlive => ⟨⟨_, exec_setToi_live hlive b⟩, ⟨_, exec_setTep_live hlive b⟩⟩

/-- Settles O11: the equations of the three events; the hangup starts from the state its RESTART leaves. -/
theorem callEventsTakeEffect : Obligations.CallEventsTakeEffect :=
  fun s hlive => ⟨exec_callevRing_live hlive, exec_callevAnswer_live hlive,
    s.restart .silenceTx, restart_spec .silenceTx s, exec_callevHangup_live hlive⟩

/-- Settles O12: with a session and without one the two operations come to the same refusal. -/
theorem t38OperationsAreRefused : Obligations.T38OperationsAreRefused :=
  fun s _ _ => ⟨operation_refuse s, operation_refuse s⟩

/-- Settles O50: RXS is the three checks one after another, and each has its own lemma on the state it finds. -/
theorem rxsRunsItsChecksInOrder : Obligations.RxsRunsItsChecksInOrder :=
  fun _ quiet hlive => ⟨_, _, _, _, rfl, checkSilence_eq _, checkDteTimeout_spec _, checkNoCarrier_spec _,
    exec_rxs_live hlive quiet⟩

/-- Settles O51, by `transmit`: the handlers and the completion are those of `pullSamples_pulled`. -/
theorem txsPullsFromTheHandlers : Obligations.TxsPullsFromTheHandlers := by
  refine fun s n hlive => ⟨fun hsilent => exec_txs_silent hlive hsilent n, fun htransmit => ?_⟩
  obtain ⟨b, ⟨first, a, hactive, hsuccessor⟩, hcomplete⟩ := pullSamples_pulled s n.toNat
  exact ⟨first, _, a, b, _, hactive, hsuccessor, hcomplete, exec_txs_transmitting hlive htransmit n⟩

end Sys2Proof.Machine

/-! ## Reset and hazards: refusal, waiting, and the state after reset

The statements of 70_reset_and_hazards.md. A state without a session and one in T.38 mode are the two ways not to be
live, so `exec_dead` speaks of both. `step` gets an equation for each branch that runs no operation. After reset every
cursor is 0 and every memory lists nothing. -/

namespace Sys2Proof.Machine

/-! ### Refusal and waiting -/

theorem live_eq_false_iff (s : State) : s.live = false ↔ s.session = false ∨ s.t38Mode = true := by
  rw [← Bool.not_eq_true, live_iff, not_and_or, Bool.not_eq_true, Bool.not_eq_false]

/-- The block waits while nothing is on CMD (70 R332). -/
theorem step_of_no_command {s : State} (hcmd : s.cmdIn = []) : step s = .next s := by
  simp only [step, hcmd]

/-- A reserved word is taken off CMD and refused (30 R102, 00 R9). -/
theorem step_of_reserved_word {s : State} {c : Command} {rest : List Command} {e : DecodeError}
    (hcmd : s.cmdIn = c :: rest) (hdecode : decode c.word = .error e) :
    step s = .next (issued s c rest).refuse := by
  simp only [step, hcmd, hdecode, present_eq_issued]

/-! ### Memories and the ring after reset -/

theorem Memory.below_nil (n : Nat) : Memory.below [] n := fun i hi => by
  rw [Memory.byteAt_nil] at hi
  cases hi

theorem Memory.filled_zero (m : Memory) : m.filled 0 := fun i hi => absurd hi (Nat.not_lt_zero i)

theorem memory_reset (m : MemName) : State.reset.memory m = [] := by cases m <;> rfl

/-- Both ring indices are 0 after reset, as a flush leaves them (10 R43, 44 R249). -/
theorem ringHolds_reset : RingHolds State.reset [] := (ringHolds_flush State.reset).congr rfl rfl rfl

/-- No mode is active, nothing is stored and every counter is 0 (10 R43, 70 R331), so each clause about a mode, a
stored byte or a length has nothing to speak of. -/
theorem stateInv_reset : StateInv State.reset where
  params := by decide
  t38Mode := rfl
  canonical m := by rw [memory_reset]; rfl
  bounded m := by rw [memory_reset]; exact Memory.below_nil _
  txCursors := ⟨Nat.le_refl 0, Nat.zero_le _⟩
  txWritten := Memory.filled_zero _
  hdlcTx := ⟨Nat.zero_le _, Memory.filled_zero _⟩
  hdlcRx := Nat.zero_le _
  bitCounters := ⟨Nat.zero_le _, Nat.zero_le _⟩
  queue := ⟨[], ringHolds_reset⟩
  early hearly := by cases hearly
  fastRate m hmodem := by cases hmodem
  silence := ⟨Nat.zero_le _, fun n hleft => by cases hleft⟩
  clocks := Nat.le_refl 0
  deadline := Nat.zero_le _

/-! ### The statements -/

/-- Settles O9: without a session or in T.38 mode the state is not live, and `exec_dead` is the refusal. -/
theorem refusedWithoutSessionOrInT38Mode : Obligations.RefusedWithoutSessionOrInT38Mode :=
  fun _ s hi hstate => exec_dead hi ((live_eq_false_iff s).2 hstate)

/-- Settles O6: the two equations of `step` where no operation runs. -/
theorem stepWithoutAnOperation : Obligations.StepWithoutAnOperation :=
  fun _ => ⟨step_of_no_command, fun _ _ _ hcmd hdecode => step_of_reserved_word hcmd hdecode⟩

/-- Settles O53: the reset table meets every clause. -/
theorem invHoldsAtReset : Obligations.InvHoldsAtReset := stateInv_reset

end Sys2Proof.Machine

/-! ## Outside the invariant: the two loads that stop

20_memory.md section 4 bounds the cursors, so the spec rules out a load behind the end of a memory, and the model stops
there (log entry 15). These are the branches beside `exec_getBit_boundary` and `hdlcByte_etx`, which take a cursor
inside. -/

namespace Sys2Proof.Machine

/-- GETBIT at a byte boundary with data, the cursor at or beyond the end of `tx_data` (log entry 15). -/
theorem exec_getBit_outside {s : State} (hlive : s.live = true) (hbit : s.txBitNo = 0)
    (hdata : s.txOutBytes ≠ s.txInBytes) (hsize : s.params.txBufLen ≤ s.txOutBytes) :
    exec .getBit s = .fault (.outsideMemory .txData s.txOutBytes) := by
  simp only [exec, execGetBit, operationFaulting_live _ hlive, if_pos hbit, if_pos hdata,
    if_neg (Nat.not_lt.2 hsize)]

/-- The ETX of a DLE-ETX in HDLC mode, more bytes counted than the buffer has cells (log entry 15). -/
theorem hdlcByte_etx_outside {s : State} (hdled : s.dled = true)
    (hlen : s.params.hdlcTxBufLen < s.hdlcTxLen) :
    s.hdlcByte 3 = .fault (.outsideMemory .hdlcTxBuf s.params.hdlcTxBufLen) := by
  simp [State.hdlcByte, State.armDteTimeout, hdled, ETX, hlen]

/-- Settles O56: DTE in HDLC mode is `hdlcByte`, and `returning` passes a fault on as it is. -/
theorem outOfRangeCursorsStop : Obligations.OutOfRangeCursorsStop := by
  refine fun s hlive => ⟨exec_getBit_outside hlive, fun hmode hdled hlen => ?_⟩
  rw [exec_dte_hdlc hlive hmode, hdlcByte_etx_outside hdled hlen]
  rfl

end Sys2Proof.Machine
